-- ==== Sys2Proof/Word.lean ====
section
/-! DEFINITION. The word types of the CORE engine (spec/00_scope.md R6, R10, R11). -/

namespace Sys2Proof

/-- A byte: an integer in [0, 256) (R11). -/
abbrev Byte := BitVec 8

/-- A 32-bit word: every host-interface register (R21), and the datapath word of MD5, SHA-1, SHA-224 and SHA-256 (R6). -/
abbrev Word32 := BitVec 32

/-- A 64-bit word: the datapath word of SHA-384 and SHA-512 (R6). -/
abbrev Word64 := BitVec 64

/-- A byte sequence; index 0 is the first byte of the input (R11). -/
abbrev Bytes := List Byte

end Sys2Proof
end

