-- ==== Sys2Proof/Syntax.lean ====
section
/-! DEFINITION. The commands of the CORE engine, one constructor per row of spec/opcode_table.json
(spec/30_encoding.md R99), the selectors they are made of, and the error codes of spec/60_exceptions.md R400. -/

namespace Sys2Proof

/-- The hash variants (R3, R93). -/
inductive Alg where
  | md5 | sha1 | sha224 | sha256 | sha384 | sha512
deriving DecidableEq, Repr

/-- The modes of operation (R94). -/
inductive Mode where
  | ecb | cbc | cfb | ofb | ctr
deriving DecidableEq, Repr

/-- The two external cipher families (R7, R95). -/
inductive Family where
  | c128 | c64
deriving DecidableEq, Repr

/-- The direction of a cipher command: ENC or DEC (R92). -/
inductive Dir where
  | enc | dec
deriving DecidableEq, Repr

/-- The error codes of R400; the constructors stand in the order of their numbers 1 to 7. Code 0 is success and is no
constructor; codes 8 to 15 are reserved and never reported (R400, U12), so they are no constructors either. -/
inductive ErrCode where
  | invalidKeySize | invalidIvSize | invalidBlockAlignment | unsupportedCombination | illegalCmd | invalidBlockSize | lengthRange
deriving DecidableEq, Repr

/-- The commands: the 33 fixed words and `PAD n` (R99). A command has no operand but PAD's block size (R98). -/
inductive Instr where
  | hashMd5 | hashSha1 | hashSha224 | hashSha256 | hashSha384 | hashSha512
  | hmacMd5 | hmacSha1 | hmacSha224 | hmacSha256 | hmacSha384 | hmacSha512
  | encEcbC128 | encEcbC64 | decEcbC128 | decEcbC64
  | encCbcC128 | encCbcC64 | decCbcC128 | decCbcC64
  | encCfbC128 | encCfbC64 | decCfbC128 | decCfbC64
  | encOfbC128 | encOfbC64 | decOfbC128 | decOfbC64
  | encCtrC128 | encCtrC64 | decCtrC128 | decCtrC64
  /-- `PAD n`; `n` is the BSIZE field (R96). -/
  | padN (n : Byte)
  | unpad
deriving DecidableEq, Repr

end Sys2Proof
end

