-- ==== Sys2Proof/WellFormed.lean ====
section
/-! DEFINITION. Which terms of `Instr` are commands of the engine (spec/30_encoding.md R96, R99). -/

namespace Sys2Proof

/-- A command is well formed when a legal word encodes it: `PAD n` needs 1 ≤ n (R96: BSIZE = 0 is INVALID_BLOCK_SIZE; the
type already bounds n by 255), and every other command has no operand to check. -/
def Instr.wellFormed : Instr → Bool
  | .padN n => n != 0
  | .hashMd5 | .hashSha1 | .hashSha224 | .hashSha256 | .hashSha384 | .hashSha512 => true
  | .hmacMd5 | .hmacSha1 | .hmacSha224 | .hmacSha256 | .hmacSha384 | .hmacSha512 => true
  | .encEcbC128 | .encEcbC64 | .decEcbC128 | .decEcbC64 => true
  | .encCbcC128 | .encCbcC64 | .decCbcC128 | .decCbcC64 => true
  | .encCfbC128 | .encCfbC64 | .decCfbC128 | .decCfbC64 => true
  | .encOfbC128 | .encOfbC64 | .decOfbC128 | .decOfbC64 => true
  | .encCtrC128 | .encCtrC64 | .decCtrC128 | .decCtrC64 => true
  | .unpad => true

end Sys2Proof
end

