-- ==== Sys2Proof/Decode.lean ====
section
/-! DEFINITION. The command word: its fields, the total decoder of spec/30_encoding.md R100, and an encoder written from
the same tables (R91 to R97, R99). -/

namespace Sys2Proof

/-- The field `v[hi:lo]` of R9, as the number it holds. -/
def bits (v : Word32) (hi lo : Nat) : Nat := v.toNat / 2 ^ lo % 2 ^ (hi + 1 - lo)

/-- HASH of an ALG value; none for the reserved ones (R93). -/
def hashOfAlg : Nat → Option Instr
  | 0 => some .hashMd5
  | 1 => some .hashSha1
  | 2 => some .hashSha224
  | 3 => some .hashSha256
  | 4 => some .hashSha384
  | 5 => some .hashSha512
  | _ => none

/-- HMAC of an ALG value; none for the reserved ones (R93). -/
def hmacOfAlg : Nat → Option Instr
  | 0 => some .hmacMd5
  | 1 => some .hmacSha1
  | 2 => some .hmacSha224
  | 3 => some .hmacSha256
  | 4 => some .hmacSha384
  | 5 => some .hmacSha512
  | _ => none

/-- ENC of MODE and FAM values; none where either is reserved (R94, R95, R102). -/
def encOfModeFam : Nat → Nat → Option Instr
  | 0, 0 => some .encEcbC128
  | 0, 1 => some .encEcbC64
  | 1, 0 => some .encCbcC128
  | 1, 1 => some .encCbcC64
  | 2, 0 => some .encCfbC128
  | 2, 1 => some .encCfbC64
  | 3, 0 => some .encOfbC128
  | 3, 1 => some .encOfbC64
  | 4, 0 => some .encCtrC128
  | 4, 1 => some .encCtrC64
  | _, _ => none

/-- DEC of MODE and FAM values; none where either is reserved (R94, R95, R102). -/
def decOfModeFam : Nat → Nat → Option Instr
  | 0, 0 => some .decEcbC128
  | 0, 1 => some .decEcbC64
  | 1, 0 => some .decCbcC128
  | 1, 1 => some .decCbcC64
  | 2, 0 => some .decCfbC128
  | 2, 1 => some .decCfbC64
  | 3, 0 => some .decOfbC128
  | 3, 1 => some .decOfbC64
  | 4, 0 => some .decCtrC128
  | 4, 1 => some .decCtrC64
  | _, _ => none

/-- A command, or UNSUPPORTED_COMBINATION where a used field holds a reserved value (R101). -/
def orUnsupported : Option Instr → Except ErrCode Instr
  | some i => .ok i
  | none => .error .unsupportedCombination

/-- R100: decode is total on every 32-bit word, and tests in R100's order. -/
def decode (v : Word32) : Except ErrCode Instr :=
  let op := bits v 3 0
  let alg := bits v 7 4
  let mode := bits v 10 8
  let fam := bits v 12 11
  let bs := bits v 23 16
  if bits v 15 13 ≠ 0 ∨ bits v 31 24 ≠ 0 then .error .illegalCmd else
  match op with
  | 1 => if mode ≠ 0 ∨ fam ≠ 0 ∨ bs ≠ 0 then .error .illegalCmd else orUnsupported (hashOfAlg alg)
  | 2 => if mode ≠ 0 ∨ fam ≠ 0 ∨ bs ≠ 0 then .error .illegalCmd else orUnsupported (hmacOfAlg alg)
  | 3 => if alg ≠ 0 ∨ bs ≠ 0 then .error .illegalCmd else orUnsupported (encOfModeFam mode fam)
  | 4 => if alg ≠ 0 ∨ bs ≠ 0 then .error .illegalCmd else orUnsupported (decOfModeFam mode fam)
  | 5 =>
    if alg ≠ 0 ∨ mode ≠ 0 ∨ fam ≠ 0 then .error .illegalCmd
    else if bs = 0 then .error .invalidBlockSize
    else .ok (.padN (BitVec.ofNat 8 bs))
  | 6 => if alg ≠ 0 ∨ mode ≠ 0 ∨ fam ≠ 0 ∨ bs ≠ 0 then .error .illegalCmd else .ok .unpad
  | _ => .error .illegalCmd

/-- What the decoder reads from a row of spec/opcode_table.json whose bits are `w`: one 32-bit word (R90), every bit from
`nbits` up being 0. -/
def decodeTableWord (nbits w : Nat) : Option Instr :=
  (decode (BitVec.ofNat 32 (w % 2 ^ nbits))).toOption

/-! ## The encoder -/

/-- A command word from its fields OP, ALG, MODE, FAM and BSIZE, reserved bits 0 (R91). -/
def cmdWord (op alg mode fam bsize : Nat) : Word32 :=
  BitVec.ofNat 32 (op + alg * 2 ^ 4 + mode * 2 ^ 8 + fam * 2 ^ 11 + bsize * 2 ^ 16)

/-- The word of a command, from the columns OP, ALG, MODE, FAM, BSIZE of R99. -/
def encode : Instr → Word32
  | .hashMd5 => cmdWord 1 0 0 0 0
  | .hashSha1 => cmdWord 1 1 0 0 0
  | .hashSha224 => cmdWord 1 2 0 0 0
  | .hashSha256 => cmdWord 1 3 0 0 0
  | .hashSha384 => cmdWord 1 4 0 0 0
  | .hashSha512 => cmdWord 1 5 0 0 0
  | .hmacMd5 => cmdWord 2 0 0 0 0
  | .hmacSha1 => cmdWord 2 1 0 0 0
  | .hmacSha224 => cmdWord 2 2 0 0 0
  | .hmacSha256 => cmdWord 2 3 0 0 0
  | .hmacSha384 => cmdWord 2 4 0 0 0
  | .hmacSha512 => cmdWord 2 5 0 0 0
  | .encEcbC128 => cmdWord 3 0 0 0 0
  | .encEcbC64 => cmdWord 3 0 0 1 0
  | .decEcbC128 => cmdWord 4 0 0 0 0
  | .decEcbC64 => cmdWord 4 0 0 1 0
  | .encCbcC128 => cmdWord 3 0 1 0 0
  | .encCbcC64 => cmdWord 3 0 1 1 0
  | .decCbcC128 => cmdWord 4 0 1 0 0
  | .decCbcC64 => cmdWord 4 0 1 1 0
  | .encCfbC128 => cmdWord 3 0 2 0 0
  | .encCfbC64 => cmdWord 3 0 2 1 0
  | .decCfbC128 => cmdWord 4 0 2 0 0
  | .decCfbC64 => cmdWord 4 0 2 1 0
  | .encOfbC128 => cmdWord 3 0 3 0 0
  | .encOfbC64 => cmdWord 3 0 3 1 0
  | .decOfbC128 => cmdWord 4 0 3 0 0
  | .decOfbC64 => cmdWord 4 0 3 1 0
  | .encCtrC128 => cmdWord 3 0 4 0 0
  | .encCtrC64 => cmdWord 3 0 4 1 0
  | .decCtrC128 => cmdWord 4 0 4 0 0
  | .decCtrC64 => cmdWord 4 0 4 1 0
  | .padN n => cmdWord 5 0 0 0 n.toNat
  | .unpad => cmdWord 6 0 0 0 0

end Sys2Proof
end

