-- ==== Sys2Proof/Config.lean ====
section
/-! DEFINITION. What is fixed for one machine (spec/00_scope.md R7, R8; spec/20_memory.md R61), the external ciphers
(spec/10_state.md R33), and the free values of the model (spec/93_implementation_defined.md, the rows treated as any value). -/

namespace Sys2Proof

/-- The four buffers of the engine (R29, R60). -/
inductive Space where
  | keymem | ivmem | din | dout
deriving DecidableEq, Repr

/-! ## Fixed parameters -/

/-- KEY_CAP, the size of KEYMEM in bytes (R8). -/
def Config.keyCap : Nat := 256

/-- IV_CAP, the size of IVMEM in bytes (R8). -/
def Config.ivCap : Nat := 16

/-- The largest IN_CAP a platform may have (R8). -/
def Config.maxInCap : Nat := 0x00FFFF00

/-- OUT_CAP − IN_CAP (R8). -/
def Config.outSlack : Nat := 256

/-- The length of the host's window (R61). -/
def Config.windowBytes : Nat := 0x03000000

/-- The end of the register block (R61). -/
def Config.registerBytes : Nat := 0x100

/-- The window offset at which a buffer starts (R61). -/
def Config.regionStart : Space → Nat
  | .keymem => 0x100
  | .ivmem => 0x200
  | .din => 0x01000000
  | .dout => 0x02000000

/-- The parameters R8 leaves OPEN, as plain data fixed for one machine: BASE, the platform address of window offset 0,
and IN_CAP, the size of DIN. A state carries them (`State.params`) and no step changes them, so a statement about every
state is a statement for every choice of them (log entry 1). -/
structure Config.Params where
  base : Nat
  inCap : Nat
deriving DecidableEq, Repr

/-- OUT_CAP = IN_CAP + 256 (R8). -/
def Config.Params.outCap (p : Config.Params) : Nat := p.inCap + Config.outSlack

/-- R8's bound: 1 ≤ IN_CAP ≤ 0x00FF_FF00. -/
def Config.Params.legal (p : Config.Params) : Bool := 1 ≤ p.inCap && p.inCap ≤ Config.maxInCap

/-- The parameters of the reset state of this package: IN_CAP as R8 suggests it, BASE at 0 (DESIGN CHOICE, unsafe where a
statement rests on the numbers; log entry 1). -/
def Config.suggested : Config.Params := { base := 0, inCap := 65536 }

/-- The size of a buffer in bytes (R8, R29). -/
def Config.Params.cap (p : Config.Params) : Space → Nat
  | .keymem => Config.keyCap
  | .ivmem => Config.ivCap
  | .din => p.inCap
  | .dout => p.outCap

/-! ## The cipher families -/

/-- The native block size S in bytes (R7); it is also the legal IV length. -/
def Config.blockBytes : Family → Nat
  | .c128 => 16
  | .c64 => 8

/-- The valid key lengths in bytes (R7, D26). -/
def Config.keyLengths : Family → List Nat
  | .c128 => [16, 24, 32]
  | .c64 => [8]

/-- E_C128: key bytes and a 16-byte block to a 16-byte block (R33). A parameter: it has no body here, so nothing can
evaluate it. It is applied only to keys of 16, 24 or 32 bytes and blocks of 16 bytes. -/
opaque Config.encC128 : Bytes → Bytes → Vector Byte 16

/-- D_C128 (R33); a parameter. -/
opaque Config.decC128 : Bytes → Bytes → Vector Byte 16

/-- E_C64: an 8-byte key and an 8-byte block to an 8-byte block (R33); a parameter. -/
opaque Config.encC64 : Bytes → Bytes → Vector Byte 8

/-- D_C64 (R33); a parameter. -/
opaque Config.decC64 : Bytes → Bytes → Vector Byte 8

/-- E_F of a family (R33). -/
def Config.encrypt : Family → Bytes → Bytes → Bytes
  | .c128, key, block => (Config.encC128 key block).toList
  | .c64, key, block => (Config.encC64 key block).toList

/-- D_F of a family (R33). -/
def Config.decrypt : Family → Bytes → Bytes → Bytes
  | .c128, key, block => (Config.decC128 key block).toList
  | .c64, key, block => (Config.decC64 key block).toList

/-- The named property `cipher_roundtrip_F` of R33: D_F(k, E_F(k, x)) = x for every valid key k and block x. It is never
assumed by the model; a statement that needs it takes it as a hypothesis. -/
def Config.CipherRoundtrip (f : Family) : Prop :=
  ∀ key block : Bytes, key.length ∈ Config.keyLengths f → block.length = Config.blockBytes f →
    Config.decrypt f key (Config.encrypt f key block) = block

/-! ## Free values

Each is a constant without a body, applied to the number of a draw (and, where one draw stands for several values, to an
index). Nothing in Lean evaluates one, so a theorem that mentions one holds for every value of it. -/

/-- A byte the spec leaves open: contents after reset (R38, U2), DOUT beyond DOUTLEN (R107, U3), the output of UNPAD on an
inconsistent input (R303, U1), a DOUT byte read while busy (R461, U4). Arguments: the draw, the buffer, the byte's index. -/
opaque Config.freeByte : Nat → Space → Nat → Byte

/-- DOUTLEN as read while busy (R461, U4), and what a host reads outside the window (R412, log entry 5): any 32-bit value. -/
opaque Config.freeWord : Nat → Word32

/-- The number from which DOUTLEN after UNPAD of an inconsistent input is drawn (R303, U1). -/
opaque Config.freeLength : Nat → Nat

/-- A scheduling choice the spec leaves open: how many host steps pass before the engine step of a command (R462, U7), and
which of several hosts moves next (R424). -/
opaque Config.freeChoice : Nat → Nat

/-- The value a host variable holds before its host's program assigns it; R104 gives none. Arguments: the host, the variable. -/
opaque Config.freeVar : Nat → Nat → Word32

end Sys2Proof
end

