-- ==== Sys2Proof/Machine/State.lean ====
section
/-! DEFINITION. The state of the CORE engine and its hosts as plain data (spec/10_state.md R20 to R38,
spec/70_reset_and_hazards.md R455), the reasons a step can stop, and the state after reset. -/

namespace Sys2Proof.Machine

/-- A buffer's contents: the bytes that have been given a value, as (index, byte) pairs with the indices strictly rising.
An index that is not listed holds no value of its own: the byte there is open, and reading it gives a free value (R38,
R107; `bufByte`). -/
abbrev Memory := List Host.Cell

/-! ## The hosts -/

/-- The operand of a host write: a number, or the value of a host variable (R104). -/
inductive HostVal where
  | lit (v : Word32)
  | var (x : Nat)
deriving DecidableEq, Repr

/-- A statement of a host program (R104), with labels resolved to the index of the statement they stand before. Offsets
are from BASE; host variables are numbered. -/
inductive HostStmt where
  /-- `W32 off, v` -/
  | w32 (off : Nat) (v : HostVal)
  /-- `W8 off, v` -/
  | w8 (off : Nat) (v : HostVal)
  /-- `R32 off -> x` -/
  | r32 (off : Nat) (x : Nat)
  /-- `R8 off -> x` -/
  | r8 (off : Nat) (x : Nat)
  /-- `BIT1 x, i, label` -/
  | bit1 (x : Nat) (i : Fin 32) (label : Nat)
  /-- `HALT` -/
  | halt
deriving DecidableEq, Repr

/-- The two host bus errors of R410, with the window offset of the access. -/
inductive BusError where
  /-- an 8-bit access to the register block (R63) -/
  | byteAccessToRegister (off : Nat)
  /-- a 32-bit access at an offset that is not a multiple of 4 (R63, R64) -/
  | misalignedWord (off : Nat)
deriving DecidableEq, Repr

/-- Why a host access is none of the engine's: it takes no effect on it. -/
inductive HostReject where
  /-- the engine does not accept the access (R62, R410) -/
  | busError (e : BusError)
  /-- the platform address lies outside the engine's window (R412) -/
  | outsideWindow (address : Nat)
deriving DecidableEq, Repr

/-- What a host is doing: running its program, ended by `HALT`, or stopped by a host bus error (R410, U6). -/
inductive HostRun where
  | running | halted | faulted
deriving DecidableEq, Repr

/-- One host: its program, the index of its next statement, and its variables as (number, value) pairs, the numbers
strictly rising (R104, D2). -/
structure HostAgent where
  program : List HostStmt
  pc : Nat
  vars : List (Nat × Word32)
  run : HostRun
deriving DecidableEq, Repr

/-! ## The engine -/

/-- The in-flight marker of R455: the command word taken at issue, and how many host steps still pass before the engine
step (R462). The snapshot of R457 is not copied: by R460 it equals the live registers and buffers. -/
structure InFlight where
  word : Word32
  wait : Nat
deriving DecidableEq, Repr

/-- The state: the host-interface registers (R21 to R27), the buffers (R29), the in-flight marker and the host fault
record (R455), the hosts (D2), the platform's reset input (R450), and three counters of the model's own for the free
values (log entry 3). -/
structure State where
  /-- BASE and IN_CAP (R8): fixed for the machine, no step changes them -/
  params : Config.Params
  /-- CMD (R22) -/
  cmd : Word32
  /-- STATUS (R23) -/
  status : Word32
  /-- KEYLEN (R24) -/
  keylen : Word32
  /-- IVLEN (R25) -/
  ivlen : Word32
  /-- DINLEN (R26) -/
  dinlen : Word32
  /-- DOUTLEN (R27) -/
  doutlen : Word32
  /-- KEYMEM (R29) -/
  keymem : Memory
  /-- IVMEM (R29) -/
  ivmem : Memory
  /-- DIN (R29) -/
  din : Memory
  /-- DOUT (R29) -/
  dout : Memory
  /-- the in-flight marker (R455) -/
  inflight : Option InFlight
  /-- the host fault record: the first host bus error, never cleared (R410, R455, U6) -/
  hostFault : Option BusError
  /-- the hosts that share the engine (D2, R424) -/
  hosts : List HostAgent
  /-- the level of the platform's reset input at the coming steps, the next step's first; deasserted after the last (R450) -/
  resetInput : List Bool
  /-- scheduling choices given from outside, the next one first; after the last, choices are free values (R462, log entry 4) -/
  schedule : List Nat
  /-- the draw that the bytes of KEYMEM, IVMEM and DIN unwritten since the last reset are taken from (R38) -/
  inputDraw : Nat
  /-- the draw that the open bytes of DOUT are taken from (R38, R107, R303) -/
  doutDraw : Nat
  /-- the number of the next fresh draw -/
  draws : Nat
deriving DecidableEq, Repr

/-- Why a step stops: it never does, so there is no constructor. An error of a command is an outcome in STATUS (R401), a
host bus error stops its host alone (R410), and an access outside the window has no engine effect (R412): each is a next
state. -/
inductive Fault
deriving DecidableEq, Repr

/-- Why a step has no meaning. -/
inductive Refusal where
  /-- Raised by an arm of `exec` for a command that has no meaning yet. SAFE: the model stops. No arm raises it now. -/
  | notModelled (mnemonic : String)
deriving DecidableEq, Repr

/-- What moves at the next step (R455), with the state it moves from. -/
inductive Turn where
  /-- the platform's reset input is asserted: no agent moves (R450) -/
  | reset (s : State)
  /-- the engine step of the in-flight command word (R106(b)) -/
  | engine (word : Word32) (s : State)
  /-- a step of the host with this index -/
  | host (i : Nat) (s : State)
  /-- no agent has a step to take (R426) -/
  | idle (s : State)
deriving DecidableEq, Repr

/-- The state after reset of a machine with parameters `p` and hosts `hosts` (R38, R451): every register 0, no command in
flight, no host fault, and no buffer byte with a value of its own. -/
def State.boot (p : Config.Params) (hosts : List HostAgent) : State where
  params := p
  cmd := 0
  status := 0
  keylen := 0
  ivlen := 0
  dinlen := 0
  doutlen := 0
  keymem := []
  ivmem := []
  din := []
  dout := []
  inflight := none
  hostFault := none
  hosts := hosts
  resetInput := []
  schedule := []
  inputDraw := 0
  doutDraw := 0
  draws := 1

/-- The state right after reset, with the parameters R8 suggests and no host program (R38; log entries 1 and 9). -/
def State.reset : State := State.boot Config.suggested []

end Sys2Proof.Machine
end

