-- ==== Sys2Proof/Machine/Bytes.lean ====
section
/-! DEFINITION. Word operations, byte sequences and the packing of integers into bytes (spec/00_scope.md R10 to R12,
spec/40_md_padding.md R128). -/

namespace Sys2Proof.Machine

/-- ROTR_n on w-bit words, 0 < n < w (R10). -/
def rotr {w : Nat} (n : Nat) (x : BitVec w) : BitVec w := (x >>> n) ||| (x <<< (w - n))

/-- ROTL_n on w-bit words, 0 < n < w (R10). -/
def rotl {w : Nat} (n : Nat) (x : BitVec w) : BitVec w := (x <<< n) ||| (x >>> (w - n))

/-- SHR_n (R10). -/
def shr {w : Nat} (n : Nat) (x : BitVec w) : BitVec w := x >>> n

/-- zeros(n) (R11). -/
def zeros (n : Nat) : Bytes := List.replicate n 0x00#8

/-- rep(v, n) (R11). -/
def rep (v : Byte) (n : Nat) : Bytes := List.replicate n v

/-- a ⊕ b, bytewise, for two sequences of equal length (R11). -/
def xorBytes (a b : Bytes) : Bytes := List.zipWith (· ^^^ ·) a b

/-- trunc(s, n) = s[0..n) (R11). -/
def trunc (s : Bytes) (n : Nat) : Bytes := s.take n

/-- s[i..j) (R11). -/
def slice (s : Bytes) (i j : Nat) : Bytes := (s.drop i).take (j - i)

/-- BE_n(s), for n = len(s) (R12). -/
def ofBE (s : Bytes) : Nat := s.foldl (fun acc b => acc * 2 ^ 8 + b.toNat) 0

/-- LE_n(s), for n = len(s) (R12). -/
def ofLE (s : Bytes) : Nat := s.foldr (fun b acc => b.toNat + 2 ^ 8 * acc) 0

/-- toLE_n(v), for v < 2^(8n) (R12). -/
def toLE (n v : Nat) : Bytes := (List.range n).map fun k => BitVec.ofNat 8 (v / 2 ^ (8 * k))

/-- toBE_n(v), for v < 2^(8n) (R12). -/
def toBE (n v : Nat) : Bytes := (toLE n v).reverse

/-- The byte order of an algorithm (R6, R67): its words, its length field and its digest use the same one. -/
inductive Endian where
  | little | big
deriving DecidableEq, Repr

/-- The integer of a byte sequence in a byte order (R12). -/
def unpack : Endian → Bytes → Nat
  | .little => ofLE
  | .big => ofBE

/-- The n bytes of an integer in a byte order (R12). -/
def pack : Endian → Nat → Nat → Bytes
  | .little => toLE
  | .big => toBE

/-- M_t: word t of a block cut into words of w bits (R128). -/
def blockWord (w : Nat) (e : Endian) (blk : Bytes) (t : Nat) : BitVec w :=
  BitVec.ofNat w (unpack e (slice blk (t * (w / 8)) ((t + 1) * (w / 8))))

/-- enc(H[i]): a state word in w/8 bytes (R127). -/
def encWord {w : Nat} (e : Endian) (x : BitVec w) : Bytes := pack e (w / 8) x.toNat

end Sys2Proof.Machine
end

