-- ==== Sys2Proof/Machine/Flags.lean ====
section
/-! DEFINITION. The fields of STATUS and the words the engine writes to it (spec/10_state.md R23, R34; spec/30_encoding.md
R106, R107; spec/60_exceptions.md R400, R403). -/

namespace Sys2Proof.Machine

/-- STATUS.BUSY, bit 0 (R23). -/
def statusBusy (v : Word32) : Bool := v.getLsbD 0

/-- STATUS.DONE, bit 1 (R23). -/
def statusDone (v : Word32) : Bool := v.getLsbD 1

/-- STATUS.ERR, bits 7:4 (R23). -/
def statusErr (v : Word32) : Nat := bits v 7 4

/-- The number of an error code (R400). -/
def errNumber : ErrCode → Nat
  | .invalidKeySize => 1
  | .invalidIvSize => 2
  | .invalidBlockAlignment => 3
  | .unsupportedCombination => 4
  | .illegalCmd => 5
  | .invalidBlockSize => 6
  | .lengthRange => 7

/-- STATUS at issue: BUSY = 1, DONE = 0, ERR = 0 (R106(a)). -/
def statusIssued : Word32 := 0x00000001#32

/-- STATUS at successful completion: BUSY = 0, DONE = 1, ERR = 0 (R107). -/
def statusOk : Word32 := 0x00000002#32

/-- STATUS at completion with an error: 0x0000_0002 | (code << 4) (R403). -/
def statusFailed (c : ErrCode) : Word32 := 0x00000002#32 ||| (BitVec.ofNat 32 (errNumber c) <<< 4)

/-- BUSY of a state (R23, R34). -/
def busy (s : State) : Bool := statusBusy s.status

/-- The values STATUS can hold (R23, R400, U12, U14): idle after reset, busy, and done with an outcome code from 0 to 7. -/
def legalStatus (v : Word32) : Bool := v == 0 || v == statusIssued || (v &&& 0xFFFFFF8F#32) == statusOk

end Sys2Proof.Machine
end

