-- ==== Sys2Proof/Machine/Ops.lean ====
section
/-! DEFINITION. The named operations over buffers and registers: reading and writing a buffer byte, the free draws, the
two completions of a command (spec/30_encoding.md R107, spec/60_exceptions.md R403), issue (R106(a)), and the reset event
(spec/70_reset_and_hazards.md R450). -/

namespace Sys2Proof.Machine

/-! ## Tables with rising keys -/

/-- The value a key has, if it is listed. -/
def cellGet? {α : Type} : List (Nat × α) → Nat → Option α
  | [], _ => none
  | (a, v) :: rest, k => if a = k then some v else if k < a then none else cellGet? rest k

/-- Give a key a value, keeping the keys strictly rising. -/
def cellSet {α : Type} : List (Nat × α) → Nat → α → List (Nat × α)
  | [], k, v => [(k, v)]
  | (a, u) :: rest, k, v =>
    if a = k then (k, v) :: rest
    else if k < a then (k, v) :: (a, u) :: rest
    else (a, u) :: cellSet rest k v

/-- The keys rise strictly, the first being `lo` or more. -/
def cellsRising {α : Type} : Nat → List (Nat × α) → Bool
  | _, [] => true
  | lo, (a, _) :: rest => decide (lo ≤ a) && cellsRising (a + 1) rest

/-- The canonical form of a buffer of `cap` bytes: indices strictly rising, each in the buffer. An unlisted index reads as
no value, so no listed byte can equal what an unlisted one reads as. -/
def Memory.wf (cap : Nat) (m : Memory) : Bool := cellsRising 0 m && m.all fun cell => decide (cell.1 < cap)

/-- The buffer that holds exactly the bytes of `out`, from index `k` up. -/
def cellsFrom : Nat → Bytes → Memory
  | _, [] => []
  | k, b :: rest => (k, b) :: cellsFrom (k + 1) rest

/-! ## Buffers -/

/-- The contents of a buffer. -/
def buf (s : State) : Space → Memory
  | .keymem => s.keymem
  | .ivmem => s.ivmem
  | .din => s.din
  | .dout => s.dout

/-- Replace the contents of a buffer. -/
def setBuf (s : State) : Space → Memory → State
  | .keymem, m => { s with keymem := m }
  | .ivmem, m => { s with ivmem := m }
  | .din, m => { s with din := m }
  | .dout, m => { s with dout := m }

/-- The draw the open bytes of a buffer are taken from. -/
def bufDraw (s : State) : Space → Nat
  | .keymem | .ivmem | .din => s.inputDraw
  | .dout => s.doutDraw

/-- The byte at index `k` of a buffer: the value it was given, else a free value, the same one at every read until the byte
is written (R38, R73, R107). -/
def bufByte (s : State) (sp : Space) (k : Nat) : Byte :=
  (cellGet? (buf s sp) k).getD (Config.freeByte (bufDraw s sp) sp k)

/-- MemRead(SPACE + a, n) (R60). -/
def memRead (s : State) (sp : Space) (a n : Nat) : Bytes := (List.range n).map fun k => bufByte s sp (a + k)

/-- Write one byte of a buffer. -/
def writeByte (s : State) (sp : Space) (k : Nat) (v : Byte) : State := setBuf s sp (cellSet (buf s sp) k v)

/-! ## Completion -/

/-- R107, `finish(out)`: one atomic step that puts `out` at the start of DOUT, its length in DOUTLEN and success in STATUS,
and clears the in-flight marker (R455). The bytes of DOUT from len(out) up become a fresh draw. -/
def finish (out : Bytes) (s : State) : State :=
  { s with
    dout := cellsFrom 0 out
    doutDraw := s.draws
    doutlen := BitVec.ofNat 32 out.length
    status := statusOk
    inflight := none
    draws := s.draws + 1 }

/-- The unspecified completion of R303: success in STATUS, any DOUTLEN in [0, OUT_CAP], any bytes in DOUT. -/
def finishUnspecified (s : State) : State :=
  { s with
    dout := []
    doutDraw := s.draws
    doutlen := BitVec.ofNat 32 (Config.freeLength s.draws % (s.params.outCap + 1))
    status := statusOk
    inflight := none
    draws := s.draws + 1 }

/-- R403, `raise Error(code)`: DOUTLEN 0, the code in STATUS, the in-flight marker cleared (R455), nothing else changed. -/
def raiseError (c : ErrCode) (s : State) : State :=
  { s with
    doutlen := 0
    status := statusFailed c
    inflight := none }

/-- A command after decode: refused with the code of the first check that failed, else completed with its output
(R106(b), R108). -/
def complete (failed : Option ErrCode) (out : Bytes) (s : State) : Host.Outcome State Fault Refusal :=
  match failed with
  | some c => .next (raiseError c s)
  | none => .next (finish out s)

/-! ## Issue and reset -/

/-- The state after one free draw. -/
def nextDraw (s : State) : State := { s with draws := s.draws + 1 }

/-- One scheduling choice: the next one given from outside, else a free value (R462, log entry 4). -/
def choose (s : State) : Nat × State :=
  match s.schedule with
  | c :: rest => (c, { s with schedule := rest })
  | [] => (Config.freeChoice s.draws, nextDraw s)

/-- R106(a): the issue of command word `v` while idle. The number of host steps before the engine step is a choice (R462). -/
def issue (v : Word32) (s : State) : State :=
  { (choose s).2 with
    cmd := v
    status := statusIssued
    inflight := some { word := v, wait := (choose s).1 } }

/-- R450: the reset input asserted for one step. Every register, buffer and the in-flight marker take the values of R38, the
buffers' bytes a fresh draw; the hosts, the host fault record and the inputs from outside are no part of R38's table and
stay (log entry 8). -/
def resetEvent (s : State) : State :=
  { s with
    cmd := 0
    status := 0
    keylen := 0
    ivlen := 0
    dinlen := 0
    doutlen := 0
    keymem := []
    ivmem := []
    din := []
    dout := []
    inflight := none
    inputDraw := s.draws
    doutDraw := s.draws
    draws := s.draws + 1 }

end Sys2Proof.Machine
end

