-- ==== Sys2Proof/Machine/Operands.lean ====
section
/-! DEFINITION. The operands of a command (spec/00_scope.md R14, spec/30_encoding.md R96, R98) and the checks that come
before any transform work (spec/60_exceptions.md R402, spec/47_modes.md R331). -/

namespace Sys2Proof.Machine

/-- `msg = MemRead(DIN + 0, R.DINLEN)` (R14). -/
def msgOf (s : State) : Bytes := memRead s .din 0 s.dinlen.toNat

/-- `key = MemRead(KEYMEM + 0, R.KEYLEN)` (R14). -/
def keyOf (s : State) : Bytes := memRead s .keymem 0 s.keylen.toNat

/-- `iv = MemRead(IVMEM + 0, R.IVLEN)` (R14). -/
def ivOf (s : State) : Bytes := memRead s .ivmem 0 s.ivlen.toNat

/-- BSIZE zero-extended: the block size of PAD (R96). -/
def blockSizeOf (bsize : Byte) : Nat := bsize.toNat

/-- An error if a condition holds. -/
def errorIf (bad : Bool) (c : ErrCode) : Option ErrCode := if bad then some c else none

/-- The check every command makes first: DINLEN ≤ IN_CAP (R402). -/
def rangeError (s : State) : Option ErrCode := errorIf (decide (s.params.inCap < s.dinlen.toNat)) .lengthRange

/-- The checks of HMAC, in order (R402). -/
def hmacError (s : State) : Option ErrCode :=
  (rangeError s).or (errorIf (decide (Config.keyCap < s.keylen.toNat)) .lengthRange)

/-- The key check of a cipher command (R402): a key length the family has. -/
def keyError (f : Family) (s : State) : Option ErrCode :=
  errorIf (!(Config.keyLengths f).contains s.keylen.toNat) .invalidKeySize

/-- The IV check of CBC, CFB, OFB and CTR (R402): the family's block size exactly. ECB has none (R25, D27). -/
def ivError (m : Mode) (f : Family) (s : State) : Option ErrCode :=
  errorIf (m != .ecb && s.ivlen.toNat != Config.blockBytes f) .invalidIvSize

/-- The length check of ECB and CBC (R402): a positive multiple of the block size. -/
def alignmentError (m : Mode) (f : Family) (s : State) : Option ErrCode :=
  errorIf ((m == .ecb || m == .cbc) && (s.dinlen.toNat == 0 || s.dinlen.toNat % Config.blockBytes f != 0))
    .invalidBlockAlignment

/-- The checks of ENC and DEC, in order; the first that fails is reported (R402, R331). -/
def cipherError (m : Mode) (f : Family) (s : State) : Option ErrCode :=
  (rangeError s).or ((keyError f s).or ((ivError m f s).or (alignmentError m f s)))

end Sys2Proof.Machine
end

