-- ==== Sys2Proof/Machine/Padding.lean ====
section
/-! DEFINITION. Merkle–Damgård padding and the machine the four compression engines share (spec/40_md_padding.md R120 to
R132). A hash state is the list of its words, H[0] first (R30); the files of the four engines give their compression
functions. -/

namespace Sys2Proof.Machine

/-- The parameters of a variant, a row of R6 with word width `w`: block and length-field sizes in bytes, byte order, and how
many words the digest takes. -/
structure HashParams where
  blockBytes : Nat
  lengthBytes : Nat
  endian : Endian
  digestWords : Nat
deriving DecidableEq, Repr

/-- The number k of zero bytes after 0x80: (Bb − Fb − 1 − ℓ) mod Bb, 0 ≤ k < Bb (R121). -/
def padZeros (p : HashParams) (len : Nat) : Nat :=
  (((p.blockBytes : Int) - p.lengthBytes - 1 - len) % p.blockBytes).toNat

/-- R121: m ‖ 0x80 ‖ zeros(k) ‖ the length in bits. -/
def mdpad (p : HashParams) (m : Bytes) : Bytes :=
  m ++ [0x80#8] ++ zeros (padZeros p m.length) ++ pack p.endian p.lengthBytes (8 * m.length)

/-- blk_j = p[j·Bb .. (j+1)·Bb) (R123). -/
def blockAt (bb : Nat) (padded : Bytes) (j : Nat) : Bytes := slice padded (j * bb) ((j + 1) * bb)

/-- R125, R126: from the initial vector, absorb the blocks in increasing order. -/
def absorbAll {w : Nat} (bb : Nat) (compress : List (BitVec w) → Bytes → List (BitVec w)) (iv : List (BitVec w))
    (padded : Bytes) : List (BitVec w) :=
  (List.range (padded.length / bb)).foldl (fun h j => compress h (blockAt bb padded j)) iv

/-- R127: the first words of the state, each in the variant's byte order. -/
def finalize {w : Nat} (p : HashParams) (h : List (BitVec w)) : Bytes :=
  ((h.take p.digestWords).map (encWord p.endian)).flatten

/-- R129: Init, Absorb, Finalize. -/
def mdHash {w : Nat} (p : HashParams) (compress : List (BitVec w) → Bytes → List (BitVec w)) (iv : List (BitVec w))
    (m : Bytes) : Bytes :=
  finalize p (absorbAll p.blockBytes compress iv (mdpad p m))

/-- The add-back of R126: each working variable into its state word, modulo 2^w. -/
def addBack {w : Nat} (h v : List (BitVec w)) : List (BitVec w) := List.zipWith (· + ·) h v

end Sys2Proof.Machine
end

