-- ==== Sys2Proof/Machine/Md5.lean ====
section
/-! DEFINITION. The MD5 compression round (spec/41_md5.md R150 to R157). -/

namespace Sys2Proof.Machine

/-- R150. -/
def md5Iv : List Word32 := [0x67452301#32, 0xEFCDAB89#32, 0x98BADCFE#32, 0x10325476#32]

/-- The table T of R151. -/
def md5T : List Word32 :=
  [0xd76aa478#32, 0xe8c7b756#32, 0x242070db#32, 0xc1bdceee#32, 0xf57c0faf#32, 0x4787c62a#32, 0xa8304613#32, 0xfd469501#32] ++
  [0x698098d8#32, 0x8b44f7af#32, 0xffff5bb1#32, 0x895cd7be#32, 0x6b901122#32, 0xfd987193#32, 0xa679438e#32, 0x49b40821#32] ++
  [0xf61e2562#32, 0xc040b340#32, 0x265e5a51#32, 0xe9b6c7aa#32, 0xd62f105d#32, 0x02441453#32, 0xd8a1e681#32, 0xe7d3fbc8#32] ++
  [0x21e1cde6#32, 0xc33707d6#32, 0xf4d50d87#32, 0x455a14ed#32, 0xa9e3e905#32, 0xfcefa3f8#32, 0x676f02d9#32, 0x8d2a4c8a#32] ++
  [0xfffa3942#32, 0x8771f681#32, 0x6d9d6122#32, 0xfde5380c#32, 0xa4beea44#32, 0x4bdecfa9#32, 0xf6bb4b60#32, 0xbebfbc70#32] ++
  [0x289b7ec6#32, 0xeaa127fa#32, 0xd4ef3085#32, 0x04881d05#32, 0xd9d4d039#32, 0xe6db99e5#32, 0x1fa27cf8#32, 0xc4ac5665#32] ++
  [0xf4292244#32, 0x432aff97#32, 0xab9423a7#32, 0xfc93a039#32, 0x655b59c3#32, 0x8f0ccc92#32, 0xffeff47d#32, 0x85845dd1#32] ++
  [0x6fa87e4f#32, 0xfe2ce6e0#32, 0xa3014314#32, 0x4e0811a1#32, 0xf7537e82#32, 0xbd3af235#32, 0x2ad7d2bb#32, 0xeb86d391#32]

/-- The order g(i) of R152 in which round i reads the block's words. -/
def md5G (i : Nat) : Nat :=
  if i < 16 then i
  else if i < 32 then (5 * i + 1) % 16
  else if i < 48 then (3 * i + 5) % 16
  else 7 * i % 16

/-- The rotation amounts s[i] of R153. -/
def md5S (i : Nat) : Nat :=
  if i < 16 then [7, 12, 17, 22].getD (i % 4) 0
  else if i < 32 then [5, 9, 14, 20].getD (i % 4) 0
  else if i < 48 then [4, 11, 16, 23].getD (i % 4) 0
  else [6, 10, 15, 21].getD (i % 4) 0

/-- fn_i: the logical function of round i (R154). -/
def md5Fn (i : Nat) (x y z : Word32) : Word32 :=
  if i < 16 then (x &&& y) ||| (~~~x &&& z)
  else if i < 32 then (x &&& z) ||| (y &&& ~~~z)
  else if i < 48 then x ^^^ y ^^^ z
  else y ^^^ (x ||| ~~~z)

/-- The message schedule: W[i] = M_{g(i)} (R152). -/
def md5Schedule (blk : Bytes) : List Word32 := (List.range 64).map fun i => blockWord 32 .little blk (md5G i)

/-- The working variables A, B, C, D = V[0..3] (R32). -/
structure Md5Vars where
  a : Word32
  b : Word32
  c : Word32
  d : Word32
deriving DecidableEq, Repr

/-- Round i (R155). -/
def md5Round (w : List Word32) (i : Nat) (v : Md5Vars) : Md5Vars :=
  let t := md5Fn i v.b v.c v.d + v.a + md5T.getD i 0 + w.getD i 0
  { a := v.d, b := v.b + rotl (md5S i) t, c := v.b, d := v.c }

/-- The rounds 0 to n − 1. -/
def md5Rounds (w : List Word32) (n : Nat) (v : Md5Vars) : Md5Vars := (List.range n).foldl (fun v i => md5Round w i v) v

/-- The working variables loaded from the state. -/
def md5Load (h : List Word32) : Md5Vars := { a := h.getD 0 0, b := h.getD 1 0, c := h.getD 2 0, d := h.getD 3 0 }

/-- The compression of one block (R156). -/
def md5Compress (h : List Word32) (blk : Bytes) : List Word32 :=
  let v := md5Rounds (md5Schedule blk) 64 (md5Load h)
  addBack h [v.a, v.b, v.c, v.d]

end Sys2Proof.Machine
end

