-- ==== Sys2Proof/Machine/Sha1.lean ====
section
/-! DEFINITION. The SHA-1 compression pipeline (spec/42_sha1.md R180 to R185). -/

namespace Sys2Proof.Machine

/-- R180. -/
def sha1Iv : List Word32 := [0x67452301#32, 0xEFCDAB89#32, 0x98BADCFE#32, 0x10325476#32, 0xC3D2E1F0#32]

/-- Ch (R182, R210, R240). -/
def chFn {w : Nat} (x y z : BitVec w) : BitVec w := (x &&& y) ^^^ (~~~x &&& z)

/-- Maj (R182, R210, R240). -/
def majFn {w : Nat} (x y z : BitVec w) : BitVec w := (x &&& y) ^^^ (x &&& z) ^^^ (y &&& z)

/-- Parity (R182). -/
def parityFn (x y z : Word32) : Word32 := x ^^^ y ^^^ z

/-- The schedule's next word W[t] from the words before it (R181). -/
def sha1Next (w : List Word32) (t : Nat) : Word32 :=
  rotl 1 (w.getD (t - 3) 0 ^^^ w.getD (t - 8) 0 ^^^ w.getD (t - 14) 0 ^^^ w.getD (t - 16) 0)

/-- The message schedule W[0..80) (R181). -/
def sha1Schedule (blk : Bytes) : List Word32 :=
  (List.range' 16 64).foldl (fun w t => w ++ [sha1Next w t]) ((List.range 16).map (blockWord 32 .big blk))

/-- f_t (R182). -/
def sha1Fn (t : Nat) (b c d : Word32) : Word32 :=
  if t < 20 then chFn b c d
  else if t < 40 then parityFn b c d
  else if t < 60 then majFn b c d
  else parityFn b c d

/-- K_t (R182). -/
def sha1K (t : Nat) : Word32 :=
  if t < 20 then 0x5A827999#32
  else if t < 40 then 0x6ED9EBA1#32
  else if t < 60 then 0x8F1BBCDC#32
  else 0xCA62C1D6#32

/-- The working variables a, …, e = V[0..4] (R32). -/
structure Sha1Vars where
  a : Word32
  b : Word32
  c : Word32
  d : Word32
  e : Word32
deriving DecidableEq, Repr

/-- Round t (R183). -/
def sha1Round (w : List Word32) (t : Nat) (v : Sha1Vars) : Sha1Vars :=
  { a := rotl 5 v.a + sha1Fn t v.b v.c v.d + v.e + sha1K t + w.getD t 0
    b := v.a
    c := rotl 30 v.b
    d := v.c
    e := v.d }

/-- The rounds 0 to n − 1. -/
def sha1Rounds (w : List Word32) (n : Nat) (v : Sha1Vars) : Sha1Vars := (List.range n).foldl (fun v t => sha1Round w t v) v

/-- The working variables loaded from the state. -/
def sha1Load (h : List Word32) : Sha1Vars :=
  { a := h.getD 0 0, b := h.getD 1 0, c := h.getD 2 0, d := h.getD 3 0, e := h.getD 4 0 }

/-- The compression of one block (R184). -/
def sha1Compress (h : List Word32) (blk : Bytes) : List Word32 :=
  let v := sha1Rounds (sha1Schedule blk) 80 (sha1Load h)
  addBack h [v.a, v.b, v.c, v.d, v.e]

end Sys2Proof.Machine
end

