-- ==== Sys2Proof/Machine/Sha256.lean ====
section
/-! DEFINITION. The SHA-224/256 compression engine and its message-schedule expander (spec/43_sha256.md R210 to R218). -/

namespace Sys2Proof.Machine

/-- Σ0 (R210). -/
def bigSigma0 (x : Word32) : Word32 := rotr 2 x ^^^ rotr 13 x ^^^ rotr 22 x

/-- Σ1 (R210). -/
def bigSigma1 (x : Word32) : Word32 := rotr 6 x ^^^ rotr 11 x ^^^ rotr 25 x

/-- σ0 (R210). -/
def smallSigma0 (x : Word32) : Word32 := rotr 7 x ^^^ rotr 18 x ^^^ shr 3 x

/-- σ1 (R210). -/
def smallSigma1 (x : Word32) : Word32 := rotr 17 x ^^^ rotr 19 x ^^^ shr 10 x

/-- K256 (R211). -/
def k256 : List Word32 :=
  [0x428a2f98#32, 0x71374491#32, 0xb5c0fbcf#32, 0xe9b5dba5#32, 0x3956c25b#32, 0x59f111f1#32, 0x923f82a4#32, 0xab1c5ed5#32] ++
  [0xd807aa98#32, 0x12835b01#32, 0x243185be#32, 0x550c7dc3#32, 0x72be5d74#32, 0x80deb1fe#32, 0x9bdc06a7#32, 0xc19bf174#32] ++
  [0xe49b69c1#32, 0xefbe4786#32, 0x0fc19dc6#32, 0x240ca1cc#32, 0x2de92c6f#32, 0x4a7484aa#32, 0x5cb0a9dc#32, 0x76f988da#32] ++
  [0x983e5152#32, 0xa831c66d#32, 0xb00327c8#32, 0xbf597fc7#32, 0xc6e00bf3#32, 0xd5a79147#32, 0x06ca6351#32, 0x14292967#32] ++
  [0x27b70a85#32, 0x2e1b2138#32, 0x4d2c6dfc#32, 0x53380d13#32, 0x650a7354#32, 0x766a0abb#32, 0x81c2c92e#32, 0x92722c85#32] ++
  [0xa2bfe8a1#32, 0xa81a664b#32, 0xc24b8b70#32, 0xc76c51a3#32, 0xd192e819#32, 0xd6990624#32, 0xf40e3585#32, 0x106aa070#32] ++
  [0x19a4c116#32, 0x1e376c08#32, 0x2748774c#32, 0x34b0bcb5#32, 0x391c0cb3#32, 0x4ed8aa4a#32, 0x5b9cca4f#32, 0x682e6ff3#32] ++
  [0x748f82ee#32, 0x78a5636f#32, 0x84c87814#32, 0x8cc70208#32, 0x90befffa#32, 0xa4506ceb#32, 0xbef9a3f7#32, 0xc67178f2#32]

/-- The SHA-256 initial state (R212). -/
def sha256Iv : List Word32 :=
  [0x6A09E667#32, 0xBB67AE85#32, 0x3C6EF372#32, 0xA54FF53A#32, 0x510E527F#32, 0x9B05688C#32, 0x1F83D9AB#32, 0x5BE0CD19#32]

/-- The SHA-224 initial state (R213). -/
def sha224Iv : List Word32 :=
  [0xC1059ED8#32, 0x367CD507#32, 0x3070DD17#32, 0xF70E5939#32, 0xFFC00B31#32, 0x68581511#32, 0x64F98FA7#32, 0xBEFA4FA4#32]

/-- The expander's next word W[t] from the words before it (R214). -/
def next256 (w : List Word32) (t : Nat) : Word32 :=
  smallSigma1 (w.getD (t - 2) 0) + w.getD (t - 7) 0 + smallSigma0 (w.getD (t - 15) 0) + w.getD (t - 16) 0

/-- expand256: the message schedule W[0..64) (R214). -/
def expand256 (blk : Bytes) : List Word32 :=
  (List.range' 16 48).foldl (fun w t => w ++ [next256 w t]) ((List.range 16).map (blockWord 32 .big blk))

/-- The working variables a, …, h = V[0..7] of SHA-2, of w bits (R32). -/
structure Sha2Vars (w : Nat) where
  a : BitVec w
  b : BitVec w
  c : BitVec w
  d : BitVec w
  e : BitVec w
  f : BitVec w
  g : BitVec w
  h : BitVec w
deriving DecidableEq, Repr

/-- The working variables loaded from the state (R216, R246). -/
def sha2Load {w : Nat} (h : List (BitVec w)) : Sha2Vars w :=
  { a := h.getD 0 0, b := h.getD 1 0, c := h.getD 2 0, d := h.getD 3 0
    e := h.getD 4 0, f := h.getD 5 0, g := h.getD 6 0, h := h.getD 7 0 }

/-- The working variables in order. -/
def sha2List {w : Nat} (v : Sha2Vars w) : List (BitVec w) := [v.a, v.b, v.c, v.d, v.e, v.f, v.g, v.h]

/-- Round t (R215). -/
def sha256Round (w : List Word32) (t : Nat) (v : Sha2Vars 32) : Sha2Vars 32 :=
  let t1 := v.h + bigSigma1 v.e + chFn v.e v.f v.g + k256.getD t 0 + w.getD t 0
  let t2 := bigSigma0 v.a + majFn v.a v.b v.c
  { a := t1 + t2, b := v.a, c := v.b, d := v.c, e := v.d + t1, f := v.e, g := v.f, h := v.g }

/-- The rounds 0 to n − 1. -/
def sha256Rounds (w : List Word32) (n : Nat) (v : Sha2Vars 32) : Sha2Vars 32 :=
  (List.range n).foldl (fun v t => sha256Round w t v) v

/-- The compression of one block, of SHA-256 and of SHA-224 (R216). -/
def sha256Compress (h : List Word32) (blk : Bytes) : List Word32 :=
  addBack h (sha2List (sha256Rounds (expand256 blk) 64 (sha2Load h)))

end Sys2Proof.Machine
end

