-- ==== Sys2Proof/Machine/Sha512.lean ====
section
/-! DEFINITION. The SHA-384/512 compression engine (spec/44_sha512.md R240 to R248). -/

namespace Sys2Proof.Machine

/-- Σ0 (R240). -/
def bigSigma0L (x : Word64) : Word64 := rotr 28 x ^^^ rotr 34 x ^^^ rotr 39 x

/-- Σ1 (R240). -/
def bigSigma1L (x : Word64) : Word64 := rotr 14 x ^^^ rotr 18 x ^^^ rotr 41 x

/-- σ0 (R240). -/
def smallSigma0L (x : Word64) : Word64 := rotr 1 x ^^^ rotr 8 x ^^^ shr 7 x

/-- σ1 (R240). -/
def smallSigma1L (x : Word64) : Word64 := rotr 19 x ^^^ rotr 61 x ^^^ shr 6 x

/-- K512 (R241). -/
def k512 : List Word64 :=
  [0x428a2f98d728ae22#64, 0x7137449123ef65cd#64, 0xb5c0fbcfec4d3b2f#64, 0xe9b5dba58189dbbc#64] ++
  [0x3956c25bf348b538#64, 0x59f111f1b605d019#64, 0x923f82a4af194f9b#64, 0xab1c5ed5da6d8118#64] ++
  [0xd807aa98a3030242#64, 0x12835b0145706fbe#64, 0x243185be4ee4b28c#64, 0x550c7dc3d5ffb4e2#64] ++
  [0x72be5d74f27b896f#64, 0x80deb1fe3b1696b1#64, 0x9bdc06a725c71235#64, 0xc19bf174cf692694#64] ++
  [0xe49b69c19ef14ad2#64, 0xefbe4786384f25e3#64, 0x0fc19dc68b8cd5b5#64, 0x240ca1cc77ac9c65#64] ++
  [0x2de92c6f592b0275#64, 0x4a7484aa6ea6e483#64, 0x5cb0a9dcbd41fbd4#64, 0x76f988da831153b5#64] ++
  [0x983e5152ee66dfab#64, 0xa831c66d2db43210#64, 0xb00327c898fb213f#64, 0xbf597fc7beef0ee4#64] ++
  [0xc6e00bf33da88fc2#64, 0xd5a79147930aa725#64, 0x06ca6351e003826f#64, 0x142929670a0e6e70#64] ++
  [0x27b70a8546d22ffc#64, 0x2e1b21385c26c926#64, 0x4d2c6dfc5ac42aed#64, 0x53380d139d95b3df#64] ++
  [0x650a73548baf63de#64, 0x766a0abb3c77b2a8#64, 0x81c2c92e47edaee6#64, 0x92722c851482353b#64] ++
  [0xa2bfe8a14cf10364#64, 0xa81a664bbc423001#64, 0xc24b8b70d0f89791#64, 0xc76c51a30654be30#64] ++
  [0xd192e819d6ef5218#64, 0xd69906245565a910#64, 0xf40e35855771202a#64, 0x106aa07032bbd1b8#64] ++
  [0x19a4c116b8d2d0c8#64, 0x1e376c085141ab53#64, 0x2748774cdf8eeb99#64, 0x34b0bcb5e19b48a8#64] ++
  [0x391c0cb3c5c95a63#64, 0x4ed8aa4ae3418acb#64, 0x5b9cca4f7763e373#64, 0x682e6ff3d6b2b8a3#64] ++
  [0x748f82ee5defb2fc#64, 0x78a5636f43172f60#64, 0x84c87814a1f0ab72#64, 0x8cc702081a6439ec#64] ++
  [0x90befffa23631e28#64, 0xa4506cebde82bde9#64, 0xbef9a3f7b2c67915#64, 0xc67178f2e372532b#64] ++
  [0xca273eceea26619c#64, 0xd186b8c721c0c207#64, 0xeada7dd6cde0eb1e#64, 0xf57d4f7fee6ed178#64] ++
  [0x06f067aa72176fba#64, 0x0a637dc5a2c898a6#64, 0x113f9804bef90dae#64, 0x1b710b35131c471b#64] ++
  [0x28db77f523047d84#64, 0x32caab7b40c72493#64, 0x3c9ebe0a15c9bebc#64, 0x431d67c49c100d4c#64] ++
  [0x4cc5d4becb3e42b6#64, 0x597f299cfc657e2a#64, 0x5fcb6fab3ad6faec#64, 0x6c44198c4a475817#64]

/-- The SHA-512 initial state (R242). -/
def sha512Iv : List Word64 :=
  [0x6A09E667F3BCC908#64, 0xBB67AE8584CAA73B#64, 0x3C6EF372FE94F82B#64, 0xA54FF53A5F1D36F1#64,
   0x510E527FADE682D1#64, 0x9B05688C2B3E6C1F#64, 0x1F83D9ABFB41BD6B#64, 0x5BE0CD19137E2179#64]

/-- The SHA-384 initial state (R243). -/
def sha384Iv : List Word64 :=
  [0xCBBB9D5DC1059ED8#64, 0x629A292A367CD507#64, 0x9159015A3070DD17#64, 0x152FECD8F70E5939#64,
   0x67332667FFC00B31#64, 0x8EB44A8768581511#64, 0xDB0C2E0D64F98FA7#64, 0x47B5481DBEFA4FA4#64]

/-- The expander's next word W[t] from the words before it (R244). -/
def next512 (w : List Word64) (t : Nat) : Word64 :=
  smallSigma1L (w.getD (t - 2) 0) + w.getD (t - 7) 0 + smallSigma0L (w.getD (t - 15) 0) + w.getD (t - 16) 0

/-- expand512: the message schedule W[0..80) (R244). -/
def expand512 (blk : Bytes) : List Word64 :=
  (List.range' 16 64).foldl (fun w t => w ++ [next512 w t]) ((List.range 16).map (blockWord 64 .big blk))

/-- Round t (R245). -/
def sha512Round (w : List Word64) (t : Nat) (v : Sha2Vars 64) : Sha2Vars 64 :=
  let t1 := v.h + bigSigma1L v.e + chFn v.e v.f v.g + k512.getD t 0 + w.getD t 0
  let t2 := bigSigma0L v.a + majFn v.a v.b v.c
  { a := t1 + t2, b := v.a, c := v.b, d := v.c, e := v.d + t1, f := v.e, g := v.f, h := v.g }

/-- The rounds 0 to n − 1. -/
def sha512Rounds (w : List Word64) (n : Nat) (v : Sha2Vars 64) : Sha2Vars 64 :=
  (List.range n).foldl (fun v t => sha512Round w t v) v

/-- The compression of one block, of SHA-512 and of SHA-384 (R246). -/
def sha512Compress (h : List Word64) (blk : Bytes) : List Word64 :=
  addBack h (sha2List (sha512Rounds (expand512 blk) 80 (sha2Load h)))

end Sys2Proof.Machine
end

