-- ==== Sys2Proof/Machine/Hash.lean ====
section
/-! DEFINITION. The hash of a variant (spec/40_md_padding.md R129, spec/00_scope.md R6) and the HASH commands
(spec/41_md5.md R160, spec/42_sha1.md R190, spec/43_sha256.md R220 and R221, spec/44_sha512.md R250 and R251). -/

namespace Sys2Proof.Machine

/-- The row of R6 for a variant. -/
def hashParams : Alg → HashParams
  | .md5 => { blockBytes := 64, lengthBytes := 8, endian := .little, digestWords := 4 }
  | .sha1 => { blockBytes := 64, lengthBytes := 8, endian := .big, digestWords := 5 }
  | .sha224 => { blockBytes := 64, lengthBytes := 8, endian := .big, digestWords := 7 }
  | .sha256 => { blockBytes := 64, lengthBytes := 8, endian := .big, digestWords := 8 }
  | .sha384 => { blockBytes := 128, lengthBytes := 16, endian := .big, digestWords := 6 }
  | .sha512 => { blockBytes := 128, lengthBytes := 16, endian := .big, digestWords := 8 }

/-- The digest size in bytes (R6, R129, R270). -/
def digestBytes : Alg → Nat
  | .md5 => 16
  | .sha1 => 20
  | .sha224 => 28
  | .sha256 => 32
  | .sha384 => 48
  | .sha512 => 64

/-- hash(alg, m) (R129). SHA-224 and SHA-384 share the compression of SHA-256 and SHA-512 (R131, C5). -/
def hash (alg : Alg) (m : Bytes) : Bytes :=
  match alg with
  | .md5 => mdHash (hashParams .md5) md5Compress md5Iv m
  | .sha1 => mdHash (hashParams .sha1) sha1Compress sha1Iv m
  | .sha224 => mdHash (hashParams .sha224) sha256Compress sha224Iv m
  | .sha256 => mdHash (hashParams .sha256) sha256Compress sha256Iv m
  | .sha384 => mdHash (hashParams .sha384) sha512Compress sha384Iv m
  | .sha512 => mdHash (hashParams .sha512) sha512Compress sha512Iv m

/-- The template of the HASH commands: check DINLEN, hash DIN[0..DINLEN), finish (R402, R129, R107). -/
def hashCommand (alg : Alg) (s : State) : Host.Outcome State Fault Refusal :=
  complete (rangeError s) (hash alg (msgOf s)) s

/-- HASH.MD5 (R160). -/
def execHashMd5 (s : State) : Host.Outcome State Fault Refusal := hashCommand .md5 s

/-- HASH.SHA1 (R190). -/
def execHashSha1 (s : State) : Host.Outcome State Fault Refusal := hashCommand .sha1 s

/-- HASH.SHA224 (R220). -/
def execHashSha224 (s : State) : Host.Outcome State Fault Refusal := hashCommand .sha224 s

/-- HASH.SHA256 (R221). -/
def execHashSha256 (s : State) : Host.Outcome State Fault Refusal := hashCommand .sha256 s

/-- HASH.SHA384 (R250). -/
def execHashSha384 (s : State) : Host.Outcome State Fault Refusal := hashCommand .sha384 s

/-- HASH.SHA512 (R251). -/
def execHashSha512 (s : State) : Host.Outcome State Fault Refusal := hashCommand .sha512 s

end Sys2Proof.Machine
end

