-- ==== Sys2Proof/Machine/Hmac.lean ====
section
/-! DEFINITION. The HMAC pre/post-key-derivation engine and the HMAC commands (spec/45_hmac.md R270 to R285). -/

namespace Sys2Proof.Machine

/-- Bb of a variant, in bytes (R270). -/
def hmacBlock (alg : Alg) : Nat := (hashParams alg).blockBytes

/-- The key material before zero filling: the key itself up to Bb bytes, its digest beyond (R271). -/
def keyMaterial (alg : Alg) (key : Bytes) : Bytes := if key.length ≤ hmacBlock alg then key else hash alg key

/-- derive_k0 (R271). -/
def deriveK0 (alg : Alg) (key : Bytes) : Bytes :=
  keyMaterial alg key ++ zeros (hmacBlock alg - (keyMaterial alg key).length)

/-- The inner hash (R273). -/
def hmacInner (alg : Alg) (k0 message : Bytes) : Bytes := hash alg (xorBytes k0 (rep 0x36#8 (hmacBlock alg)) ++ message)

/-- The outer hash (R274). -/
def hmacOuter (alg : Alg) (k0 inner : Bytes) : Bytes := hash alg (xorBytes k0 (rep 0x5C#8 (hmacBlock alg)) ++ inner)

/-- hmac(alg, key, message) (R275). -/
def hmac (alg : Alg) (key message : Bytes) : Bytes :=
  hmacOuter alg (deriveK0 alg key) (hmacInner alg (deriveK0 alg key) message)

/-- The template of the HMAC commands (R280, R402, R107). -/
def hmacCommand (alg : Alg) (s : State) : Host.Outcome State Fault Refusal :=
  complete (hmacError s) (hmac alg (keyOf s) (msgOf s)) s

/-- HMAC.MD5 (R280). -/
def execHmacMd5 (s : State) : Host.Outcome State Fault Refusal := hmacCommand .md5 s

/-- HMAC.SHA1 (R281). -/
def execHmacSha1 (s : State) : Host.Outcome State Fault Refusal := hmacCommand .sha1 s

/-- HMAC.SHA224 (R282). -/
def execHmacSha224 (s : State) : Host.Outcome State Fault Refusal := hmacCommand .sha224 s

/-- HMAC.SHA256 (R283). -/
def execHmacSha256 (s : State) : Host.Outcome State Fault Refusal := hmacCommand .sha256 s

/-- HMAC.SHA384 (R284). -/
def execHmacSha384 (s : State) : Host.Outcome State Fault Refusal := hmacCommand .sha384 s

/-- HMAC.SHA512 (R285). -/
def execHmacSha512 (s : State) : Host.Outcome State Fault Refusal := hmacCommand .sha512 s

end Sys2Proof.Machine
end

