-- ==== Sys2Proof/Machine/Modes.lean ====
section
/-! DEFINITION. The chaining controller and the ENC and DEC commands (spec/47_modes.md R320 to R359). The modes take the
block function as an argument; the commands give them E_F or D_F of the configuration (spec/10_state.md R33). -/

namespace Sys2Proof.Machine

/-- The segments of the input: ⌈ℓ/Sb⌉ of them, each of Sb bytes but for the last, which may be shorter (R320). -/
def segments (sb : Nat) (x : Bytes) : List Bytes :=
  (List.range ((x.length + (sb - 1)) / sb)).map fun j => slice x (j * sb) ((j + 1) * sb)

/-- ECB over the segments, with the block function of the direction (R322). -/
def ecbSegs (blockFn : Bytes → Bytes) : List Bytes → Bytes
  | [] => []
  | seg :: rest => blockFn seg ++ ecbSegs blockFn rest

/-- CBC encryption over the segments; `fb` is the chaining register FB (R323). -/
def cbcEncSegs (enc : Bytes → Bytes) : Bytes → List Bytes → Bytes
  | _, [] => []
  | fb, seg :: rest =>
    let c := enc (xorBytes seg fb)
    c ++ cbcEncSegs enc c rest

/-- CBC decryption over the segments (R324): the chaining value is the input block. -/
def cbcDecSegs (dec : Bytes → Bytes) : Bytes → List Bytes → Bytes
  | _, [] => []
  | fb, seg :: rest => xorBytes (dec seg) fb ++ cbcDecSegs dec seg rest

/-- CFB encryption over the segments (R325, R321): the feedback is the output of a full segment. -/
def cfbEncSegs (enc : Bytes → Bytes) (sb : Nat) : Bytes → List Bytes → Bytes
  | _, [] => []
  | fb, seg :: rest =>
    let y := xorBytes seg (trunc (enc fb) seg.length)
    y ++ cfbEncSegs enc sb (if seg.length = sb then y else fb) rest

/-- CFB decryption over the segments (R326): E_F again, and the feedback is the input segment. -/
def cfbDecSegs (enc : Bytes → Bytes) (sb : Nat) : Bytes → List Bytes → Bytes
  | _, [] => []
  | fb, seg :: rest =>
    xorBytes seg (trunc (enc fb) seg.length) ++ cfbDecSegs enc sb (if seg.length = sb then seg else fb) rest

/-- OFB over the segments (R327): the feedback is the keystream block. -/
def ofbSegs (enc : Bytes → Bytes) : Bytes → List Bytes → Bytes
  | _, [] => []
  | fb, seg :: rest =>
    let o := enc fb
    xorBytes seg (trunc o seg.length) ++ ofbSegs enc o rest

/-- The counter block of segment j: (c0 + j) mod 2^(8·Sb), big-endian in Sb bytes (R328). -/
def counterBlock (sb : Nat) (iv : Bytes) (j : Nat) : Bytes := toBE sb ((ofBE iv + j) % 2 ^ (8 * sb))

/-- CTR over the segments from segment j on (R328). -/
def ctrSegs (enc : Bytes → Bytes) (sb : Nat) (iv : Bytes) : Nat → List Bytes → Bytes
  | _, [] => []
  | j, seg :: rest =>
    xorBytes seg (trunc (enc (counterBlock sb iv j)) seg.length) ++ ctrSegs enc sb iv (j + 1) rest

/-- A mode in a direction, over block functions `enc` and `dec` of block size `sb` (R322 to R328). -/
def runMode (enc dec : Bytes → Bytes) (sb : Nat) (d : Dir) (m : Mode) (iv x : Bytes) : Bytes :=
  match m, d with
  | .ecb, .enc => ecbSegs enc (segments sb x)
  | .ecb, .dec => ecbSegs dec (segments sb x)
  | .cbc, .enc => cbcEncSegs enc iv (segments sb x)
  | .cbc, .dec => cbcDecSegs dec iv (segments sb x)
  | .cfb, .enc => cfbEncSegs enc sb iv (segments sb x)
  | .cfb, .dec => cfbDecSegs enc sb iv (segments sb x)
  | .ofb, .enc => ofbSegs enc iv (segments sb x)
  | .ofb, .dec => ofbSegs enc iv (segments sb x)
  | .ctr, .enc => ctrSegs enc sb iv 0 (segments sb x)
  | .ctr, .dec => ctrSegs enc sb iv 0 (segments sb x)

/-- A mode over a cipher family and a key: E_F and D_F are the configuration's (R33). -/
def cipher (d : Dir) (m : Mode) (f : Family) (key iv x : Bytes) : Bytes :=
  runMode (Config.encrypt f key) (Config.decrypt f key) (Config.blockBytes f) d m iv x

/-- The template of the ENC and DEC commands (R331, R402, R107). -/
def cipherCommand (d : Dir) (m : Mode) (f : Family) (s : State) : Host.Outcome State Fault Refusal :=
  complete (cipherError m f s) (cipher d m f (keyOf s) (ivOf s) (msgOf s)) s

/-- ENC.ECB.C128 (R340). -/
def execEncEcbC128 (s : State) : Host.Outcome State Fault Refusal := cipherCommand .enc .ecb .c128 s

/-- ENC.ECB.C64 (R341). -/
def execEncEcbC64 (s : State) : Host.Outcome State Fault Refusal := cipherCommand .enc .ecb .c64 s

/-- DEC.ECB.C128 (R342). -/
def execDecEcbC128 (s : State) : Host.Outcome State Fault Refusal := cipherCommand .dec .ecb .c128 s

/-- DEC.ECB.C64 (R343). -/
def execDecEcbC64 (s : State) : Host.Outcome State Fault Refusal := cipherCommand .dec .ecb .c64 s

/-- ENC.CBC.C128 (R344). -/
def execEncCbcC128 (s : State) : Host.Outcome State Fault Refusal := cipherCommand .enc .cbc .c128 s

/-- ENC.CBC.C64 (R345). -/
def execEncCbcC64 (s : State) : Host.Outcome State Fault Refusal := cipherCommand .enc .cbc .c64 s

/-- DEC.CBC.C128 (R346). -/
def execDecCbcC128 (s : State) : Host.Outcome State Fault Refusal := cipherCommand .dec .cbc .c128 s

/-- DEC.CBC.C64 (R347). -/
def execDecCbcC64 (s : State) : Host.Outcome State Fault Refusal := cipherCommand .dec .cbc .c64 s

/-- ENC.CFB.C128 (R348). -/
def execEncCfbC128 (s : State) : Host.Outcome State Fault Refusal := cipherCommand .enc .cfb .c128 s

/-- ENC.CFB.C64 (R349). -/
def execEncCfbC64 (s : State) : Host.Outcome State Fault Refusal := cipherCommand .enc .cfb .c64 s

/-- DEC.CFB.C128 (R350). -/
def execDecCfbC128 (s : State) : Host.Outcome State Fault Refusal := cipherCommand .dec .cfb .c128 s

/-- DEC.CFB.C64 (R351). -/
def execDecCfbC64 (s : State) : Host.Outcome State Fault Refusal := cipherCommand .dec .cfb .c64 s

/-- ENC.OFB.C128 (R352). -/
def execEncOfbC128 (s : State) : Host.Outcome State Fault Refusal := cipherCommand .enc .ofb .c128 s

/-- ENC.OFB.C64 (R353). -/
def execEncOfbC64 (s : State) : Host.Outcome State Fault Refusal := cipherCommand .enc .ofb .c64 s

/-- DEC.OFB.C128 (R354). -/
def execDecOfbC128 (s : State) : Host.Outcome State Fault Refusal := cipherCommand .dec .ofb .c128 s

/-- DEC.OFB.C64 (R355). -/
def execDecOfbC64 (s : State) : Host.Outcome State Fault Refusal := cipherCommand .dec .ofb .c64 s

/-- ENC.CTR.C128 (R356). -/
def execEncCtrC128 (s : State) : Host.Outcome State Fault Refusal := cipherCommand .enc .ctr .c128 s

/-- ENC.CTR.C64 (R357). -/
def execEncCtrC64 (s : State) : Host.Outcome State Fault Refusal := cipherCommand .enc .ctr .c64 s

/-- DEC.CTR.C128 (R358). -/
def execDecCtrC128 (s : State) : Host.Outcome State Fault Refusal := cipherCommand .dec .ctr .c128 s

/-- DEC.CTR.C64 (R359). -/
def execDecCtrC64 (s : State) : Host.Outcome State Fault Refusal := cipherCommand .dec .ctr .c64 s

end Sys2Proof.Machine
end

