-- ==== Sys2Proof/Machine/Pkcs7.lean ====
section
/-! DEFINITION. The PKCS#7 padding automaton: PAD and UNPAD (spec/46_pkcs7.md R300 to R305). -/

namespace Sys2Proof.Machine

/-- p = n − (len mod n), 1 ≤ p ≤ n (R300). -/
def padLength (len n : Nat) : Nat := n - len % n

/-- pkcs7_pad(b, n) (R300). -/
def pkcs7Pad (b : Bytes) (n : Nat) : Bytes := b ++ rep (BitVec.ofNat 8 (padLength b.length n)) (padLength b.length n)

/-- The final byte n of a padded input, as a number; 0 where the input is empty (R302, R304). -/
def finalByte (b : Bytes) : Nat := (b.getD (b.length - 1) 0).toNat

/-- consistent(b) (R304): ℓ ≥ 1, 1 ≤ n ≤ ℓ, and b[k] = n for every k in [ℓ − n, ℓ). -/
def consistent (b : Bytes) : Bool :=
  decide (1 ≤ b.length) && decide (1 ≤ finalByte b) && decide (finalByte b ≤ b.length) &&
    (b.drop (b.length - finalByte b)).all fun v => v.toNat == finalByte b

/-- b[0 .. ℓ − n) (R302). -/
def unpadded (b : Bytes) : Bytes := b.take (b.length - finalByte b)

/-- PAD n (R301). -/
def execPadN (n : Byte) (s : State) : Host.Outcome State Fault Refusal :=
  complete (rangeError s) (pkcs7Pad (msgOf s) (blockSizeOf n)) s

/-- UNPAD (R302). An inconsistent input completes with the unspecified outcome of R303: no error, and free values for
DOUTLEN and every byte of DOUT (log entry 3). -/
def execUnpad (s : State) : Host.Outcome State Fault Refusal :=
  match rangeError s with
  | some c => .next (raiseError c s)
  | none => if consistent (msgOf s) then .next (finish (unpadded (msgOf s)) s) else .next (finishUnspecified s)

end Sys2Proof.Machine
end

