-- ==== Sys2Proof/Machine/Dispatch.lean ====
section
/-! DEFINITION. What a decoded command does: R106(b)'s case over the commands, one arm per constructor. -/

namespace Sys2Proof.Machine

def exec (i : Instr) (s : State) : Host.Outcome State Fault Refusal :=
  match i with
  | .hashMd5 => Sys2Proof.Machine.execHashMd5 s
  | .hashSha1 => Sys2Proof.Machine.execHashSha1 s
  | .hashSha224 => Sys2Proof.Machine.execHashSha224 s
  | .hashSha256 => Sys2Proof.Machine.execHashSha256 s
  | .hashSha384 => Sys2Proof.Machine.execHashSha384 s
  | .hashSha512 => Sys2Proof.Machine.execHashSha512 s
  | .hmacMd5 => Sys2Proof.Machine.execHmacMd5 s
  | .hmacSha1 => Sys2Proof.Machine.execHmacSha1 s
  | .hmacSha224 => Sys2Proof.Machine.execHmacSha224 s
  | .hmacSha256 => Sys2Proof.Machine.execHmacSha256 s
  | .hmacSha384 => Sys2Proof.Machine.execHmacSha384 s
  | .hmacSha512 => Sys2Proof.Machine.execHmacSha512 s
  | .encEcbC128 => Sys2Proof.Machine.execEncEcbC128 s
  | .encEcbC64 => Sys2Proof.Machine.execEncEcbC64 s
  | .decEcbC128 => Sys2Proof.Machine.execDecEcbC128 s
  | .decEcbC64 => Sys2Proof.Machine.execDecEcbC64 s
  | .encCbcC128 => Sys2Proof.Machine.execEncCbcC128 s
  | .encCbcC64 => Sys2Proof.Machine.execEncCbcC64 s
  | .decCbcC128 => Sys2Proof.Machine.execDecCbcC128 s
  | .decCbcC64 => Sys2Proof.Machine.execDecCbcC64 s
  | .encCfbC128 => Sys2Proof.Machine.execEncCfbC128 s
  | .encCfbC64 => Sys2Proof.Machine.execEncCfbC64 s
  | .decCfbC128 => Sys2Proof.Machine.execDecCfbC128 s
  | .decCfbC64 => Sys2Proof.Machine.execDecCfbC64 s
  | .encOfbC128 => Sys2Proof.Machine.execEncOfbC128 s
  | .encOfbC64 => Sys2Proof.Machine.execEncOfbC64 s
  | .decOfbC128 => Sys2Proof.Machine.execDecOfbC128 s
  | .decOfbC64 => Sys2Proof.Machine.execDecOfbC64 s
  | .encCtrC128 => Sys2Proof.Machine.execEncCtrC128 s
  | .encCtrC64 => Sys2Proof.Machine.execEncCtrC64 s
  | .decCtrC128 => Sys2Proof.Machine.execDecCtrC128 s
  | .decCtrC64 => Sys2Proof.Machine.execDecCtrC64 s
  | .padN n => Sys2Proof.Machine.execPadN n s
  | .unpad => Sys2Proof.Machine.execUnpad s

end Sys2Proof.Machine
end

