-- ==== Sys2Proof/Machine/HostBus.lean ====
section
/-! DEFINITION. The host's side: its accesses to the window (spec/20_memory.md R61 to R69, spec/10_state.md R21 to R29,
spec/60_exceptions.md R410 to R412, spec/70_reset_and_hazards.md R460 and R461), its programs (spec/30_encoding.md R104),
and whose turn it is (R455, R462). -/

namespace Sys2Proof.Machine

/-! ## The window -/

/-- The window offset of a platform address, if the address is the engine's (R61, R412). -/
def windowOffset (p : Config.Params) (address : Nat) : Except HostReject Nat :=
  if p.base ≤ address ∧ address - p.base < Config.windowBytes then .ok (address - p.base)
  else .error (.outsideWindow address)

/-- The buffer, and the index in it, that a window offset reaches; none in the register block and the reserved regions
(R61). -/
def locate (p : Config.Params) (off : Nat) : Option (Space × Nat) :=
  if 0x100 ≤ off ∧ off < 0x100 + Config.keyCap then some (.keymem, off - 0x100)
  else if 0x200 ≤ off ∧ off < 0x200 + Config.ivCap then some (.ivmem, off - 0x200)
  else if 0x01000000 ≤ off ∧ off < 0x01000000 + p.inCap then some (.din, off - 0x01000000)
  else if 0x02000000 ≤ off ∧ off < 0x02000000 + p.outCap then some (.dout, off - 0x02000000)
  else none

/-- An 8-bit access is accepted outside the register block (R63, R64). -/
def accept8 (off : Nat) : Except HostReject Unit :=
  if off < Config.registerBytes then .error (.busError (.byteAccessToRegister off)) else .ok ()

/-- A 32-bit access is accepted at a multiple of 4 (R63, R64). -/
def accept32 (off : Nat) : Except HostReject Unit :=
  if off % 4 ≠ 0 then .error (.busError (.misalignedWord off)) else .ok ()

/-- Byte lane k of a 32-bit access, k = 0 … 3: bits [8k+7 : 8k] (R65). -/
def lane (v : Word32) (k : Nat) : Byte := v.extractLsb' (8 * k) 8

/-- The 32-bit value of four lanes, lane 0 first (R65). -/
def ofLanes (b0 b1 b2 b3 : Byte) : Word32 := b3 ++ b2 ++ b1 ++ b0

/-! ## Reads

A read changes nothing but the model's count of draws, which advances while busy: results read then are free values, new
ones at every read (R461). -/

/-- The state after an accepted read. -/
def afterRead (s : State) : State := if busy s then nextDraw s else s

/-- The value a 32-bit read of a register returns (R21 to R28, R461). -/
def readRegister (s : State) (off : Nat) : Word32 :=
  if off = 0x000 then s.cmd
  else if off = 0x004 then s.status
  else if off = 0x008 then s.keylen
  else if off = 0x00C then s.ivlen
  else if off = 0x010 then s.dinlen
  else if off = 0x014 then (if busy s then Config.freeWord s.draws else s.doutlen)
  else 0

/-- The byte a read returns at an offset of the buffer and reserved regions (R61, R66, R461). -/
def readWindowByte (s : State) (off : Nat) : Byte :=
  match locate s.params off with
  | some (.dout, k) => if busy s then Config.freeByte s.draws .dout k else bufByte s .dout k
  | some (sp, k) => bufByte s sp k
  | none => 0

/-- An 8-bit host read at a window offset: the byte, and the state after (R64). -/
def hostRead8 (off : Nat) (s : State) : Except HostReject (Byte × State) :=
  match accept8 off with
  | .error e => .error e
  | .ok () => .ok (readWindowByte s off, afterRead s)

/-- A 32-bit host read at a window offset (R63 to R65). -/
def hostRead32 (off : Nat) (s : State) : Except HostReject (Word32 × State) :=
  match accept32 off with
  | .error e => .error e
  | .ok () =>
    if off < Config.registerBytes then .ok (readRegister s off, afterRead s)
    else .ok (ofLanes (readWindowByte s off) (readWindowByte s (off + 1)) (readWindowByte s (off + 2))
      (readWindowByte s (off + 3)), afterRead s)

/-! ## Writes -/

/-- An accepted 32-bit write to the register block while idle: CMD issues a command (R106(a)), the length registers are
stored as written (R24 to R26), STATUS, DOUTLEN and the reserved offsets ignore it (R66). -/
def writeRegister (s : State) (off : Nat) (v : Word32) : State :=
  if off = 0x000 then issue v s
  else if off = 0x008 then { s with keylen := v }
  else if off = 0x00C then { s with ivlen := v }
  else if off = 0x010 then { s with dinlen := v }
  else s

/-- An accepted write of one byte in the buffer and reserved regions while idle: DOUT and the reserved offsets ignore it
(R61, R66). -/
def writeWindowByte (s : State) (off : Nat) (v : Byte) : State :=
  match locate s.params off with
  | some (.dout, _) => s
  | some (sp, k) => writeByte s sp k v
  | none => s

/-- An 8-bit host write at a window offset; dropped while busy (R64, R460). -/
def hostWrite8 (off : Nat) (v : Byte) (s : State) : Except HostReject State :=
  match accept8 off with
  | .error e => .error e
  | .ok () => .ok (if busy s then s else writeWindowByte s off v)

/-- A 32-bit host write at a window offset; dropped while busy (R63 to R65, R460). -/
def hostWrite32 (off : Nat) (v : Word32) (s : State) : Except HostReject State :=
  match accept32 off with
  | .error e => .error e
  | .ok () =>
    .ok (if busy s then s
      else if off < Config.registerBytes then writeRegister s off v
      else writeWindowByte (writeWindowByte (writeWindowByte (writeWindowByte s off (lane v 0)) (off + 1) (lane v 1))
        (off + 2) (lane v 2)) (off + 3) (lane v 3))

/-! ## Host programs -/

/-- The value of a host variable; a free value until the program assigns it (log entry 7). -/
def varValue (i : Nat) (h : HostAgent) (x : Nat) : Word32 := (cellGet? h.vars x).getD (Config.freeVar i x)

/-- The value of a write's operand (R104). -/
def hostValue (i : Nat) (h : HostAgent) : HostVal → Word32
  | .lit v => v
  | .var x => varValue i h x

/-- A host after a statement that falls through to the next. -/
def hostAdvance (h : HostAgent) : HostAgent := { h with pc := h.pc + 1 }

/-- A host after a read into variable `x`. -/
def hostAssign (h : HostAgent) (x : Nat) (v : Word32) : HostAgent := { h with pc := h.pc + 1, vars := cellSet h.vars x v }

/-- Put a host back. -/
def setHost (s : State) (i : Nat) (h : HostAgent) : State := { s with hosts := s.hosts.set i h }

/-- A host access that the engine does not accept (R410, U6): the first one is recorded and stays recorded, the host takes no
further step, and no register or buffer changes (log entry 6). -/
def stopHost (i : Nat) (h : HostAgent) (s : State) (e : BusError) : State :=
  { setHost s i { h with run := .faulted } with hostFault := s.hostFault.or (some e) }

/-- A host write: the state after it, the host having gone on to its next statement. Outside the window the write has no
engine effect (R412), and the host goes on (DESIGN CHOICE, log entry 5). -/
def afterWrite (i : Nat) (h : HostAgent) (s : State) : Except HostReject State → Host.Outcome State Fault Refusal
  | .ok t => .next (setHost t i (hostAdvance h))
  | .error (.busError e) => .next (stopHost i h s e)
  | .error (.outsideWindow _) => .next (setHost s i (hostAdvance h))

/-- A host read into variable `x` of a value of w ≤ 32 bits, zero-extended (log entry 13). Outside the window the read has no
engine effect (R412), and the host goes on with a free value of w bits (DESIGN CHOICE, log entry 5). -/
def afterReadInto {w : Nat} (i : Nat) (h : HostAgent) (x : Nat) (s : State) :
    Except HostReject (BitVec w × State) → Host.Outcome State Fault Refusal
  | .ok (v, t) => .next (setHost t i (hostAssign h x (v.setWidth 32)))
  | .error (.busError e) => .next (stopHost i h s e)
  | .error (.outsideWindow _) =>
    .next (setHost (nextDraw s) i (hostAssign h x (((Config.freeWord s.draws).setWidth w).setWidth 32)))

/-- One statement of host `i` (R104), as one host step. R455 makes a host step of one host access; that `BIT1` and `HALT`,
which access nothing, are each a host step of their own, and so lower the count of host steps before a pending engine step,
is the model's (DESIGN CHOICE, log entry 21). An 8-bit write takes the low 8 bits of its operand (log entry 13). -/
def runStmt (i : Nat) (h : HostAgent) (stmt : HostStmt) (s : State) : Host.Outcome State Fault Refusal :=
  match stmt with
  | .w32 off v => afterWrite i h s ((windowOffset s.params (s.params.base + off)).bind fun o => hostWrite32 o (hostValue i h v) s)
  | .w8 off v =>
    afterWrite i h s ((windowOffset s.params (s.params.base + off)).bind fun o => hostWrite8 o ((hostValue i h v).setWidth 8) s)
  | .r32 off x => afterReadInto i h x s ((windowOffset s.params (s.params.base + off)).bind fun o => hostRead32 o s)
  | .r8 off x => afterReadInto i h x s ((windowOffset s.params (s.params.base + off)).bind fun o => hostRead8 o s)
  | .bit1 x b label => .next (setHost s i { h with pc := if (varValue i h x).getLsbD b then label else h.pc + 1 })
  | .halt => .next (setHost s i { h with run := .halted })

/-- The host step of host `i` (R455): its next statement, an access or not (log entry 21). -/
def hostStep (i : Nat) (s : State) : Host.Outcome State Fault Refusal :=
  match s.hosts[i]? with
  | none => .next s
  | some h =>
    match h.program[h.pc]? with
    | none => .next s
    | some stmt => runStmt i h stmt s

/-! ## Whose turn it is -/

/-- A host that has a statement to run. -/
def hostReady (h : HostAgent) : Bool := h.run == .running && decide (h.pc < h.program.length)

/-- The hosts that have a statement to run. -/
def readyHosts (s : State) : List Nat := (List.range s.hosts.length).filter fun i => (s.hosts[i]?).any hostReady

/-- The host that moves next, among those that have a statement to run: with several, a choice (R424, log entry 4). -/
def pickHost (s : State) : Option (Nat × State) :=
  match readyHosts s with
  | [] => none
  | [i] => some (i, s)
  | i :: j :: rest => some ((i :: j :: rest).getD ((choose s).1 % (rest.length + 2)) i, (choose s).2)

/-- The agent that moves from a state whose reset input is deasserted (R455, R462): the engine, once as many host steps
have passed since issue as the choice at issue said, or no host has a step to take; otherwise a host. -/
def nextAgent (s : State) : Turn :=
  match s.inflight, pickHost s with
  | none, none => .idle s
  | none, some (i, t) => .host i t
  | some f, none => .engine f.word s
  | some f, some (i, t) =>
    match f.wait with
    | 0 => .engine f.word s
    | n + 1 => .host i { t with inflight := some { f with wait := n } }

/-- The reset input moves on to its level at the step after this one (R450). -/
def nextInput (s : State) : State := { s with resetInput := s.resetInput.tail }

/-- Whose turn it is. The reset input goes first: while it is asserted no agent moves (R450). -/
def nextTurn (s : State) : Turn :=
  if s.resetInput.head? = some true then .reset (nextInput s) else nextAgent (nextInput s)

end Sys2Proof.Machine
end

