-- ==== Sys2Proof/Machine/Step.lean ====
section
/-! DEFINITION. One step of the machine (spec/70_reset_and_hazards.md R455, spec/30_encoding.md R106(b)). -/

namespace Sys2Proof.Machine

/-- The engine step for command word `word` (R106(b)): decode, and execute or refuse with decode's code (R100, R403). -/
def engineStep (word : Word32) (s : State) : Host.Outcome State Fault Refusal :=
  match decode word with
  | .ok i => exec i s
  | .error c => .next (raiseError c s)

/-- One step: the reset event, the engine step, a host step, or, where no agent has a step to take, nothing (R426, R450,
R455). -/
def step (s : State) : Host.Outcome State Fault Refusal :=
  match nextTurn s with
  | .reset t => .next (resetEvent t)
  | .engine word t => engineStep word t
  | .host i t => hostStep i t
  | .idle t => .next t

/-- `s` with the command of a table row issued, so that the very next step is its engine step: CMD, STATUS and the in-flight
marker as R106(a) leaves them, no host step to pass first, and the reset input deasserted (log entry 9). -/
def State.withFetchWord (s : State) (nbits w : Nat) : State :=
  { s with
    cmd := BitVec.ofNat 32 (w % 2 ^ nbits)
    status := statusIssued
    inflight := some { word := BitVec.ofNat 32 (w % 2 ^ nbits), wait := 0 }
    resetInput := [] }

end Sys2Proof.Machine
end

