-- ==== Sys2Proof/Safety.lean ====
section
/-! DEFINITION. The terms statements are made in: the invariant of the machine's states, launch and final states, safe
runs, and what it means that one state is another after a command has completed. -/

namespace Sys2Proof.Machine

/-! ## The invariant -/

/-- Every buffer is in canonical form and inside its capacity (R29, R60). -/
def buffersWf (s : State) : Bool :=
  Memory.wf (s.params.cap .keymem) s.keymem && Memory.wf (s.params.cap .ivmem) s.ivmem &&
    Memory.wf (s.params.cap .din) s.din && Memory.wf (s.params.cap .dout) s.dout

/-- BUSY = 1 exactly while a command is in flight (R34, R106, R455), and the command in flight is the one CMD holds
(R22, R76, R457). -/
def flightAgrees (s : State) : Bool :=
  match s.inflight with
  | none => !busy s
  | some f => busy s && f.word == s.cmd

/-- DOUTLEN stays within DOUT (R107, R303), and is 0 after an error (R27, R403). -/
def lengthAgrees (s : State) : Bool :=
  decide (s.doutlen.toNat ≤ s.params.outCap) && (statusErr s.status == 0 || s.doutlen == 0)

/-- A host stopped by a bus error has left the host fault record set (R410, U6), and every host's variables are a table
with rising keys. -/
def hostsAgree (s : State) : Bool :=
  s.hosts.all fun h => (h.run != .faulted || s.hostFault.isSome) && cellsRising 0 h.vars

/-- Every draw in use is older than the next one, so the next draw is a fresh one. -/
def drawsFresh (s : State) : Bool := decide (s.inputDraw < s.draws) && decide (s.doutDraw < s.draws)

/-- The invariant: every run from reset keeps it, and so does every step from any state that has it. -/
def State.inv (s : State) : Bool :=
  s.params.legal && buffersWf s && legalStatus s.status && flightAgrees s && lengthAgrees s && hostsAgree s && drawsFresh s

/-! ## Runs -/

/-- The launch premise of R454: idle, nothing in flight, no host fault recorded. -/
def launch (s : State) : Bool := !busy s && s.inflight.isNone && s.hostFault.isNone

/-- A safe state: no host fault recorded (R410). A state with a host fault is never final (U6). -/
def safe (s : State) : Bool := s.hostFault.isNone

/-- A final state of a run: safe, nothing in flight, and every host has halted. -/
def final (s : State) : Bool := safe s && s.inflight.isNone && s.hosts.all fun h => h.run == .halted

/-! ## Completion -/

/-- What no command changes: the parameters, CMD, the length registers, the input buffers with their open bytes, the
hosts and their record, and the inputs from outside (R29, R330, R401, R403, R455). -/
structure SameInputs (s t : State) : Prop where
  params : t.params = s.params
  cmd : t.cmd = s.cmd
  keylen : t.keylen = s.keylen
  ivlen : t.ivlen = s.ivlen
  dinlen : t.dinlen = s.dinlen
  bytes : ∀ sp k, sp ≠ .dout → bufByte t sp k = bufByte s sp k
  keymem : t.keymem = s.keymem
  ivmem : t.ivmem = s.ivmem
  din : t.din = s.din
  inputDraw : t.inputDraw = s.inputDraw
  hosts : t.hosts = s.hosts
  hostFault : t.hostFault = s.hostFault
  resetInput : t.resetInput = s.resetInput
  schedule : t.schedule = s.schedule

/-- `t` is `s` after its command completed with success and output `out` (R107): STATUS = 0x0000_0002, DOUTLEN the length of
`out`, DOUT[0..DOUTLEN) = `out`, nothing in flight, and the inputs as before. -/
structure Completed (out : Bytes) (s t : State) : Prop where
  status : t.status = 0x00000002#32
  doutlen : t.doutlen.toNat = out.length
  output : memRead t .dout 0 out.length = out
  idle : t.inflight = none
  inputs : SameInputs s t

/-- `t` is `s` after its command was refused with `c` (R403): STATUS = 0x0000_0002 | (code << 4), DOUTLEN = 0, every byte of
DOUT as before, nothing in flight, and the inputs as before. -/
structure Refused (c : ErrCode) (s t : State) : Prop where
  status : t.status = 0x00000002#32 ||| (BitVec.ofNat 32 (errNumber c) <<< 4)
  doutlen : t.doutlen = 0#32
  output : ∀ k, bufByte t .dout k = bufByte s .dout k
  idle : t.inflight = none
  inputs : SameInputs s t

/-- `t` is `s` after UNPAD of an inconsistent input (R303): success in STATUS, DOUTLEN a free value in [0, OUT_CAP], every byte
of DOUT a free value, nothing in flight, and the inputs as before. -/
structure Unspecified (s t : State) : Prop where
  status : t.status = 0x00000002#32
  doutlen : t.doutlen = BitVec.ofNat 32 (Config.freeLength s.draws % (s.params.outCap + 1))
  output : ∀ k, bufByte t .dout k = Config.freeByte s.draws .dout k
  idle : t.inflight = none
  inputs : SameInputs s t

/-- No register, buffer, in-flight marker or draw differs: what a host access that takes no effect leaves (R410, R460). -/
structure SameEngine (s t : State) : Prop where
  params : t.params = s.params
  cmd : t.cmd = s.cmd
  status : t.status = s.status
  keylen : t.keylen = s.keylen
  ivlen : t.ivlen = s.ivlen
  dinlen : t.dinlen = s.dinlen
  doutlen : t.doutlen = s.doutlen
  bytes : ∀ sp k, bufByte t sp k = bufByte s sp k
  keymem : t.keymem = s.keymem
  ivmem : t.ivmem = s.ivmem
  din : t.din = s.din
  dout : t.dout = s.dout
  inflight : t.inflight = s.inflight

/-- The snapshot of R457 agrees: the length registers, IN_CAP and the contents of KEYMEM, IVMEM and DIN. -/
structure SameSnapshot (s t : State) : Prop where
  inCap : t.params.inCap = s.params.inCap
  keylen : t.keylen = s.keylen
  ivlen : t.ivlen = s.ivlen
  dinlen : t.dinlen = s.dinlen
  bytes : ∀ sp k, sp ≠ .dout → bufByte t sp k = bufByte s sp k

/-! ## The command map of R99 -/

/-- The 33 fixed words of R99, as its table writes them, with their commands. -/
def fixedCommandMap : List (Word32 × Instr) :=
  [(0x00000001#32, .hashMd5), (0x00000011#32, .hashSha1), (0x00000021#32, .hashSha224), (0x00000031#32, .hashSha256),
   (0x00000041#32, .hashSha384), (0x00000051#32, .hashSha512)] ++
  [(0x00000002#32, .hmacMd5), (0x00000012#32, .hmacSha1), (0x00000022#32, .hmacSha224), (0x00000032#32, .hmacSha256),
   (0x00000042#32, .hmacSha384), (0x00000052#32, .hmacSha512)] ++
  [(0x00000003#32, .encEcbC128), (0x00000803#32, .encEcbC64), (0x00000004#32, .decEcbC128), (0x00000804#32, .decEcbC64)] ++
  [(0x00000103#32, .encCbcC128), (0x00000903#32, .encCbcC64), (0x00000104#32, .decCbcC128), (0x00000904#32, .decCbcC64)] ++
  [(0x00000203#32, .encCfbC128), (0x00000A03#32, .encCfbC64), (0x00000204#32, .decCfbC128), (0x00000A04#32, .decCfbC64)] ++
  [(0x00000303#32, .encOfbC128), (0x00000B03#32, .encOfbC64), (0x00000304#32, .decOfbC128), (0x00000B04#32, .decOfbC64)] ++
  [(0x00000403#32, .encCtrC128), (0x00000C03#32, .encCtrC64), (0x00000404#32, .decCtrC128), (0x00000C04#32, .decCtrC64)] ++
  [(0x00000006#32, .unpad)]

/-- The word of `PAD n`, 0x00nn_0005 (R99). -/
def padWord (n : Byte) : Word32 := 0x00000005#32 ||| (n.setWidth 32 <<< 16)

/-- The selectors of a command, as decode returns them in R100. -/
inductive CmdClass where
  | hash (a : Alg)
  | hmac (a : Alg)
  | cipher (d : Dir) (m : Mode) (f : Family)
  | pad (n : Byte)
  | unpad
deriving DecidableEq, Repr

/-- The selectors of each command (R99). -/
def commandClass : Instr → CmdClass
  | .hashMd5 => .hash .md5
  | .hashSha1 => .hash .sha1
  | .hashSha224 => .hash .sha224
  | .hashSha256 => .hash .sha256
  | .hashSha384 => .hash .sha384
  | .hashSha512 => .hash .sha512
  | .hmacMd5 => .hmac .md5
  | .hmacSha1 => .hmac .sha1
  | .hmacSha224 => .hmac .sha224
  | .hmacSha256 => .hmac .sha256
  | .hmacSha384 => .hmac .sha384
  | .hmacSha512 => .hmac .sha512
  | .encEcbC128 => .cipher .enc .ecb .c128
  | .encEcbC64 => .cipher .enc .ecb .c64
  | .decEcbC128 => .cipher .dec .ecb .c128
  | .decEcbC64 => .cipher .dec .ecb .c64
  | .encCbcC128 => .cipher .enc .cbc .c128
  | .encCbcC64 => .cipher .enc .cbc .c64
  | .decCbcC128 => .cipher .dec .cbc .c128
  | .decCbcC64 => .cipher .dec .cbc .c64
  | .encCfbC128 => .cipher .enc .cfb .c128
  | .encCfbC64 => .cipher .enc .cfb .c64
  | .decCfbC128 => .cipher .dec .cfb .c128
  | .decCfbC64 => .cipher .dec .cfb .c64
  | .encOfbC128 => .cipher .enc .ofb .c128
  | .encOfbC64 => .cipher .enc .ofb .c64
  | .decOfbC128 => .cipher .dec .ofb .c128
  | .decOfbC64 => .cipher .dec .ofb .c64
  | .encCtrC128 => .cipher .enc .ctr .c128
  | .encCtrC64 => .cipher .enc .ctr .c64
  | .decCtrC128 => .cipher .dec .ctr .c128
  | .decCtrC64 => .cipher .dec .ctr .c64
  | .padN n => .pad n
  | .unpad => .unpad

/-- The output each command has where its checks pass and, for UNPAD, its input is consistent (R129, R275, R320 to R328, R300,
R302), of the operands of R14. -/
def commandOutput (c : CmdClass) (s : State) : Bytes :=
  match c with
  | .hash a => hash a (msgOf s)
  | .hmac a => hmac a (keyOf s) (msgOf s)
  | .cipher d m f => cipher d m f (keyOf s) (ivOf s) (msgOf s)
  | .pad n => pkcs7Pad (msgOf s) n.toNat
  | .unpad => unpadded (msgOf s)

/-- `validate(d)` of R402 as it is written there: the first failing condition, if any. -/
def firstFailing (c : CmdClass) (s : State) : Option ErrCode :=
  if s.dinlen.toNat > s.params.inCap then some .lengthRange else
  match c with
  | .hmac _ => if s.keylen.toNat > 256 then some .lengthRange else none
  | .cipher _ m f =>
    let sb := if f = .c128 then 16 else 8
    if f = .c128 ∧ s.keylen.toNat ≠ 16 ∧ s.keylen.toNat ≠ 24 ∧ s.keylen.toNat ≠ 32 then some .invalidKeySize
    else if f = .c64 ∧ s.keylen.toNat ≠ 8 then some .invalidKeySize
    else if m ≠ .ecb ∧ s.ivlen.toNat ≠ sb then some .invalidIvSize
    else if (m = .ecb ∨ m = .cbc) ∧ (s.dinlen.toNat = 0 ∨ s.dinlen.toNat % sb ≠ 0) then some .invalidBlockAlignment
    else none
  | .hash _ | .pad _ | .unpad => none

/-! ## The equations of the modes

Each says what every segment of the output is; `segAt sb x j` is seg_j of R320, the last one shorter where `x` ends. With the
length, an equation fixes the whole output. -/

/-- seg_j = x[j·Sb .. min((j+1)·Sb, ℓ)) (R320). -/
def segAt (sb : Nat) (x : Bytes) (j : Nat) : Bytes := slice x (j * sb) ((j + 1) * sb)

/-- The output has the input's length, and `eq j` holds for each of its segments. -/
def Segmentwise (sb : Nat) (x out : Bytes) (eq : Nat → Prop) : Prop :=
  out.length = x.length ∧ ∀ j, j * sb < x.length → eq j

/-- R322: each block by itself. -/
def IsEcb (blockFn : Bytes → Bytes) (sb : Nat) (x out : Bytes) : Prop :=
  Segmentwise sb x out fun j => segAt sb out j = blockFn (segAt sb x j)

/-- R323: C_j = E(P_j ⊕ C_{j−1}), the first with the IV. -/
def IsCbcEnc (enc : Bytes → Bytes) (sb : Nat) (iv x out : Bytes) : Prop :=
  Segmentwise sb x out fun j =>
    segAt sb out j = enc (xorBytes (segAt sb x j) (if j = 0 then iv else segAt sb out (j - 1)))

/-- R324: P_j = D(C_j) ⊕ C_{j−1}, the first with the IV. -/
def IsCbcDec (dec : Bytes → Bytes) (sb : Nat) (iv x out : Bytes) : Prop :=
  Segmentwise sb x out fun j =>
    segAt sb out j = xorBytes (dec (segAt sb x j)) (if j = 0 then iv else segAt sb x (j - 1))

/-- R325: the keystream of segment j is E of the output segment before it, the first of the IV. -/
def IsCfbEnc (enc : Bytes → Bytes) (sb : Nat) (iv x out : Bytes) : Prop :=
  Segmentwise sb x out fun j =>
    segAt sb out j = xorBytes (segAt sb x j)
      (trunc (enc (if j = 0 then iv else segAt sb out (j - 1))) (segAt sb x j).length)

/-- R326: the keystream of segment j is E of the input segment before it, the first of the IV. -/
def IsCfbDec (enc : Bytes → Bytes) (sb : Nat) (iv x out : Bytes) : Prop :=
  Segmentwise sb x out fun j =>
    segAt sb out j = xorBytes (segAt sb x j)
      (trunc (enc (if j = 0 then iv else segAt sb x (j - 1))) (segAt sb x j).length)

/-- R327: the keystream of segment j is E applied j + 1 times to the IV. -/
def IsOfb (enc : Bytes → Bytes) (sb : Nat) (iv x out : Bytes) : Prop :=
  Segmentwise sb x out fun j =>
    segAt sb out j = xorBytes (segAt sb x j) (trunc (Nat.repeat enc (j + 1) iv) (segAt sb x j).length)

/-- R328: the keystream of segment j is E of the counter (BE(IV) + j) mod 2^(8·Sb), in Sb big-endian bytes. -/
def IsCtr (enc : Bytes → Bytes) (sb : Nat) (iv x out : Bytes) : Prop :=
  Segmentwise sb x out fun j =>
    segAt sb out j = xorBytes (segAt sb x j)
      (trunc (enc (toBE sb ((ofBE iv + j) % 2 ^ (8 * sb)))) (segAt sb x j).length)

/-- The premise under which a cipher command of family `f` executes (R331, R402), but for its alignment and IV checks. -/
def CipherReady (f : Family) (s : State) : Prop :=
  s.dinlen.toNat ≤ s.params.inCap ∧ s.keylen.toNat ∈ Config.keyLengths f

end Sys2Proof.Machine
end

