-- ==== Sys2Proof/Certificates/Slice0/Obligations.lean ====
section
/-! DEFINITION. The statements about the model, for the provers. Each docstring names the rule of spec/ it formalises, and
says where a statement rests on a choice of the model's. -/

open Sys2Proof Sys2Proof.Machine

/-! ## Encoding and decode -/

/-- R90, R91, R99: decode returns a command exactly on the word that encodes it, so no bit of a legal word is dropped and no
other word is taken for it. -/
def Obligations.DecodeReadsExactlyTheEncodedWords : Prop :=
  ∀ (v : Word32) (i : Instr), decode v = .ok i ↔ (i.wellFormed = true ∧ encode i = v)

/-- R99: the legal words are the 33 fixed words of the map and the 255 words of PAD, each with its command; every other word
is refused. -/
def Obligations.LegalWordsAreTheCommandMap : Prop :=
  (∀ p ∈ fixedCommandMap, decode p.1 = .ok p.2) ∧
  (∀ n : Byte, n ≠ 0 → decode (padWord n) = .ok (.padN n)) ∧
  (∀ v i, decode v = .ok i → (v, i) ∈ fixedCommandMap ∨ ∃ n : Byte, n ≠ 0 ∧ v = padWord n ∧ i = .padN n)

/-- R101: which words are refused, with which code, and that a refused word completes with the error outcome, its code's number
in STATUS (R400, R403). -/
def Obligations.RefusedWordsHaveTheirCode : Prop :=
  ∀ v : Word32,
    let op := bits v 3 0
    let alg := bits v 7 4
    let mode := bits v 10 8
    let fam := bits v 12 11
    let bs := bits v 23 16
    let illegal := bits v 15 13 ≠ 0 ∨ bits v 31 24 ≠ 0 ∨ op = 0 ∨ 7 ≤ op ∨
      ((op = 1 ∨ op = 2) ∧ (mode ≠ 0 ∨ fam ≠ 0 ∨ bs ≠ 0)) ∨
      ((op = 3 ∨ op = 4) ∧ (alg ≠ 0 ∨ bs ≠ 0)) ∨
      (op = 5 ∧ (alg ≠ 0 ∨ mode ≠ 0 ∨ fam ≠ 0)) ∨
      (op = 6 ∧ (alg ≠ 0 ∨ mode ≠ 0 ∨ fam ≠ 0 ∨ bs ≠ 0))
    (decode v = .error .illegalCmd ↔ illegal) ∧
    (decode v = .error .unsupportedCombination ↔
      ¬ illegal ∧ (((op = 1 ∨ op = 2) ∧ 6 ≤ alg) ∨ ((op = 3 ∨ op = 4) ∧ (5 ≤ mode ∨ 2 ≤ fam)))) ∧
    (decode v = .error .invalidBlockSize ↔ ¬ illegal ∧ op = 5 ∧ bs = 0) ∧
    (∀ c s, decode v = .error c → ∃ t, engineStep v s = .next t ∧ Refused c s t ∧
      (c, t.status) ∈ [(ErrCode.illegalCmd, 0x00000052#32), (.unsupportedCombination, 0x00000042#32),
        (.invalidBlockSize, 0x00000062#32)])

/-- R91 to R96: some words, written out from the field table, with the commands they stand for. -/
def Obligations.SampleWordsDecode : Prop :=
  decode 0b0000_0000_00000000_000_00_000_0011_0001#32 = .ok .hashSha256 ∧
  decode 0b0000_0000_00000000_000_00_000_0101_0010#32 = .ok .hmacSha512 ∧
  decode 0b0000_0000_00000000_000_01_100_0000_0100#32 = .ok .decCtrC64 ∧
  decode 0b0000_0000_00010100_000_00_000_0000_0101#32 = .ok (.padN 20) ∧
  decode 0b0000_0000_00000000_000_00_000_0000_0110#32 = .ok .unpad

/-! ## Steps -/

/-- R106(b), R455, R462: the engine step of a word that decodes is exec of the command, once the host steps chosen at issue
have passed or no host has a step to take; else, with nothing in flight or host steps still to pass, a step is the host step of
a host that has a statement to run, wherever there is one, and that step is one of those to pass. The number of those host
steps, the choice among several hosts, and the list that gives the reset input (dropping its first level leaves an empty list
empty) are the model's form of R462, R424 and R450 (log entries 4 and 8); which hosts have a statement to run is log entry
12. -/
def Obligations.StepRunsTheDecodedCommand : Prop :=
  (∀ (s : State) (f : InFlight) (i : Instr), s.inflight = some f → decode f.word = .ok i → (f.wait = 0 ∨ readyHosts s = []) →
    (s.resetInput = [] → step s = exec i s) ∧
    (∀ rest, s.resetInput = false :: rest → step s = exec i { s with resetInput := rest })) ∧
  (∀ (s u : State) (i : Nat), s.resetInput.head? ≠ some true →
    pickHost { s with resetInput := s.resetInput.tail } = some (i, u) →
    (s.inflight = none → step s = hostStep i u) ∧
    (∀ f n, s.inflight = some f → f.wait = n + 1 →
      step s = hostStep i { u with inflight := some { f with wait := n } })) ∧
  (∀ s : State, readyHosts s ≠ [] → ∃ i u, pickHost s = some (i, u) ∧ i ∈ readyHosts s ∧ SameEngine s u ∧
    u.hosts = s.hosts ∧ u.hostFault = s.hostFault ∧ u.resetInput = s.resetInput) ∧
  (∀ (s : State) (i : Nat), i ∈ readyHosts s ↔
    ∃ h, s.hosts[i]? = some h ∧ h.run = .running ∧ h.pc < h.program.length)

/-- The command that `withFetchWord` issues is the one the next step executes, from whatever state it is issued. The
placing is the model's (log entry 9). -/
def Obligations.PlacedCommandRunsNext : Prop :=
  ∀ (s : State) (nbits w : Nat) (i : Instr), decodeTableWord nbits w = some i →
    step (s.withFetchWord nbits w) = exec i (s.withFetchWord nbits w)

/-- R426: a machine with nothing in flight, no host with a statement to run and the reset input deasserted stays as it is. That
it has a step at all is the model's form (log entry 16). -/
def Obligations.IdleMachineStays : Prop :=
  ∀ s : State, s.inflight = none → readyHosts s = [] → s.resetInput = [] → step s = .next s

/-- R22: a CMD write while idle stores the word and issues it, whatever the word; while busy it changes nothing; a read
returns the last word stored, 0 after reset. -/
def Obligations.CmdIsWriteAnyReadBack : Prop :=
  (∀ (v : Word32) (s : State), busy s = false → ∃ t f, hostWrite32 0x000 v s = .ok t ∧ t.cmd = v ∧ t.status = 0x00000001#32 ∧
    t.inflight = some f ∧ f.word = v) ∧
  (∀ (v : Word32) (s : State), busy s = true → hostWrite32 0x000 v s = .ok s) ∧
  (∀ s : State, ∃ t, hostRead32 0x000 s = .ok (s.cmd, t)) ∧
  (∀ p hosts, (State.boot p hosts).cmd = 0)

/-- R106(a): the issue step writes CMD and STATUS, sets the in-flight marker, and leaves every other register, every buffer
byte, the hosts and the host fault record as they were. -/
def Obligations.IssueFrame : Prop :=
  ∀ (v : Word32) (s t : State), busy s = false → hostWrite32 0x000 v s = .ok t →
    t.cmd = v ∧ statusBusy t.status = true ∧ statusDone t.status = false ∧ statusErr t.status = 0 ∧
    (∃ f, t.inflight = some f ∧ f.word = v) ∧
    t.params = s.params ∧ t.keylen = s.keylen ∧ t.ivlen = s.ivlen ∧ t.dinlen = s.dinlen ∧ t.doutlen = s.doutlen ∧
    (∀ sp k, bufByte t sp k = bufByte s sp k) ∧ t.hosts = s.hosts ∧ t.hostFault = s.hostFault ∧ t.resetInput = s.resetInput

/-- R108: from any state a command ends in a next state: refused, having written nothing to DOUT, or complete with its own
whole output, which DOUT can hold, or, for UNPAD of an inconsistent input, R303's unspecified completion, whose free values
have the form of log entry 3. In each it changes nothing but STATUS, DOUTLEN, DOUT and the in-flight marker. -/
def Obligations.CommandsNeverPartlyComplete : Prop :=
  ∀ (i : Instr) (s : State), s.params.legal = true → ∃ t, exec i s = .next t ∧
    ((∃ c, Refused c s t) ∨
      ((i = .unpad → consistent (msgOf s) = true) ∧ (commandOutput (commandClass i) s).length ≤ s.params.outCap ∧
        Completed (commandOutput (commandClass i) s) s t) ∨
      (i = .unpad ∧ consistent (msgOf s) = false ∧ Unspecified s t))

/-- R402: a word that decode refuses completes with decode's code, whatever else is wrong; then the checks of its command run
in order, the first that fails is the code reported, and where none fails the command completes with ERR = 0. STATUS is written
out for every code (R400, R403). -/
def Obligations.ValidationOrder : Prop :=
  ∀ (s : State) (v : Word32),
    (∀ c, decode v = .error c → ∃ t, engineStep v s = .next t ∧ Refused c s t ∧
      (c, t.status) ∈ [(ErrCode.illegalCmd, 0x00000052#32), (.unsupportedCombination, 0x00000042#32),
        (.invalidBlockSize, 0x00000062#32)]) ∧
    (∀ i c, decode v = .ok i → firstFailing (commandClass i) s = some c → ∃ t, engineStep v s = .next t ∧ Refused c s t ∧
      (c, t.status) ∈ [(ErrCode.lengthRange, 0x00000072#32), (.invalidKeySize, 0x00000012#32),
        (.invalidIvSize, 0x00000022#32), (.invalidBlockAlignment, 0x00000032#32)]) ∧
    (∀ i, decode v = .ok i → firstFailing (commandClass i) s = none →
      ∃ t, engineStep v s = .next t ∧ t.status = 0x00000002#32 ∧ t.inflight = none ∧ SameInputs s t)

/-! ## Results of the commands -/

/-- R160, R190, R220, R221, R250, R251: each HASH command completes with the digest of DIN[0..DINLEN), whatever KEYLEN,
IVLEN, KEYMEM and IVMEM hold. -/
def Obligations.HashCommandsComplete : Prop :=
  ∀ s : State, s.dinlen.toNat ≤ s.params.inCap →
    ∀ p ∈ [(Instr.hashMd5, Alg.md5, 16), (.hashSha1, .sha1, 20), (.hashSha224, .sha224, 28), (.hashSha256, .sha256, 32),
        (.hashSha384, .sha384, 48), (.hashSha512, .sha512, 64)],
      ∃ t, exec p.1 s = .next t ∧ Completed (hash p.2.1 (memRead s .din 0 s.dinlen.toNat)) s t ∧ t.doutlen.toNat = p.2.2

/-- R280 to R285: each HMAC command completes with the tag of DIN[0..DINLEN) under the key KEYMEM[0..KEYLEN), whatever IVLEN
and IVMEM hold. -/
def Obligations.HmacCommandsComplete : Prop :=
  ∀ s : State, s.dinlen.toNat ≤ s.params.inCap → s.keylen.toNat ≤ 256 →
    ∀ p ∈ [(Instr.hmacMd5, Alg.md5, 16), (.hmacSha1, .sha1, 20), (.hmacSha224, .sha224, 28), (.hmacSha256, .sha256, 32),
        (.hmacSha384, .sha384, 48), (.hmacSha512, .sha512, 64)],
      ∃ t, exec p.1 s = .next t ∧
        Completed (hmac p.2.1 (memRead s .keymem 0 s.keylen.toNat) (memRead s .din 0 s.dinlen.toNat)) s t ∧
        t.doutlen.toNat = p.2.2

/-- R322, R340 to R343: each ECB command completes with every block transformed by itself, whatever IVLEN and IVMEM hold. -/
def Obligations.EcbCommandsComplete : Prop :=
  ∀ s : State, ∀ p ∈ [(Instr.encEcbC128, Dir.enc, Family.c128), (.encEcbC64, .enc, .c64), (.decEcbC128, .dec, .c128),
      (.decEcbC64, .dec, .c64)],
    CipherReady p.2.2 s → 0 < s.dinlen.toNat → s.dinlen.toNat % Config.blockBytes p.2.2 = 0 →
    ∃ t out, exec p.1 s = .next t ∧ Completed out s t ∧
      IsEcb (if p.2.1 = .enc then Config.encrypt p.2.2 (keyOf s) else Config.decrypt p.2.2 (keyOf s))
        (Config.blockBytes p.2.2) (msgOf s) out

/-- R323, R324, R344 to R347: each CBC command completes with the chain of its direction. -/
def Obligations.CbcCommandsComplete : Prop :=
  ∀ s : State, ∀ p ∈ [(Instr.encCbcC128, Dir.enc, Family.c128), (.encCbcC64, .enc, .c64), (.decCbcC128, .dec, .c128),
      (.decCbcC64, .dec, .c64)],
    CipherReady p.2.2 s → s.ivlen.toNat = Config.blockBytes p.2.2 → 0 < s.dinlen.toNat →
    s.dinlen.toNat % Config.blockBytes p.2.2 = 0 →
    ∃ t out, exec p.1 s = .next t ∧ Completed out s t ∧
      (p.2.1 = .enc → IsCbcEnc (Config.encrypt p.2.2 (keyOf s)) (Config.blockBytes p.2.2) (ivOf s) (msgOf s) out) ∧
      (p.2.1 = .dec → IsCbcDec (Config.decrypt p.2.2 (keyOf s)) (Config.blockBytes p.2.2) (ivOf s) (msgOf s) out)

/-- R325, R326, R321, R348 to R351: each CFB command completes for every length, with the feedback of its direction; only the
encrypt direction of the cipher is used. -/
def Obligations.CfbCommandsComplete : Prop :=
  ∀ s : State, ∀ p ∈ [(Instr.encCfbC128, Dir.enc, Family.c128), (.encCfbC64, .enc, .c64), (.decCfbC128, .dec, .c128),
      (.decCfbC64, .dec, .c64)],
    CipherReady p.2.2 s → s.ivlen.toNat = Config.blockBytes p.2.2 →
    ∃ t out, exec p.1 s = .next t ∧ Completed out s t ∧
      (p.2.1 = .enc → IsCfbEnc (Config.encrypt p.2.2 (keyOf s)) (Config.blockBytes p.2.2) (ivOf s) (msgOf s) out) ∧
      (p.2.1 = .dec → IsCfbDec (Config.encrypt p.2.2 (keyOf s)) (Config.blockBytes p.2.2) (ivOf s) (msgOf s) out)

/-- R327, R321, R352 to R355: each OFB command, ENC and DEC alike, completes for every length with a keystream that does not
depend on the data. -/
def Obligations.OfbCommandsComplete : Prop :=
  ∀ s : State, ∀ p ∈ [(Instr.encOfbC128, Family.c128), (.encOfbC64, .c64), (.decOfbC128, .c128), (.decOfbC64, .c64)],
    CipherReady p.2 s → s.ivlen.toNat = Config.blockBytes p.2 →
    ∃ t out, exec p.1 s = .next t ∧ Completed out s t ∧
      IsOfb (Config.encrypt p.2 (keyOf s)) (Config.blockBytes p.2) (ivOf s) (msgOf s) out

/-- R328, R321, R356 to R359: each CTR command, ENC and DEC alike, completes for every length; segment j uses the counter
IV + j, from j = 0, wrapping at the block's full width. -/
def Obligations.CtrCommandsComplete : Prop :=
  ∀ s : State, ∀ p ∈ [(Instr.encCtrC128, Family.c128), (.encCtrC64, .c64), (.decCtrC128, .c128), (.decCtrC64, .c64)],
    CipherReady p.2 s → s.ivlen.toNat = Config.blockBytes p.2 →
    ∃ t out, exec p.1 s = .next t ∧ Completed out s t ∧
      IsCtr (Config.encrypt p.2 (keyOf s)) (Config.blockBytes p.2) (ivOf s) (msgOf s) out

/-- R300, R301: PAD n completes with DIN[0..DINLEN) followed by p bytes of value p, 1 ≤ p ≤ n, up to a multiple of n. -/
def Obligations.PadCommandCompletes : Prop :=
  ∀ (s : State) (n : Byte), n ≠ 0 → s.params.legal = true → s.dinlen.toNat ≤ s.params.inCap →
    ∃ t p, exec (.padN n) s = .next t ∧ 1 ≤ p ∧ p ≤ n.toNat ∧ (s.dinlen.toNat + p) % n.toNat = 0 ∧
      Completed (memRead s .din 0 s.dinlen.toNat ++ List.replicate p (BitVec.ofNat 8 p)) s t ∧
      t.doutlen.toNat = s.dinlen.toNat + p

/-- R302, R304: UNPAD of a message that ends in n bytes of value n, 1 ≤ n ≤ ℓ, completes with the bytes before them. -/
def Obligations.UnpadStripsAConsistentRun : Prop :=
  ∀ (s : State) (b : Bytes) (n : Byte), 1 ≤ n.toNat → s.dinlen.toNat ≤ s.params.inCap →
    memRead s .din 0 s.dinlen.toNat = b ++ List.replicate n.toNat n →
    ∃ t, exec .unpad s = .next t ∧ Completed b s t

/-- R303, R304: UNPAD of any other message in range completes without an error, with free values for DOUTLEN in
[0, OUT_CAP] and for every byte of DOUT. The form of the free values is the model's (log entry 3). -/
def Obligations.UnpadOfAnInconsistentInputIsUnspecified : Prop :=
  ∀ s : State, s.params.legal = true → s.dinlen.toNat ≤ s.params.inCap →
    (∀ (b : Bytes) (n : Byte), 1 ≤ n.toNat → memRead s .din 0 s.dinlen.toNat ≠ b ++ List.replicate n.toNat n) →
    ∃ t, exec .unpad s = .next t ∧ Unspecified s t ∧ t.doutlen.toNat ≤ s.params.outCap

/-! ## Whole-machine statements -/

/-- The invariant holds after reset, for every legal choice of the parameters and every list of hosts that have not run. -/
def Obligations.ResetHasTheInvariant : Prop :=
  State.reset.inv = true ∧
  ∀ p hosts, p.legal = true → (∀ h ∈ hosts, h.run ≠ .faulted ∧ h.vars = []) → (State.boot p hosts).inv = true

/-- Every step keeps the invariant: the buffers stay in canonical form inside their capacities, STATUS holds one of its legal
values, BUSY agrees with the in-flight marker and CMD with the word in flight, DOUTLEN stays within OUT_CAP and is 0 after
an error, a faulted host has its record, and the next draw is fresh. -/
def Obligations.StepKeepsTheInvariant : Prop :=
  ∀ s t : State, s.inv = true → step s = .next t → t.inv = true

/-- R23: only issue, completion and reset change STATUS. -/
def Obligations.StatusChangesOnlyAtIssueCompletionAndReset : Prop :=
  ∀ s t : State, s.inv = true → step s = .next t →
    t.status = s.status ∨
    (s.inflight = none ∧ t.inflight.isSome = true ∧ t.status = 0x00000001#32) ∨
    (s.inflight.isSome = true ∧ t.inflight = none ∧ statusDone t.status = true ∧ statusBusy t.status = false) ∨
    (s.resetInput.head? = some true ∧ t.inflight = none ∧ t.status = 0)

/-- U6, R8: no step clears the host fault record, and none changes the parameters. That a reset of the engine keeps the
record is the model's reading (log entry 8). -/
def Obligations.HostFaultAndParametersStay : Prop :=
  ∀ s t : State, step s = .next t →
    t.params = s.params ∧ (s.hostFault.isSome = true → t.hostFault = s.hostFault)

/-- R457: while a command stays in flight no step changes CMD or anything of its snapshot. That the engine step reads the live
values, so that they are what must stay, is log entry 11, and the count of host steps that goes down is the model's (log
entry 4). -/
def Obligations.SnapshotStaysWhileInFlight : Prop :=
  ∀ (s t : State) (f : InFlight), s.inv = true → s.inflight = some f → s.resetInput.head? ≠ some true → step s = .next t →
    t.inflight ≠ none →
    (∃ g, t.inflight = some g ∧ g.word = f.word ∧ g.wait < f.wait) ∧ SameSnapshot s t ∧ t.cmd = s.cmd ∧
      t.status = s.status ∧ t.keymem = s.keymem ∧ t.ivmem = s.ivmem ∧ t.din = s.din

/-- R456: the result of an engine step depends on the command word and the snapshot alone, but for the output of UNPAD on an
inconsistent input and the bytes of DOUT from DOUTLEN on. -/
def Obligations.EngineStepIsAFunctionOfTheSnapshot : Prop :=
  ∀ (w : Word32) (s s' t t' : State), SameSnapshot s s' → engineStep w s = .next t → engineStep w s' = .next t' →
    t'.status = t.status ∧
    (¬ (decode w = .ok .unpad ∧ s.dinlen.toNat ≤ s.params.inCap ∧ consistent (msgOf s) = false) →
      t'.doutlen = t.doutlen ∧
      (t.status = 0x00000002#32 → ∀ k, k < t.doutlen.toNat → bufByte t' .dout k = bufByte t .dout k))

/-- R330, S6: a command leaves its inputs as they were, so issuing it again gives the same outcome and output. -/
def Obligations.RepeatedCommandRepeatsItsOutput : Prop :=
  ∀ (i : Instr) (s t u : State), ¬ (i = .unpad ∧ consistent (msgOf s) = false) → exec i s = .next t → exec i t = .next u →
    SameInputs s t ∧ u.status = t.status ∧ u.doutlen = t.doutlen ∧
      (t.status = 0x00000002#32 → memRead u .dout 0 u.doutlen.toNat = memRead t .dout 0 t.doutlen.toNat)

/-- R401, R410, R412: every step answers a next state: no error, no host access and no state stops the machine. That an idle
machine's step leaves it as it is (log entry 16), that a host goes on after an access outside the window (log entry 5), and that
a faulted host only takes no further step (log entry 6) are the model's. -/
def Obligations.EveryStepAnswersANextState : Prop := ∀ s : State, ∃ t, step s = .next t

/-- R462: an in-flight command completes: one of the next wait + 1 steps leaves it done. The count is the model's form of
"finite but unbounded" (log entry 4). -/
def Obligations.InFlightCommandCompletes : Prop :=
  ∀ (s : State) (f : InFlight), s.inv = true → s.inflight = some f → s.resetInput = [] →
    ∃ (k : Nat) (u : State), 1 ≤ k ∧ k ≤ f.wait + 1 ∧ Host.Core.run core k s = .next u ∧ u.inflight = none ∧
      statusBusy u.status = false ∧ statusDone u.status = true

/-- R450, R38: at a step with the reset input asserted no agent moves, the command in flight is abandoned, every register takes
its reset value, and every buffer byte is a fresh free value (the value's form: log entry 3). That the hosts, their fault record
and the parameters stay is the model's reading (log entry 8). -/
def Obligations.ResetEventAbandonsAndClears : Prop :=
  ∀ (s : State) (rest : List Bool), s.resetInput = true :: rest →
    ∃ t, step s = .next t ∧ t.cmd = 0 ∧ t.status = 0 ∧ t.keylen = 0 ∧ t.ivlen = 0 ∧ t.dinlen = 0 ∧ t.doutlen = 0 ∧
      t.inflight = none ∧ (∀ sp k, bufByte t sp k = Config.freeByte s.draws sp k) ∧ t.hosts = s.hosts ∧
      t.hostFault = s.hostFault ∧ t.resetInput = rest ∧ t.params = s.params

/-- R38, R451, R454: after reset the machine is idle with nothing in flight and no host fault, every register and every
reserved register offset reads 0, and every buffer byte is a free value. That the value is draw 0 at the byte's own place, no
byte being listed, is the model's form of "any value" (log entries 2 and 3). -/
def Obligations.StateAfterReset : Prop :=
  ∀ p hosts, launch (State.boot p hosts) = true ∧
    (∀ off, off < 0x100 → off % 4 = 0 → hostRead32 off (State.boot p hosts) = .ok (0, State.boot p hosts)) ∧
    (∀ sp k, bufByte (State.boot p hosts) sp k = Config.freeByte 0 sp k)

/-! ## The host's side -/

/-- R61, R66: the regions of the window: what an 8-bit read returns in each while idle, and what an 8-bit write does. -/
def Obligations.WindowRegions : Prop :=
  ∀ s : State, s.params.legal = true → busy s = false →
    (∀ k, k < 256 → hostRead8 (0x100 + k) s = .ok (bufByte s .keymem k, s) ∧
      ∀ v, hostWrite8 (0x100 + k) v s = .ok (writeByte s .keymem k v)) ∧
    (∀ k, k < 16 → hostRead8 (0x200 + k) s = .ok (bufByte s .ivmem k, s) ∧
      ∀ v, hostWrite8 (0x200 + k) v s = .ok (writeByte s .ivmem k v)) ∧
    (∀ off, 0x210 ≤ off → off < 0x01000000 → hostRead8 off s = .ok (0, s) ∧ ∀ v, hostWrite8 off v s = .ok s) ∧
    (∀ k, k < s.params.inCap → hostRead8 (0x01000000 + k) s = .ok (bufByte s .din k, s) ∧
      ∀ v, hostWrite8 (0x01000000 + k) v s = .ok (writeByte s .din k v)) ∧
    (∀ off, 0x01000000 + s.params.inCap ≤ off → off < 0x02000000 →
      hostRead8 off s = .ok (0, s) ∧ ∀ v, hostWrite8 off v s = .ok s) ∧
    (∀ k, k < s.params.inCap + 256 → hostRead8 (0x02000000 + k) s = .ok (bufByte s .dout k, s) ∧
      ∀ v, hostWrite8 (0x02000000 + k) v s = .ok s) ∧
    (∀ off, 0x02000000 + (s.params.inCap + 256) ≤ off → off < 0x03000000 →
      hostRead8 off s = .ok (0, s) ∧ ∀ v, hostWrite8 off v s = .ok s)

/-- R60: a byte written to a buffer reads back as written, and every other byte of every buffer is as it was; MemRead gives
the bytes at its offsets in order. -/
def Obligations.BufferReadsAfterWrites : Prop :=
  (∀ (s : State) (sp sp' : Space) (k k' : Nat) (v : Byte),
    bufByte (writeByte s sp k v) sp' k' = if sp' = sp ∧ k' = k then v else bufByte s sp' k') ∧
  (∀ (s : State) (sp : Space) (a n : Nat),
    (memRead s sp a n).length = n ∧ ∀ k, k < n → (memRead s sp a n)[k]? = some (bufByte s sp (a + k)))

/-- R63: the register block accepts only 32-bit accesses at multiples of 4; every other access there is a host bus error. -/
def Obligations.RegisterBlockAcceptsAlignedWordsOnly : Prop :=
  ∀ (s : State) (off : Nat), off < 0x100 →
    (∀ v, hostWrite8 off v s = .error (.busError (.byteAccessToRegister off))) ∧
    hostRead8 off s = .error (.busError (.byteAccessToRegister off)) ∧
    (off % 4 = 0 → (∀ v, ∃ t, hostWrite32 off v s = .ok t) ∧ ∃ r, hostRead32 off s = .ok r) ∧
    (off % 4 ≠ 0 → (∀ v, hostWrite32 off v s = .error (.busError (.misalignedWord off))) ∧
      hostRead32 off s = .error (.busError (.misalignedWord off)))

/-- R64, R65: in the buffer and reserved regions an 8-bit access is accepted anywhere, a 32-bit access at a multiple of 4, and
each of its four bytes, lowest lane first, is read and written as its own region says. That one 32-bit access is its four byte
accesses, and that while busy its four DOUT bytes come from one draw, is log entry 20. -/
def Obligations.WordAccessesAreFourByteAccesses : Prop :=
  ∀ (s : State) (off : Nat), 0x100 ≤ off →
    (∀ v, ∃ t, hostWrite8 off v s = .ok t) ∧ (∃ r, hostRead8 off s = .ok r) ∧
    (off % 4 ≠ 0 → (∀ v, hostWrite32 off v s = .error (.busError (.misalignedWord off))) ∧
      hostRead32 off s = .error (.busError (.misalignedWord off))) ∧
    (off % 4 = 0 →
      (∀ v, ∃ t, hostWrite32 off v s = .ok t ∧
        (do let a ← hostWrite8 off (v.extractLsb' 0 8) s
            let b ← hostWrite8 (off + 1) (v.extractLsb' 8 8) a
            let c ← hostWrite8 (off + 2) (v.extractLsb' 16 8) b
            hostWrite8 (off + 3) (v.extractLsb' 24 8) c) = .ok t) ∧
      (∃ v t, hostRead32 off s = .ok (v, t) ∧
        hostRead8 off s = .ok (v.extractLsb' 0 8, t) ∧ hostRead8 (off + 1) s = .ok (v.extractLsb' 8 8, t) ∧
        hostRead8 (off + 2) s = .ok (v.extractLsb' 16 8, t) ∧ hostRead8 (off + 3) s = .ok (v.extractLsb' 24 8, t)))

/-- R68: bytes written by one width are seen at the other width without any transformation, in DIN at every aligned word
that lies in it. -/
def Obligations.WidthsSeeTheSameBytes : Prop :=
  ∀ (s : State) (a : Nat), busy s = false → s.params.legal = true → a % 4 = 0 → a + 4 ≤ s.params.inCap →
    (∀ v, ∃ t, hostWrite32 (0x01000000 + a) v s = .ok t ∧
      ∀ k, k < 4 → hostRead8 (0x01000000 + a + k) t = .ok (v.extractLsb' (8 * k) 8, t)) ∧
    (∀ b0 b1 b2 b3 : Byte, ∃ t,
      (do let t0 ← hostWrite8 (0x01000000 + a) b0 s
          let t1 ← hostWrite8 (0x01000000 + a + 1) b1 t0
          let t2 ← hostWrite8 (0x01000000 + a + 2) b2 t1
          hostWrite8 (0x01000000 + a + 3) b3 t2) = .ok t ∧
      hostRead32 (0x01000000 + a) t = .ok (b3 ++ b2 ++ b1 ++ b0, t))

/-- R24 to R26, R28, R66: a register write while idle stores any value in the length register it names and changes nothing
else; STATUS, DOUTLEN and the reserved offsets ignore it. -/
def Obligations.RegisterWritesWhileIdle : Prop :=
  ∀ (s : State) (v : Word32), busy s = false →
    hostWrite32 0x008 v s = .ok { s with keylen := v } ∧ hostWrite32 0x00C v s = .ok { s with ivlen := v } ∧
    hostWrite32 0x010 v s = .ok { s with dinlen := v } ∧ hostWrite32 0x004 v s = .ok s ∧ hostWrite32 0x014 v s = .ok s ∧
    (∀ off, 0x018 ≤ off → off < 0x100 → off % 4 = 0 → hostWrite32 off v s = .ok s ∧ ∃ t, hostRead32 off s = .ok (0, t))

/-- R460: while busy an accepted write of either width, anywhere in the window, changes nothing and is no bus error, and
CMD, STATUS, the length registers and the input buffers read as they stand. -/
def Obligations.WritesWhileBusyAreDropped : Prop :=
  ∀ s : State, busy s = true → s.params.legal = true →
    (∀ off v, off % 4 = 0 → hostWrite32 off v s = .ok s) ∧
    (∀ off v, 0x100 ≤ off → hostWrite8 off v s = .ok s) ∧
    (∀ p ∈ [(0x000, s.cmd), (0x004, s.status), (0x008, s.keylen), (0x00C, s.ivlen), (0x010, s.dinlen)],
      ∃ t, hostRead32 p.1 s = .ok (p.2, t)) ∧
    (∀ k, k < 256 → ∃ t, hostRead8 (0x100 + k) s = .ok (bufByte s .keymem k, t)) ∧
    (∀ k, k < 16 → ∃ t, hostRead8 (0x200 + k) s = .ok (bufByte s .ivmem k, t)) ∧
    (∀ k, k < s.params.inCap → ∃ t, hostRead8 (0x01000000 + k) s = .ok (bufByte s .din k, t))

/-- R461: while busy a read of DOUTLEN or of a byte of DOUT returns a free value, a fresh one at every read, and changes
nothing of the engine. The form of the free values is the model's (log entry 3). -/
def Obligations.ResultsReadWhileBusyAreFree : Prop :=
  ∀ s : State, busy s = true → s.params.legal = true →
    (∃ t, hostRead32 0x014 s = .ok (Config.freeWord s.draws, t) ∧ t.draws = s.draws + 1 ∧ SameEngine s t) ∧
    (∀ k, k < s.params.inCap + 256 → ∃ t, hostRead8 (0x02000000 + k) s = .ok (Config.freeByte s.draws .dout k, t) ∧
      t.draws = s.draws + 1 ∧ SameEngine s t)

/-- R69: no read has a side effect: an accepted read of either width changes nothing but, while busy, the model's count of
draws. -/
def Obligations.ReadsHaveNoSideEffect : Prop :=
  ∀ (s t : State) (off : Nat),
    ((∃ v, hostRead8 off s = .ok (v, t)) ∨ (∃ v, hostRead32 off s = .ok (v, t))) →
    (busy s = false → t = s) ∧ t = { s with draws := t.draws } ∧ SameEngine s t

/-- R69: every accepted write but a write to CMD is idempotent: the same write again changes nothing. -/
def Obligations.OtherWritesAreIdempotent : Prop :=
  ∀ (s t : State) (off : Nat),
    (∀ v, off ≠ 0x000 → hostWrite32 off v s = .ok t → hostWrite32 off v t = .ok t) ∧
    (∀ v, hostWrite8 off v s = .ok t → hostWrite8 off v t = .ok t)

/-- R73, R107: once a command has completed with output `out`, the host reads its length at DOUTLEN and its bytes at DOUT. -/
def Obligations.HostReadsTheOutput : Prop :=
  ∀ (out : Bytes) (s t : State), Completed out s t → t.params.legal = true → out.length ≤ t.params.outCap →
    hostRead32 0x014 t = .ok (BitVec.ofNat 32 out.length, t) ∧
    ∀ k b, out[k]? = some b → hostRead8 (0x02000000 + k) t = .ok (b, t)

/-- R410, R414: an access the engine does not accept is recorded, stops its host, and changes no register, no buffer and no
command in flight. That the first record is the one kept, and that the host takes no further step, is U6's fault of the host
agent (log entry 6). -/
def Obligations.BusErrorStopsOnlyItsHost : Prop :=
  ∀ (s : State) (i : Nat) (h : HostAgent) (off : Nat) (v : HostVal) (x : Nat), s.hosts[i]? = some h →
    off < Config.windowBytes →
    ((off < 0x100 ∧ (h.program[h.pc]? = some (.w8 off v) ∨ h.program[h.pc]? = some (.r8 off x))) ∨
      (off % 4 ≠ 0 ∧ (h.program[h.pc]? = some (.w32 off v) ∨ h.program[h.pc]? = some (.r32 off x)))) →
    ∃ t, hostStep i s = .next t ∧ SameEngine s t ∧ t.draws = s.draws ∧ t.hostFault.isSome = true ∧
      (s.hostFault.isSome = true → t.hostFault = s.hostFault) ∧
      t.hosts[i]? = some { h with run := .faulted } ∧ (∀ j, j ≠ i → t.hosts[j]? = s.hosts[j]?) ∧ i ∉ readyHosts t

/-- R104: what a statement of a host program does, for an access that the window takes. That W8 takes the low 8 bits of its
operand, that a label is a statement's index, and that `BIT1` and `HALT` are each a host step are the model's (log entries 13,
14 and 21). -/
def Obligations.HostStatements : Prop :=
  ∀ (s : State) (i : Nat) (h : HostAgent), s.hosts[i]? = some h →
    (∀ off v t, h.program[h.pc]? = some (.w32 off v) → off < Config.windowBytes → hostWrite32 off (hostValue i h v) s = .ok t →
      hostStep i s = .next (setHost t i { h with pc := h.pc + 1 })) ∧
    (∀ off v t, h.program[h.pc]? = some (.w8 off v) → off < Config.windowBytes →
      hostWrite8 off ((hostValue i h v).setWidth 8) s = .ok t →
      hostStep i s = .next (setHost t i { h with pc := h.pc + 1 })) ∧
    (∀ off x v t, h.program[h.pc]? = some (.r32 off x) → off < Config.windowBytes → hostRead32 off s = .ok (v, t) →
      ∃ h', hostStep i s = .next (setHost t i h') ∧ h'.pc = h.pc + 1 ∧ h'.program = h.program ∧ h'.run = h.run ∧
        varValue i h' x = v ∧ ∀ y, y ≠ x → varValue i h' y = varValue i h y) ∧
    (∀ off x v t, h.program[h.pc]? = some (.r8 off x) → off < Config.windowBytes → hostRead8 off s = .ok (v, t) →
      ∃ h', hostStep i s = .next (setHost t i h') ∧ h'.pc = h.pc + 1 ∧ h'.program = h.program ∧ h'.run = h.run ∧
        varValue i h' x = v.setWidth 32 ∧ ∀ y, y ≠ x → varValue i h' y = varValue i h y) ∧
    (∀ x b l, h.program[h.pc]? = some (.bit1 x b l) → (varValue i h x).getLsbD b = true →
      hostStep i s = .next (setHost s i { h with pc := l })) ∧
    (∀ x b l, h.program[h.pc]? = some (.bit1 x b l) → (varValue i h x).getLsbD b = false →
      hostStep i s = .next (setHost s i { h with pc := h.pc + 1 })) ∧
    (h.program[h.pc]? = some .halt → hostStep i s = .next (setHost s i { h with run := .halted }))

/-- R61, R412: the window is [BASE, BASE + 0x0300_0000), and a host access beyond it leaves the engine as it is. That the host
goes on to its next statement, a read with a free value in its variable, is the model's (log entry 5; the value's form, log
entry 3). -/
def Obligations.AddressesOutsideTheWindow : Prop :=
  (∀ (p : Config.Params) (address : Nat), address < p.base → windowOffset p address = .error (.outsideWindow address)) ∧
  (∀ (p : Config.Params) (off : Nat),
    windowOffset p (p.base + off) = if off < 0x03000000 then .ok off else .error (.outsideWindow (p.base + off))) ∧
  (∀ (s : State) (i : Nat) (h : HostAgent) (off : Nat) (v : HostVal), s.hosts[i]? = some h → 0x03000000 ≤ off →
    (h.program[h.pc]? = some (.w32 off v) ∨ h.program[h.pc]? = some (.w8 off v)) →
    ∃ t, hostStep i s = .next t ∧ SameEngine s t ∧ t.hostFault = s.hostFault ∧
      t.hosts = s.hosts.set i { h with pc := h.pc + 1 }) ∧
  (∀ (s : State) (i : Nat) (h : HostAgent) (off x : Nat), s.hosts[i]? = some h → 0x03000000 ≤ off →
    (h.program[h.pc]? = some (.r32 off x) ∨ h.program[h.pc]? = some (.r8 off x)) →
    ∃ t h', hostStep i s = .next t ∧ SameEngine s t ∧ t.hostFault = s.hostFault ∧ t.hosts = s.hosts.set i h' ∧
      h'.pc = h.pc + 1 ∧ h'.program = h.program ∧ h'.run = h.run ∧
      varValue i h' x = (if h.program[h.pc]? = some (.r32 off x) then Config.freeWord s.draws
        else ((Config.freeWord s.draws).setWidth 8).setWidth 32) ∧
      ∀ y, y ≠ x → varValue i h' y = varValue i h y)

/-! ## Padding, hashes and HMAC -/

/-- R120 to R122: the padded message begins with the message and a byte 0x80, ends with its length in bits in the variant's
byte order, has only zero bytes, fewer than a block of them, in between, and fills ⌊(ℓ + Fb)/Bb⌋ + 1 blocks exactly. -/
def Obligations.PaddedMessageShape : Prop :=
  ∀ (alg : Alg) (m : Bytes), ∃ k, k < (hashParams alg).blockBytes ∧
    mdpad (hashParams alg) m =
      m ++ [0x80#8] ++ List.replicate k 0x00#8 ++
        (if alg = .md5 then toLE 8 (8 * m.length) else toBE (hashParams alg).lengthBytes (8 * m.length)) ∧
    (mdpad (hashParams alg) m).length =
      ((m.length + (hashParams alg).lengthBytes) / (hashParams alg).blockBytes + 1) * (hashParams alg).blockBytes

/-- From R121: two messages of fewer than 2^61 bytes with the same padding are the same message. -/
def Obligations.PaddingIsUnambiguous : Prop :=
  ∀ (alg : Alg) (m m' : Bytes), m.length < 2 ^ 61 → m'.length < 2 ^ 61 →
    mdpad (hashParams alg) m = mdpad (hashParams alg) m' → m = m'

/-- R127, R129: the digest has the variant's fixed width for every message. -/
def Obligations.DigestsHaveFixedWidth : Prop :=
  ∀ (alg : Alg) (m : Bytes), (hash alg m).length = digestBytes alg

/-- R181, R214, R244: the expanders' schedules: their lengths, the words taken from the block, and the recurrence every later
word obeys. -/
def Obligations.SchedulesObeyTheirRecurrence : Prop :=
  ∀ blk : Bytes,
    ((sha1Schedule blk).length = 80 ∧
      (∀ t, t < 16 → (sha1Schedule blk).getD t 0 = BitVec.ofNat 32 (ofBE (slice blk (4 * t) (4 * t + 4)))) ∧
      (∀ t, 16 ≤ t → t < 80 → (sha1Schedule blk).getD t 0 =
        rotl 1 ((sha1Schedule blk).getD (t - 3) 0 ^^^ (sha1Schedule blk).getD (t - 8) 0 ^^^
          (sha1Schedule blk).getD (t - 14) 0 ^^^ (sha1Schedule blk).getD (t - 16) 0))) ∧
    ((expand256 blk).length = 64 ∧
      (∀ t, t < 16 → (expand256 blk).getD t 0 = BitVec.ofNat 32 (ofBE (slice blk (4 * t) (4 * t + 4)))) ∧
      (∀ t, 16 ≤ t → t < 64 → (expand256 blk).getD t 0 =
        smallSigma1 ((expand256 blk).getD (t - 2) 0) + (expand256 blk).getD (t - 7) 0 +
          smallSigma0 ((expand256 blk).getD (t - 15) 0) + (expand256 blk).getD (t - 16) 0)) ∧
    ((expand512 blk).length = 80 ∧
      (∀ t, t < 16 → (expand512 blk).getD t 0 = BitVec.ofNat 64 (ofBE (slice blk (8 * t) (8 * t + 8)))) ∧
      (∀ t, 16 ≤ t → t < 80 → (expand512 blk).getD t 0 =
        smallSigma1L ((expand512 blk).getD (t - 2) 0) + (expand512 blk).getD (t - 7) 0 +
          smallSigma0L ((expand512 blk).getD (t - 15) 0) + (expand512 blk).getD (t - 16) 0))

/-- R152: MD5's schedule is the block's 16 little-endian words in the order g. -/
def Obligations.Md5ScheduleReordersTheBlock : Prop :=
  ∀ (blk : Bytes) (i : Nat), i < 64 →
    (md5Schedule blk).length = 64 ∧
    (md5Schedule blk).getD i 0 =
      BitVec.ofNat 32 (ofLE (slice blk (4 * md5G i) (4 * md5G i + 4))) ∧
    md5G i = (if i ≤ 15 then i else if i ≤ 31 then (5 * i + 1) % 16 else if i ≤ 47 then (3 * i + 5) % 16 else 7 * i % 16)

/-- R129: hashing absorbs the padded blocks one after the other from the initial vector: a message whose padding is the
blocks of `p` then one more block `q` has the state of compressing `q` after `p`. -/
def Obligations.AbsorbIsSequential : Prop :=
  ∀ (w bb : Nat) (compress : List (BitVec w) → Bytes → List (BitVec w)) (iv : List (BitVec w)) (p q : Bytes),
    0 < bb → p.length % bb = 0 → q.length = bb →
    absorbAll bb compress iv [] = iv ∧ absorbAll bb compress iv (p ++ q) = compress (absorbAll bb compress iv p) q

/-- R271: the derived key has the block's size: the key, or its digest where it is longer than a block, then zero bytes. Keys
up to a block long that differ only in trailing zero bytes give the same derived key. -/
def Obligations.DerivedHmacKey : Prop :=
  ∀ (alg : Alg) (key : Bytes),
    (deriveK0 alg key).length = hmacBlock alg ∧
    (key.length ≤ hmacBlock alg → deriveK0 alg key = key ++ List.replicate (hmacBlock alg - key.length) 0x00#8) ∧
    (hmacBlock alg < key.length →
      deriveK0 alg key = hash alg key ++ List.replicate (hmacBlock alg - digestBytes alg) 0x00#8) ∧
    (∀ n, key.length + n ≤ hmacBlock alg → deriveK0 alg (key ++ List.replicate n 0x00#8) = deriveK0 alg key)

/-- R275, R273, R274: the tag is the outer hash over the inner one, with the pads 0x5C and 0x36; and a key longer than a block
gives the tag of its digest. -/
def Obligations.HmacIsTheNestedHash : Prop :=
  ∀ (alg : Alg) (key m : Bytes),
    hmac alg key m = hash alg (List.zipWith (· ^^^ ·) (deriveK0 alg key) (List.replicate (hmacBlock alg) 0x5C#8) ++
      hash alg (List.zipWith (· ^^^ ·) (deriveK0 alg key) (List.replicate (hmacBlock alg) 0x36#8) ++ m)) ∧
    (hmacBlock alg < key.length → hmac alg key m = hmac alg (hash alg key) m)

/-! ## Padding and chaining, both ways -/

/-- R305: PKCS#7 padding is undone by UNPAD: on the output of PAD n, held in DIN, UNPAD returns the message. -/
def Obligations.UnpadUndoesPad : Prop :=
  ∀ (b : Bytes) (n : Nat), 1 ≤ n → n ≤ 255 →
    consistent (pkcs7Pad b n) = true ∧ unpadded (pkcs7Pad b n) = b ∧
    ∀ s : State, s.dinlen.toNat ≤ s.params.inCap → memRead s .din 0 s.dinlen.toNat = pkcs7Pad b n →
      ∃ t, exec .unpad s = .next t ∧ Completed b s t

/-- R333: decrypting what a mode encrypted returns the plaintext, for every mode and family: DEC on a state with the same key
and IV and the ciphertext in DIN. For ECB and CBC this rests on the named property of the cipher family (R33). -/
def Obligations.DecryptionUndoesEncryption : Prop :=
  ∀ p ∈ [(Instr.encEcbC128, Instr.decEcbC128, Mode.ecb, Family.c128), (.encEcbC64, .decEcbC64, .ecb, .c64),
      (.encCbcC128, .decCbcC128, .cbc, .c128), (.encCbcC64, .decCbcC64, .cbc, .c64),
      (.encCfbC128, .decCfbC128, .cfb, .c128), (.encCfbC64, .decCfbC64, .cfb, .c64),
      (.encOfbC128, .decOfbC128, .ofb, .c128), (.encOfbC64, .decOfbC64, .ofb, .c64),
      (.encCtrC128, .decCtrC128, .ctr, .c128), (.encCtrC64, .decCtrC64, .ctr, .c64)],
    ((p.2.2.1 = .ecb ∨ p.2.2.1 = .cbc) → Config.CipherRoundtrip p.2.2.2) →
    ∀ s t s' : State, firstFailing (commandClass p.1) s = none → exec p.1 s = .next t →
      s'.params = s.params → s'.keylen = s.keylen → s'.ivlen = s.ivlen → s'.dinlen = s.dinlen → keyOf s' = keyOf s →
      ivOf s' = ivOf s → msgOf s' = memRead t .dout 0 t.doutlen.toNat →
      ∃ t', exec p.2.1 s' = .next t' ∧ Completed (msgOf s) s' t'

/-- R333, for every cipher: over any block functions with outputs of sb bytes, of which `dec` undoes `enc` on blocks where the
mode is ECB or CBC, a mode's decryption of its encryption is the plaintext. -/
def Obligations.EveryModeRoundTripsForEveryCipher : Prop :=
  ∀ (enc dec : Bytes → Bytes) (sb : Nat) (m : Mode) (iv x : Bytes), 0 < sb →
    (∀ y, (enc y).length = sb) → (∀ y, (dec y).length = sb) → (m ≠ .ecb → iv.length = sb) →
    (m = .ecb ∨ m = .cbc → x.length % sb = 0 ∧ ∀ b : Bytes, b.length = sb → dec (enc b) = b) →
    runMode enc dec sb .dec m iv (runMode enc dec sb .enc m iv x) = x

/-- R321, S11: in the stream modes the output for a prefix of the input is that prefix of the output, whatever the cipher,
so a partial last segment is cut and never padded. -/
def Obligations.StreamOutputOfAPrefix : Prop :=
  ∀ (enc dec : Bytes → Bytes) (sb : Nat) (d : Dir) (m : Mode) (iv x : Bytes) (n : Nat), 0 < sb →
    (∀ y, (enc y).length = sb) → m ≠ .ecb → m ≠ .cbc →
    runMode enc dec sb d m iv (x.take n) = (runMode enc dec sb d m iv x).take n

/-- From R324 (R346's corner case): in CBC decryption a change of one ciphertext block j changes only the output blocks j and
j + 1. -/
def Obligations.CbcDecryptionConfinesAnError : Prop :=
  ∀ (dec : Bytes → Bytes) (sb : Nat) (iv x x' out out' : Bytes) (j : Nat),
    x'.length = x.length → (∀ i, i * sb < x.length → i ≠ j → segAt sb x' i = segAt sb x i) →
    out = cbcDecSegs dec iv (segments sb x) → out' = cbcDecSegs dec iv (segments sb x') →
    0 < sb → x.length % sb = 0 → iv.length = sb → (∀ y, (dec y).length = sb) →
    ∀ i, i * sb < x.length → i ≠ j → i ≠ j + 1 → segAt sb out' i = segAt sb out i

/-- R354, R358: DEC.OFB and ENC.OFB are the same function of the state, and so are DEC.CTR and ENC.CTR. -/
def Obligations.OfbAndCtrAreTheSameBothWays : Prop :=
  ∀ s : State, exec .decOfbC128 s = exec .encOfbC128 s ∧ exec .decOfbC64 s = exec .encOfbC64 s ∧
    exec .decCtrC128 s = exec .encCtrC128 s ∧ exec .decCtrC64 s = exec .encCtrC64 s
end

