-- ==== Sys2Proof/Laws/Bytes.lean ====
section
/-! SUPPORT. The laws of byte sequences and of packing integers into bytes: lengths, the inverses of R12, and that XOR with
the same bytes twice cancels. -/

namespace Sys2Proof.Machine

/-! ## Lengths -/

@[simp] theorem length_zeros (n : Nat) : (zeros n).length = n := by simp [zeros]

@[simp] theorem length_rep (v : Byte) (n : Nat) : (rep v n).length = n := by simp [rep]

@[simp] theorem length_xorBytes (a b : Bytes) : (xorBytes a b).length = min a.length b.length := by simp [xorBytes]

@[simp] theorem length_trunc (s : Bytes) (n : Nat) : (trunc s n).length = min n s.length := by simp [trunc]

@[simp] theorem length_slice (s : Bytes) (i j : Nat) : (slice s i j).length = min (j - i) (s.length - i) := by simp [slice]

@[simp] theorem length_toLE (n v : Nat) : (toLE n v).length = n := by simp [toLE]

@[simp] theorem length_toBE (n v : Nat) : (toBE n v).length = n := by simp [toBE]

@[simp] theorem length_pack (e : Endian) (n v : Nat) : (pack e n v).length = n := by cases e <;> simp [pack]

@[simp] theorem length_encWord {w : Nat} (e : Endian) (x : BitVec w) : (encWord e x).length = w / 8 := by simp [encWord]

/-- The block functions answer whole blocks (R33). -/
@[simp] theorem length_encrypt (f : Family) (key block : Bytes) : (Config.encrypt f key block).length = Config.blockBytes f := by
  cases f <;> simp [Config.encrypt, Config.blockBytes]

@[simp] theorem length_decrypt (f : Family) (key block : Bytes) : (Config.decrypt f key block).length = Config.blockBytes f := by
  cases f <;> simp [Config.decrypt, Config.blockBytes]

/-! ## XOR -/

theorem xorBytes_cancel (a k : Bytes) (h : a.length ≤ k.length) : xorBytes (xorBytes a k) k = a := by
  induction a generalizing k with
  | nil => simp [xorBytes]
  | cons x xs ih =>
    cases k with
    | nil => simp at h
    | cons y ys =>
      have hl : xs.length ≤ ys.length := by simpa using h
      have := ih ys hl
      simp only [xorBytes, List.zipWith_cons_cons] at this ⊢
      rw [this, BitVec.xor_assoc, BitVec.xor_self, BitVec.xor_zero]

/-! ## Packing (R12) -/

theorem toLE_succ (n v : Nat) : toLE (n + 1) v = BitVec.ofNat 8 v :: toLE n (v / 2 ^ 8) := by
  simp only [toLE, List.range_succ_eq_map, List.map_cons, List.map_map]
  congr 1
  · simp
  · apply List.map_congr_left
    intro k _
    simp only [Function.comp, Nat.succ_eq_add_one, Nat.mul_add, Nat.pow_add, Nat.mul_one]
    rw [Nat.div_div_eq_div_mul, Nat.mul_comm]

/-- LE_n(toLE_n(v)) = v for v < 2^(8n). -/
theorem ofLE_toLE (n v : Nat) (h : v < 2 ^ (8 * n)) : ofLE (toLE n v) = v := by
  induction n generalizing v with
  | zero =>
    have : v = 0 := by simpa using h
    simp [toLE, ofLE, this]
  | succ n ih =>
    have h' : v / 2 ^ 8 < 2 ^ (8 * n) := by
      rw [Nat.div_lt_iff_lt_mul (by decide)]
      rw [Nat.mul_add, Nat.pow_add] at h
      simpa using h
    have := ih _ h'
    rw [toLE_succ]
    simp only [ofLE, List.foldr_cons, BitVec.toNat_ofNat] at this ⊢
    rw [this]
    omega

theorem ofBE_eq_ofLE_reverse (s : Bytes) : ofBE s = ofLE s.reverse := by
  simp only [ofBE, ofLE, List.foldr_reverse]
  congr 1
  funext acc b
  omega

/-- BE_n(toBE_n(v)) = v for v < 2^(8n). -/
theorem ofBE_toBE (n v : Nat) (h : v < 2 ^ (8 * n)) : ofBE (toBE n v) = v := by
  rw [ofBE_eq_ofLE_reverse, toBE, List.reverse_reverse, ofLE_toLE n v h]

theorem unpack_pack (e : Endian) (n v : Nat) (h : v < 2 ^ (8 * n)) : unpack e (pack e n v) = v := by
  cases e
  · exact ofLE_toLE n v h
  · exact ofBE_toBE n v h

end Sys2Proof.Machine
end

