-- ==== Sys2Proof/Laws/Hash.lean ====
section
/-! SUPPORT. The laws of the hash engines: the compressions keep the number of state words, and what a digest's length
follows from. -/

namespace Sys2Proof.Machine

theorem length_addBack {w : Nat} (h v : List (BitVec w)) : (addBack h v).length = min h.length v.length := by
  simp [addBack]

theorem length_md5Compress {h : List Word32} (blk : Bytes) (hh : h.length = 4) : (md5Compress h blk).length = 4 := by
  simp [md5Compress, length_addBack, hh]

theorem length_sha1Compress {h : List Word32} (blk : Bytes) (hh : h.length = 5) : (sha1Compress h blk).length = 5 := by
  simp [sha1Compress, length_addBack, hh]

theorem length_sha256Compress {h : List Word32} (blk : Bytes) (hh : h.length = 8) : (sha256Compress h blk).length = 8 := by
  simp [sha256Compress, length_addBack, sha2List, hh]

theorem length_sha512Compress {h : List Word64} (blk : Bytes) (hh : h.length = 8) : (sha512Compress h blk).length = 8 := by
  simp [sha512Compress, length_addBack, sha2List, hh]

/-- Absorbing keeps the number of state words, if the compression does. -/
theorem length_absorbAll {w n : Nat} (bb : Nat) {compress : List (BitVec w) → Bytes → List (BitVec w)}
    (hc : ∀ h blk, h.length = n → (compress h blk).length = n) {iv : List (BitVec w)} (hiv : iv.length = n) (padded : Bytes) :
    (absorbAll bb compress iv padded).length = n := by
  unfold absorbAll
  generalize List.range (padded.length / bb) = js
  induction js generalizing iv with
  | nil => exact hiv
  | cons j rest ih => exact ih (hc iv _ hiv)

/-- Lists of words of equal size flatten to the product of the sizes. -/
theorem length_finalize {w : Nat} (p : HashParams) (h : List (BitVec w)) :
    (finalize p h).length = min p.digestWords h.length * (w / 8) := by
  unfold finalize
  rw [← List.length_take]
  generalize h.take p.digestWords = hs
  induction hs with
  | nil => simp
  | cons x rest ih =>
    simp only [List.map_cons, List.flatten_cons, List.length_append, ih, length_encWord, List.length_cons, Nat.add_mul]
    omega

/-- No digest is longer than 64 bytes. -/
theorem length_hash_le (alg : Alg) (m : Bytes) : (hash alg m).length ≤ 64 := by
  cases alg <;> simp only [hash, mdHash, length_finalize, hashParams] <;> omega

theorem length_hmac_le (alg : Alg) (key m : Bytes) : (hmac alg key m).length ≤ 64 := length_hash_le alg _

end Sys2Proof.Machine
end

