-- ==== Sys2Proof/Laws/Memory.lean ====
section
/-! SUPPORT. The laws of tables with rising keys and of the buffers built from them: what a read gives after a write, and
that every operation keeps the canonical form. -/

namespace Sys2Proof.Machine

/-! ## Tables with rising keys -/

@[simp] theorem cellGet?_nil {α : Type} (k : Nat) : cellGet? ([] : List (Nat × α)) k = none := rfl

theorem cellGet?_cellSet_self {α : Type} (m : List (Nat × α)) (k : Nat) (v : α) :
    cellGet? (cellSet m k v) k = some v := by
  induction m with
  | nil => simp [cellSet, cellGet?]
  | cons c rest ih =>
    obtain ⟨a, u⟩ := c
    simp only [cellSet]
    split
    · simp [cellGet?]
    · split
      · simp [cellGet?]
      · next h1 h2 => simp [cellGet?, h1, h2, ih]

theorem cellGet?_cellSet_other {α : Type} (m : List (Nat × α)) (k j : Nat) (v : α) (h : j ≠ k) :
    cellGet? (cellSet m k v) j = cellGet? m j := by
  induction m with
  | nil => simp [cellSet, cellGet?, Ne.symm h]
  | cons c rest ih =>
    obtain ⟨a, u⟩ := c
    simp only [cellSet]
    split
    · next hk => subst hk; simp [cellGet?, Ne.symm h]
    · split
      · next h1 h2 =>
        simp only [cellGet?, if_neg (Ne.symm h)]
        split
        · next h3 => rw [if_neg (by omega), if_pos (by omega)]
        · rfl
      · simp only [cellGet?, ih]

theorem cellsRising_mono {α : Type} {lo lo' : Nat} {m : List (Nat × α)} (h : lo' ≤ lo)
    (hm : cellsRising lo m = true) : cellsRising lo' m = true := by
  cases m with
  | nil => rfl
  | cons c rest =>
    simp only [cellsRising, Bool.and_eq_true, decide_eq_true_eq] at hm ⊢
    exact ⟨by omega, hm.2⟩

theorem cellsRising_cellSet {α : Type} {m : List (Nat × α)} {lo k : Nat} (v : α) (hk : lo ≤ k)
    (hm : cellsRising lo m = true) : cellsRising lo (cellSet m k v) = true := by
  induction m generalizing lo with
  | nil => simp [cellSet, cellsRising, hk]
  | cons c rest ih =>
    obtain ⟨a, u⟩ := c
    simp only [cellsRising, Bool.and_eq_true, decide_eq_true_eq] at hm
    simp only [cellSet]
    split
    · next h => subst h; simp [cellsRising, hm.1, hm.2]
    · split
      · next h1 h2 =>
        simp only [cellsRising, Bool.and_eq_true, decide_eq_true_eq]
        exact ⟨hk, by omega, hm.2⟩
      · simp only [cellsRising, Bool.and_eq_true, decide_eq_true_eq]
        exact ⟨hm.1, ih (by omega) hm.2⟩

theorem cellSet_all {α : Type} {p : Nat × α → Bool} {m : List (Nat × α)} {k : Nat} {v : α} (hk : p (k, v) = true)
    (hm : m.all p = true) : (cellSet m k v).all p = true := by
  induction m with
  | nil => simp [cellSet, hk]
  | cons c rest ih =>
    obtain ⟨a, u⟩ := c
    simp only [List.all_cons, Bool.and_eq_true] at hm
    simp only [cellSet]
    split
    · simp [hk, hm.2]
    · split
      · simp [hk, hm.1, hm.2]
      · simp [hm.1, ih hm.2]

/-! ## Buffers -/

@[simp] theorem Memory.wf_nil (cap : Nat) : Memory.wf cap [] = true := rfl

/-- Writing a byte inside the buffer keeps the canonical form. -/
theorem Memory.wf_cellSet {cap k : Nat} {m : Memory} (v : Byte) (hk : k < cap) (hm : Memory.wf cap m = true) :
    Memory.wf cap (cellSet m k v) = true := by
  simp only [Memory.wf, Bool.and_eq_true] at hm ⊢
  exact ⟨cellsRising_cellSet v (Nat.zero_le k) hm.1, cellSet_all (by simpa using hk) hm.2⟩

/-- A buffer in canonical form is in canonical form for every larger capacity. -/
theorem Memory.wf_mono {cap cap' : Nat} {m : Memory} (h : cap ≤ cap') (hm : Memory.wf cap m = true) :
    Memory.wf cap' m = true := by
  simp only [Memory.wf, Bool.and_eq_true, List.all_eq_true, decide_eq_true_eq] at hm ⊢
  exact ⟨hm.1, fun c hc => Nat.lt_of_lt_of_le (hm.2 c hc) h⟩

theorem cellsRising_cellsFrom (out : Bytes) (k : Nat) : cellsRising k (cellsFrom k out) = true := by
  induction out generalizing k with
  | nil => rfl
  | cons b rest ih => simp [cellsFrom, cellsRising, ih]

theorem cellsFrom_below (out : Bytes) (k : Nat) : ∀ c ∈ cellsFrom k out, c.1 < k + out.length := by
  induction out generalizing k with
  | nil => simp [cellsFrom]
  | cons b rest ih =>
    intro c hc
    simp only [cellsFrom, List.mem_cons, List.length_cons] at hc ⊢
    rcases hc with rfl | hc
    · simp
    · have := ih (k + 1) c hc
      omega

/-- The buffer of an output is in canonical form. -/
theorem Memory.wf_cellsFrom {out : Bytes} {cap : Nat} (h : out.length ≤ cap) :
    Memory.wf cap (cellsFrom 0 out) = true := by
  simp only [Memory.wf, Bool.and_eq_true, List.all_eq_true, decide_eq_true_eq]
  refine ⟨cellsRising_cellsFrom out 0, fun c hc => ?_⟩
  have := cellsFrom_below out 0 c hc
  omega

theorem cellGet?_cellsFrom (out : Bytes) (k j : Nat) : cellGet? (cellsFrom k out) (k + j) = out[j]? := by
  induction out generalizing k j with
  | nil => simp [cellsFrom]
  | cons b rest ih =>
    cases j with
    | zero => simp [cellsFrom, cellGet?]
    | succ j =>
      have : k + (j + 1) = (k + 1) + j := by omega
      rw [this]
      simp only [cellsFrom, cellGet?, List.getElem?_cons_succ]
      rw [if_neg (by omega), if_neg (by omega), ih]

/-! ## Reading and writing a buffer byte -/

@[simp] theorem buf_setBuf_self (s : State) (sp : Space) (m : Memory) : buf (setBuf s sp m) sp = m := by
  cases sp <;> rfl

theorem buf_setBuf_other (s : State) (sp sp' : Space) (m : Memory) (h : sp' ≠ sp) :
    buf (setBuf s sp m) sp' = buf s sp' := by
  cases sp <;> cases sp' <;> first | rfl | exact absurd rfl h

@[simp] theorem bufDraw_setBuf (s : State) (sp sp' : Space) (m : Memory) : bufDraw (setBuf s sp m) sp' = bufDraw s sp' := by
  cases sp <;> cases sp' <;> rfl

/-- A read after a write to the same byte gives the value written. -/
theorem bufByte_writeByte_self (s : State) (sp : Space) (k : Nat) (v : Byte) : bufByte (writeByte s sp k v) sp k = v := by
  simp [bufByte, writeByte, cellGet?_cellSet_self]

/-- A write leaves every other byte of every buffer as it was. -/
theorem bufByte_writeByte_other (s : State) (sp sp' : Space) (k k' : Nat) (v : Byte) (h : (sp', k') ≠ (sp, k)) :
    bufByte (writeByte s sp k v) sp' k' = bufByte s sp' k' := by
  by_cases hs : sp' = sp
  · subst hs
    have hk : k' ≠ k := fun e => h (by rw [e])
    simp [bufByte, writeByte, cellGet?_cellSet_other _ _ _ _ hk]
  · simp [bufByte, writeByte, buf_setBuf_other _ _ _ _ hs]

@[simp] theorem length_memRead (s : State) (sp : Space) (a n : Nat) : (memRead s sp a n).length = n := by
  simp [memRead]

theorem memRead_getElem? (s : State) (sp : Space) (a n k : Nat) (h : k < n) :
    (memRead s sp a n)[k]? = some (bufByte s sp (a + k)) := by
  simp [memRead, h]

/-- Two states whose bytes agree read alike. -/
theorem memRead_congr {s t : State} {sp : Space} {a n : Nat} (h : ∀ k, k < n → bufByte t sp (a + k) = bufByte s sp (a + k)) :
    memRead t sp a n = memRead s sp a n := by
  simp only [memRead]
  exact List.map_congr_left fun k hk => h k (List.mem_range.mp hk)

/-- The start of DOUT after `finish out` is `out`. -/
theorem memRead_finish (out : Bytes) (s : State) : memRead (finish out s) .dout 0 out.length = out := by
  apply List.ext_getElem?
  intro k
  by_cases h : k < out.length
  · rw [memRead_getElem? _ _ _ _ _ h]
    have := cellGet?_cellsFrom out 0 k
    simp only [Nat.zero_add] at this
    simp [bufByte, buf, finish, this, h]
  · rw [List.getElem?_eq_none (by simpa using h), List.getElem?_eq_none (by simpa using h)]

end Sys2Proof.Machine
end

