-- ==== Sys2Proof/Laws/Modes.lean ====
section
/-! SUPPORT. The laws of the chaining controller: how an input is cut into segments, an induction over the segments, and the
length of every mode's output. -/

namespace Sys2Proof.Machine

/-! ## Segments -/

theorem segments_nil (sb : Nat) (h : 0 < sb) : segments sb [] = [] := by
  have : (0 + (sb - 1)) / sb = 0 := Nat.div_eq_of_lt (by omega)
  simp only [segments, List.length_nil, this, List.range_zero, List.map_nil]

theorem slice_drop (x : Bytes) (d i j : Nat) : slice (x.drop d) i j = slice x (i + d) (j + d) := by
  simp only [slice, List.drop_drop]
  congr 1
  · omega
  · congr 1
    omega

/-- The first segment is the first block of the input, the rest are the segments of what follows it. -/
theorem segments_cons {sb : Nat} {x : Bytes} (h : 0 < sb) (hx : x ≠ []) :
    segments sb x = x.take sb :: segments sb (x.drop sb) := by
  have hpos : 0 < x.length := List.length_pos_iff.mpr hx
  have hcount : (x.length + (sb - 1)) / sb = ((x.drop sb).length + (sb - 1)) / sb + 1 := by
    rw [List.length_drop]
    by_cases hle : sb ≤ x.length
    · have : x.length + (sb - 1) = (x.length - sb + (sb - 1)) + sb := by omega
      rw [this, Nat.add_div_right _ h]
    · have h0 : x.length - sb + (sb - 1) = sb - 1 := by omega
      have h1 : x.length + (sb - 1) = (x.length - 1) + sb := by omega
      rw [h0, h1, Nat.add_div_right _ h, Nat.div_eq_of_lt (by omega : sb - 1 < sb),
        Nat.div_eq_of_lt (by omega : x.length - 1 < sb)]
  simp only [segments, hcount, List.range_succ_eq_map, List.map_cons, List.map_map]
  congr 1
  · simp [slice]
  · apply List.map_congr_left
    intro j _
    simp only [Function.comp, Nat.succ_eq_add_one, slice_drop]
    congr 1 <;> simp [Nat.add_mul]

/-- Induction over the segments of an input. -/
theorem segments_induct {sb : Nat} (h : 0 < sb) {P : Bytes → List Bytes → Prop} (nil : P [] [])
    (cons : ∀ x, x ≠ [] → P (x.drop sb) (segments sb (x.drop sb)) → P x (x.take sb :: segments sb (x.drop sb)))
    (x : Bytes) : P x (segments sb x) := by
  induction hn : x.length using Nat.strongRecOn generalizing x with
  | _ n ih =>
    by_cases hx : x = []
    · subst hx
      rw [segments_nil sb h]
      exact nil
    · rw [segments_cons h hx]
      have hpos : 0 < x.length := List.length_pos_iff.mpr hx
      exact cons x hx (ih (x.drop sb).length (by rw [List.length_drop]; omega) (x.drop sb) rfl)

/-- The segments are the input, in order and whole. -/
theorem segments_flatten {sb : Nat} (h : 0 < sb) (x : Bytes) : (segments sb x).flatten = x := by
  refine segments_induct h (P := fun x l => l.flatten = x) rfl (fun x _ ih => ?_) x
  rw [List.flatten_cons, ih, List.take_append_drop]

/-- Where the block size divides the input's length, every segment is a block. -/
theorem segments_full {sb : Nat} (h : 0 < sb) (x : Bytes) (hx : x.length % sb = 0) : ∀ seg ∈ segments sb x, seg.length = sb := by
  have := segments_induct h (P := fun x l => x.length % sb = 0 → ∀ seg ∈ l, seg.length = sb) (by simp)
    (fun x hx ih hmod seg hseg => by
      have hpos : 0 < x.length := List.length_pos_iff.mpr hx
      have hle : sb ≤ x.length := Nat.le_of_dvd hpos (Nat.dvd_of_mod_eq_zero hmod)
      rcases List.mem_cons.mp hseg with rfl | hmem
      · simp [hle]
      · refine ih ?_ seg hmem
        rw [List.length_drop, ← Nat.mod_eq_sub_mod hle, hmod]) x
  exact this hx

/-- No segment is longer than a block. -/
theorem segments_le {sb : Nat} (h : 0 < sb) (x : Bytes) : ∀ seg ∈ segments sb x, seg.length ≤ sb := by
  refine segments_induct h (P := fun _ l => ∀ seg ∈ l, seg.length ≤ sb) (by simp) (fun x _ ih seg hseg => ?_) x
  rcases List.mem_cons.mp hseg with rfl | hmem
  · simp
  · exact ih seg hmem

/-! ## Lengths of the outputs, segment by segment -/

theorem length_ecbSegs {blockFn : Bytes → Bytes} {sb : Nat} (hf : ∀ y, (blockFn y).length = sb) {segs : List Bytes}
    (hs : ∀ seg ∈ segs, seg.length = sb) : (ecbSegs blockFn segs).length = segs.flatten.length := by
  induction segs with
  | nil => rfl
  | cons seg rest ih =>
    simp [ecbSegs, hf, hs seg (List.mem_cons_self), ih fun s h => hs s (List.mem_cons_of_mem _ h)]

theorem length_cbcEncSegs {enc : Bytes → Bytes} {sb : Nat} (hf : ∀ y, (enc y).length = sb) {segs : List Bytes} (fb : Bytes)
    (hs : ∀ seg ∈ segs, seg.length = sb) : (cbcEncSegs enc fb segs).length = segs.flatten.length := by
  induction segs generalizing fb with
  | nil => rfl
  | cons seg rest ih =>
    simp [cbcEncSegs, hf, hs seg (List.mem_cons_self), ih _ fun s h => hs s (List.mem_cons_of_mem _ h)]

theorem length_cbcDecSegs {dec : Bytes → Bytes} {sb : Nat} (hf : ∀ y, (dec y).length = sb) {segs : List Bytes} {fb : Bytes}
    (hfb : fb.length = sb) (hs : ∀ seg ∈ segs, seg.length = sb) :
    (cbcDecSegs dec fb segs).length = segs.flatten.length := by
  induction segs generalizing fb with
  | nil => rfl
  | cons seg rest ih =>
    have hseg := hs seg (List.mem_cons_self)
    simp [cbcDecSegs, hf, hfb, hseg, ih hseg fun s h => hs s (List.mem_cons_of_mem _ h)]

/-- A segment XORed with enough keystream keeps its length. -/
theorem length_xor_keystream {seg o : Bytes} (h : seg.length ≤ o.length) :
    (xorBytes seg (trunc o seg.length)).length = seg.length := by
  simp only [length_xorBytes, length_trunc]
  omega

theorem length_cfbEncSegs {enc : Bytes → Bytes} {sb : Nat} (hf : ∀ y, (enc y).length = sb) {segs : List Bytes} (fb : Bytes)
    (hs : ∀ seg ∈ segs, seg.length ≤ sb) : (cfbEncSegs enc sb fb segs).length = segs.flatten.length := by
  induction segs generalizing fb with
  | nil => rfl
  | cons seg rest ih =>
    simp only [cfbEncSegs, List.length_append, List.flatten_cons]
    rw [length_xor_keystream (by rw [hf]; exact hs seg (List.mem_cons_self)),
      ih _ fun s h => hs s (List.mem_cons_of_mem _ h)]

theorem length_cfbDecSegs {enc : Bytes → Bytes} {sb : Nat} (hf : ∀ y, (enc y).length = sb) {segs : List Bytes} (fb : Bytes)
    (hs : ∀ seg ∈ segs, seg.length ≤ sb) : (cfbDecSegs enc sb fb segs).length = segs.flatten.length := by
  induction segs generalizing fb with
  | nil => rfl
  | cons seg rest ih =>
    simp only [cfbDecSegs, List.length_append, List.flatten_cons]
    rw [length_xor_keystream (by rw [hf]; exact hs seg (List.mem_cons_self)),
      ih _ fun s h => hs s (List.mem_cons_of_mem _ h)]

theorem length_ofbSegs {enc : Bytes → Bytes} {sb : Nat} (hf : ∀ y, (enc y).length = sb) {segs : List Bytes} (fb : Bytes)
    (hs : ∀ seg ∈ segs, seg.length ≤ sb) : (ofbSegs enc fb segs).length = segs.flatten.length := by
  induction segs generalizing fb with
  | nil => rfl
  | cons seg rest ih =>
    simp only [ofbSegs, List.length_append, List.flatten_cons]
    rw [length_xor_keystream (by rw [hf]; exact hs seg (List.mem_cons_self)),
      ih _ fun s h => hs s (List.mem_cons_of_mem _ h)]

theorem length_ctrSegs {enc : Bytes → Bytes} {sb : Nat} (hf : ∀ y, (enc y).length = sb) (iv : Bytes) (j : Nat)
    {segs : List Bytes} (hs : ∀ seg ∈ segs, seg.length ≤ sb) :
    (ctrSegs enc sb iv j segs).length = segs.flatten.length := by
  induction segs generalizing j with
  | nil => rfl
  | cons seg rest ih =>
    simp only [ctrSegs, List.length_append, List.flatten_cons]
    rw [length_xor_keystream (by rw [hf]; exact hs seg (List.mem_cons_self)),
      ih _ fun s h => hs s (List.mem_cons_of_mem _ h)]

/-- Every mode's output is as long as its input: whole blocks for ECB and CBC, any length for the stream modes. -/
theorem length_runMode {enc dec : Bytes → Bytes} {sb : Nat} (h : 0 < sb) (he : ∀ y, (enc y).length = sb)
    (hd : ∀ y, (dec y).length = sb) (d : Dir) (m : Mode) {iv x : Bytes} (hiv : m = .cbc → iv.length = sb)
    (hx : m = .ecb ∨ m = .cbc → x.length % sb = 0) : (runMode enc dec sb d m iv x).length = x.length := by
  have hflat := congrArg List.length (segments_flatten h x)
  have hle := segments_le h x
  cases m <;> cases d <;> simp only [runMode]
  · rw [length_ecbSegs he (segments_full h x (hx (.inl rfl))), hflat]
  · rw [length_ecbSegs hd (segments_full h x (hx (.inl rfl))), hflat]
  · rw [length_cbcEncSegs he iv (segments_full h x (hx (.inr rfl))), hflat]
  · rw [length_cbcDecSegs hd (hiv rfl) (segments_full h x (hx (.inr rfl))), hflat]
  · rw [length_cfbEncSegs he iv hle, hflat]
  · rw [length_cfbDecSegs he iv hle, hflat]
  · rw [length_ofbSegs he iv hle, hflat]
  · rw [length_ofbSegs he iv hle, hflat]
  · rw [length_ctrSegs he iv 0 hle, hflat]
  · rw [length_ctrSegs he iv 0 hle, hflat]

end Sys2Proof.Machine
end

