-- ==== Sys2Proof/Laws/State.lean ====
section
/-! SUPPORT. What each update of the state does to each field: one lemma a field, so that no proof unfolds an update. -/

namespace Sys2Proof.Machine

/-! ## finish -/

@[simp] theorem finish_params (out : Bytes) (s : State) : (finish out s).params = s.params := rfl
@[simp] theorem finish_cmd (out : Bytes) (s : State) : (finish out s).cmd = s.cmd := rfl
@[simp] theorem finish_status (out : Bytes) (s : State) : (finish out s).status = statusOk := rfl
@[simp] theorem finish_keylen (out : Bytes) (s : State) : (finish out s).keylen = s.keylen := rfl
@[simp] theorem finish_ivlen (out : Bytes) (s : State) : (finish out s).ivlen = s.ivlen := rfl
@[simp] theorem finish_dinlen (out : Bytes) (s : State) : (finish out s).dinlen = s.dinlen := rfl
@[simp] theorem finish_doutlen (out : Bytes) (s : State) : (finish out s).doutlen = BitVec.ofNat 32 out.length := rfl
@[simp] theorem finish_keymem (out : Bytes) (s : State) : (finish out s).keymem = s.keymem := rfl
@[simp] theorem finish_ivmem (out : Bytes) (s : State) : (finish out s).ivmem = s.ivmem := rfl
@[simp] theorem finish_din (out : Bytes) (s : State) : (finish out s).din = s.din := rfl
@[simp] theorem finish_dout (out : Bytes) (s : State) : (finish out s).dout = cellsFrom 0 out := rfl
@[simp] theorem finish_inflight (out : Bytes) (s : State) : (finish out s).inflight = none := rfl
@[simp] theorem finish_hostFault (out : Bytes) (s : State) : (finish out s).hostFault = s.hostFault := rfl
@[simp] theorem finish_hosts (out : Bytes) (s : State) : (finish out s).hosts = s.hosts := rfl
@[simp] theorem finish_resetInput (out : Bytes) (s : State) : (finish out s).resetInput = s.resetInput := rfl
@[simp] theorem finish_schedule (out : Bytes) (s : State) : (finish out s).schedule = s.schedule := rfl
@[simp] theorem finish_inputDraw (out : Bytes) (s : State) : (finish out s).inputDraw = s.inputDraw := rfl
@[simp] theorem finish_doutDraw (out : Bytes) (s : State) : (finish out s).doutDraw = s.draws := rfl
@[simp] theorem finish_draws (out : Bytes) (s : State) : (finish out s).draws = s.draws + 1 := rfl

/-! ## finishUnspecified -/

@[simp] theorem finishUnspecified_params (s : State) : (finishUnspecified s).params = s.params := rfl
@[simp] theorem finishUnspecified_cmd (s : State) : (finishUnspecified s).cmd = s.cmd := rfl
@[simp] theorem finishUnspecified_status (s : State) : (finishUnspecified s).status = statusOk := rfl
@[simp] theorem finishUnspecified_keylen (s : State) : (finishUnspecified s).keylen = s.keylen := rfl
@[simp] theorem finishUnspecified_ivlen (s : State) : (finishUnspecified s).ivlen = s.ivlen := rfl
@[simp] theorem finishUnspecified_dinlen (s : State) : (finishUnspecified s).dinlen = s.dinlen := rfl
@[simp] theorem finishUnspecified_doutlen (s : State) : (finishUnspecified s).doutlen = BitVec.ofNat 32 (Config.freeLength s.draws % (s.params.outCap + 1)) := rfl
@[simp] theorem finishUnspecified_keymem (s : State) : (finishUnspecified s).keymem = s.keymem := rfl
@[simp] theorem finishUnspecified_ivmem (s : State) : (finishUnspecified s).ivmem = s.ivmem := rfl
@[simp] theorem finishUnspecified_din (s : State) : (finishUnspecified s).din = s.din := rfl
@[simp] theorem finishUnspecified_dout (s : State) : (finishUnspecified s).dout = [] := rfl
@[simp] theorem finishUnspecified_inflight (s : State) : (finishUnspecified s).inflight = none := rfl
@[simp] theorem finishUnspecified_hostFault (s : State) : (finishUnspecified s).hostFault = s.hostFault := rfl
@[simp] theorem finishUnspecified_hosts (s : State) : (finishUnspecified s).hosts = s.hosts := rfl
@[simp] theorem finishUnspecified_resetInput (s : State) : (finishUnspecified s).resetInput = s.resetInput := rfl
@[simp] theorem finishUnspecified_schedule (s : State) : (finishUnspecified s).schedule = s.schedule := rfl
@[simp] theorem finishUnspecified_inputDraw (s : State) : (finishUnspecified s).inputDraw = s.inputDraw := rfl
@[simp] theorem finishUnspecified_doutDraw (s : State) : (finishUnspecified s).doutDraw = s.draws := rfl
@[simp] theorem finishUnspecified_draws (s : State) : (finishUnspecified s).draws = s.draws + 1 := rfl

/-! ## raiseError -/

@[simp] theorem raiseError_params (c : ErrCode) (s : State) : (raiseError c s).params = s.params := rfl
@[simp] theorem raiseError_cmd (c : ErrCode) (s : State) : (raiseError c s).cmd = s.cmd := rfl
@[simp] theorem raiseError_status (c : ErrCode) (s : State) : (raiseError c s).status = statusFailed c := rfl
@[simp] theorem raiseError_keylen (c : ErrCode) (s : State) : (raiseError c s).keylen = s.keylen := rfl
@[simp] theorem raiseError_ivlen (c : ErrCode) (s : State) : (raiseError c s).ivlen = s.ivlen := rfl
@[simp] theorem raiseError_dinlen (c : ErrCode) (s : State) : (raiseError c s).dinlen = s.dinlen := rfl
@[simp] theorem raiseError_doutlen (c : ErrCode) (s : State) : (raiseError c s).doutlen = 0 := rfl
@[simp] theorem raiseError_keymem (c : ErrCode) (s : State) : (raiseError c s).keymem = s.keymem := rfl
@[simp] theorem raiseError_ivmem (c : ErrCode) (s : State) : (raiseError c s).ivmem = s.ivmem := rfl
@[simp] theorem raiseError_din (c : ErrCode) (s : State) : (raiseError c s).din = s.din := rfl
@[simp] theorem raiseError_dout (c : ErrCode) (s : State) : (raiseError c s).dout = s.dout := rfl
@[simp] theorem raiseError_inflight (c : ErrCode) (s : State) : (raiseError c s).inflight = none := rfl
@[simp] theorem raiseError_hostFault (c : ErrCode) (s : State) : (raiseError c s).hostFault = s.hostFault := rfl
@[simp] theorem raiseError_hosts (c : ErrCode) (s : State) : (raiseError c s).hosts = s.hosts := rfl
@[simp] theorem raiseError_resetInput (c : ErrCode) (s : State) : (raiseError c s).resetInput = s.resetInput := rfl
@[simp] theorem raiseError_schedule (c : ErrCode) (s : State) : (raiseError c s).schedule = s.schedule := rfl
@[simp] theorem raiseError_inputDraw (c : ErrCode) (s : State) : (raiseError c s).inputDraw = s.inputDraw := rfl
@[simp] theorem raiseError_doutDraw (c : ErrCode) (s : State) : (raiseError c s).doutDraw = s.doutDraw := rfl
@[simp] theorem raiseError_draws (c : ErrCode) (s : State) : (raiseError c s).draws = s.draws := rfl

/-! ## resetEvent -/

@[simp] theorem resetEvent_params (s : State) : (resetEvent s).params = s.params := rfl
@[simp] theorem resetEvent_cmd (s : State) : (resetEvent s).cmd = 0 := rfl
@[simp] theorem resetEvent_status (s : State) : (resetEvent s).status = 0 := rfl
@[simp] theorem resetEvent_keylen (s : State) : (resetEvent s).keylen = 0 := rfl
@[simp] theorem resetEvent_ivlen (s : State) : (resetEvent s).ivlen = 0 := rfl
@[simp] theorem resetEvent_dinlen (s : State) : (resetEvent s).dinlen = 0 := rfl
@[simp] theorem resetEvent_doutlen (s : State) : (resetEvent s).doutlen = 0 := rfl
@[simp] theorem resetEvent_keymem (s : State) : (resetEvent s).keymem = [] := rfl
@[simp] theorem resetEvent_ivmem (s : State) : (resetEvent s).ivmem = [] := rfl
@[simp] theorem resetEvent_din (s : State) : (resetEvent s).din = [] := rfl
@[simp] theorem resetEvent_dout (s : State) : (resetEvent s).dout = [] := rfl
@[simp] theorem resetEvent_inflight (s : State) : (resetEvent s).inflight = none := rfl
@[simp] theorem resetEvent_hostFault (s : State) : (resetEvent s).hostFault = s.hostFault := rfl
@[simp] theorem resetEvent_hosts (s : State) : (resetEvent s).hosts = s.hosts := rfl
@[simp] theorem resetEvent_resetInput (s : State) : (resetEvent s).resetInput = s.resetInput := rfl
@[simp] theorem resetEvent_schedule (s : State) : (resetEvent s).schedule = s.schedule := rfl
@[simp] theorem resetEvent_inputDraw (s : State) : (resetEvent s).inputDraw = s.draws := rfl
@[simp] theorem resetEvent_doutDraw (s : State) : (resetEvent s).doutDraw = s.draws := rfl
@[simp] theorem resetEvent_draws (s : State) : (resetEvent s).draws = s.draws + 1 := rfl

/-! ## setHost -/

@[simp] theorem setHost_params (s : State) (i : Nat) (h : HostAgent) : (setHost s i h).params = s.params := rfl
@[simp] theorem setHost_cmd (s : State) (i : Nat) (h : HostAgent) : (setHost s i h).cmd = s.cmd := rfl
@[simp] theorem setHost_status (s : State) (i : Nat) (h : HostAgent) : (setHost s i h).status = s.status := rfl
@[simp] theorem setHost_keylen (s : State) (i : Nat) (h : HostAgent) : (setHost s i h).keylen = s.keylen := rfl
@[simp] theorem setHost_ivlen (s : State) (i : Nat) (h : HostAgent) : (setHost s i h).ivlen = s.ivlen := rfl
@[simp] theorem setHost_dinlen (s : State) (i : Nat) (h : HostAgent) : (setHost s i h).dinlen = s.dinlen := rfl
@[simp] theorem setHost_doutlen (s : State) (i : Nat) (h : HostAgent) : (setHost s i h).doutlen = s.doutlen := rfl
@[simp] theorem setHost_keymem (s : State) (i : Nat) (h : HostAgent) : (setHost s i h).keymem = s.keymem := rfl
@[simp] theorem setHost_ivmem (s : State) (i : Nat) (h : HostAgent) : (setHost s i h).ivmem = s.ivmem := rfl
@[simp] theorem setHost_din (s : State) (i : Nat) (h : HostAgent) : (setHost s i h).din = s.din := rfl
@[simp] theorem setHost_dout (s : State) (i : Nat) (h : HostAgent) : (setHost s i h).dout = s.dout := rfl
@[simp] theorem setHost_inflight (s : State) (i : Nat) (h : HostAgent) : (setHost s i h).inflight = s.inflight := rfl
@[simp] theorem setHost_hostFault (s : State) (i : Nat) (h : HostAgent) : (setHost s i h).hostFault = s.hostFault := rfl
@[simp] theorem setHost_hosts (s : State) (i : Nat) (h : HostAgent) : (setHost s i h).hosts = s.hosts.set i h := rfl
@[simp] theorem setHost_resetInput (s : State) (i : Nat) (h : HostAgent) : (setHost s i h).resetInput = s.resetInput := rfl
@[simp] theorem setHost_schedule (s : State) (i : Nat) (h : HostAgent) : (setHost s i h).schedule = s.schedule := rfl
@[simp] theorem setHost_inputDraw (s : State) (i : Nat) (h : HostAgent) : (setHost s i h).inputDraw = s.inputDraw := rfl
@[simp] theorem setHost_doutDraw (s : State) (i : Nat) (h : HostAgent) : (setHost s i h).doutDraw = s.doutDraw := rfl
@[simp] theorem setHost_draws (s : State) (i : Nat) (h : HostAgent) : (setHost s i h).draws = s.draws := rfl

/-! ## withFetchWord -/

@[simp] theorem withFetchWord_params (s : State) (nbits w : Nat) : (s.withFetchWord nbits w).params = s.params := rfl
@[simp] theorem withFetchWord_cmd (s : State) (nbits w : Nat) : (s.withFetchWord nbits w).cmd = BitVec.ofNat 32 (w % 2 ^ nbits) := rfl
@[simp] theorem withFetchWord_status (s : State) (nbits w : Nat) : (s.withFetchWord nbits w).status = statusIssued := rfl
@[simp] theorem withFetchWord_keylen (s : State) (nbits w : Nat) : (s.withFetchWord nbits w).keylen = s.keylen := rfl
@[simp] theorem withFetchWord_ivlen (s : State) (nbits w : Nat) : (s.withFetchWord nbits w).ivlen = s.ivlen := rfl
@[simp] theorem withFetchWord_dinlen (s : State) (nbits w : Nat) : (s.withFetchWord nbits w).dinlen = s.dinlen := rfl
@[simp] theorem withFetchWord_doutlen (s : State) (nbits w : Nat) : (s.withFetchWord nbits w).doutlen = s.doutlen := rfl
@[simp] theorem withFetchWord_keymem (s : State) (nbits w : Nat) : (s.withFetchWord nbits w).keymem = s.keymem := rfl
@[simp] theorem withFetchWord_ivmem (s : State) (nbits w : Nat) : (s.withFetchWord nbits w).ivmem = s.ivmem := rfl
@[simp] theorem withFetchWord_din (s : State) (nbits w : Nat) : (s.withFetchWord nbits w).din = s.din := rfl
@[simp] theorem withFetchWord_dout (s : State) (nbits w : Nat) : (s.withFetchWord nbits w).dout = s.dout := rfl
@[simp] theorem withFetchWord_inflight (s : State) (nbits w : Nat) : (s.withFetchWord nbits w).inflight = some { word := BitVec.ofNat 32 (w % 2 ^ nbits), wait := 0 } := rfl
@[simp] theorem withFetchWord_hostFault (s : State) (nbits w : Nat) : (s.withFetchWord nbits w).hostFault = s.hostFault := rfl
@[simp] theorem withFetchWord_hosts (s : State) (nbits w : Nat) : (s.withFetchWord nbits w).hosts = s.hosts := rfl
@[simp] theorem withFetchWord_resetInput (s : State) (nbits w : Nat) : (s.withFetchWord nbits w).resetInput = [] := rfl
@[simp] theorem withFetchWord_schedule (s : State) (nbits w : Nat) : (s.withFetchWord nbits w).schedule = s.schedule := rfl
@[simp] theorem withFetchWord_inputDraw (s : State) (nbits w : Nat) : (s.withFetchWord nbits w).inputDraw = s.inputDraw := rfl
@[simp] theorem withFetchWord_doutDraw (s : State) (nbits w : Nat) : (s.withFetchWord nbits w).doutDraw = s.doutDraw := rfl
@[simp] theorem withFetchWord_draws (s : State) (nbits w : Nat) : (s.withFetchWord nbits w).draws = s.draws := rfl

/-! ## nextDraw and stopHost -/

@[simp] theorem nextDraw_params (s : State) : (nextDraw s).params = s.params := rfl
@[simp] theorem nextDraw_cmd (s : State) : (nextDraw s).cmd = s.cmd := rfl
@[simp] theorem nextDraw_status (s : State) : (nextDraw s).status = s.status := rfl
@[simp] theorem nextDraw_keylen (s : State) : (nextDraw s).keylen = s.keylen := rfl
@[simp] theorem nextDraw_ivlen (s : State) : (nextDraw s).ivlen = s.ivlen := rfl
@[simp] theorem nextDraw_dinlen (s : State) : (nextDraw s).dinlen = s.dinlen := rfl
@[simp] theorem nextDraw_doutlen (s : State) : (nextDraw s).doutlen = s.doutlen := rfl
@[simp] theorem nextDraw_keymem (s : State) : (nextDraw s).keymem = s.keymem := rfl
@[simp] theorem nextDraw_ivmem (s : State) : (nextDraw s).ivmem = s.ivmem := rfl
@[simp] theorem nextDraw_din (s : State) : (nextDraw s).din = s.din := rfl
@[simp] theorem nextDraw_dout (s : State) : (nextDraw s).dout = s.dout := rfl
@[simp] theorem nextDraw_inflight (s : State) : (nextDraw s).inflight = s.inflight := rfl
@[simp] theorem nextDraw_hostFault (s : State) : (nextDraw s).hostFault = s.hostFault := rfl
@[simp] theorem nextDraw_hosts (s : State) : (nextDraw s).hosts = s.hosts := rfl
@[simp] theorem nextDraw_resetInput (s : State) : (nextDraw s).resetInput = s.resetInput := rfl
@[simp] theorem nextDraw_schedule (s : State) : (nextDraw s).schedule = s.schedule := rfl
@[simp] theorem nextDraw_inputDraw (s : State) : (nextDraw s).inputDraw = s.inputDraw := rfl
@[simp] theorem nextDraw_doutDraw (s : State) : (nextDraw s).doutDraw = s.doutDraw := rfl
@[simp] theorem nextDraw_draws (s : State) : (nextDraw s).draws = s.draws + 1 := rfl

@[simp] theorem stopHost_params (i : Nat) (h : HostAgent) (s : State) (e : BusError) :
    (stopHost i h s e).params = s.params := rfl
@[simp] theorem stopHost_cmd (i : Nat) (h : HostAgent) (s : State) (e : BusError) :
    (stopHost i h s e).cmd = s.cmd := rfl
@[simp] theorem stopHost_status (i : Nat) (h : HostAgent) (s : State) (e : BusError) :
    (stopHost i h s e).status = s.status := rfl
@[simp] theorem stopHost_keylen (i : Nat) (h : HostAgent) (s : State) (e : BusError) :
    (stopHost i h s e).keylen = s.keylen := rfl
@[simp] theorem stopHost_ivlen (i : Nat) (h : HostAgent) (s : State) (e : BusError) :
    (stopHost i h s e).ivlen = s.ivlen := rfl
@[simp] theorem stopHost_dinlen (i : Nat) (h : HostAgent) (s : State) (e : BusError) :
    (stopHost i h s e).dinlen = s.dinlen := rfl
@[simp] theorem stopHost_doutlen (i : Nat) (h : HostAgent) (s : State) (e : BusError) :
    (stopHost i h s e).doutlen = s.doutlen := rfl
@[simp] theorem stopHost_keymem (i : Nat) (h : HostAgent) (s : State) (e : BusError) :
    (stopHost i h s e).keymem = s.keymem := rfl
@[simp] theorem stopHost_ivmem (i : Nat) (h : HostAgent) (s : State) (e : BusError) :
    (stopHost i h s e).ivmem = s.ivmem := rfl
@[simp] theorem stopHost_din (i : Nat) (h : HostAgent) (s : State) (e : BusError) :
    (stopHost i h s e).din = s.din := rfl
@[simp] theorem stopHost_dout (i : Nat) (h : HostAgent) (s : State) (e : BusError) :
    (stopHost i h s e).dout = s.dout := rfl
@[simp] theorem stopHost_inflight (i : Nat) (h : HostAgent) (s : State) (e : BusError) :
    (stopHost i h s e).inflight = s.inflight := rfl
@[simp] theorem stopHost_hostFault (i : Nat) (h : HostAgent) (s : State) (e : BusError) :
    (stopHost i h s e).hostFault = s.hostFault.or (some e) := rfl
@[simp] theorem stopHost_hosts (i : Nat) (h : HostAgent) (s : State) (e : BusError) :
    (stopHost i h s e).hosts = s.hosts.set i { h with run := .faulted } := rfl
@[simp] theorem stopHost_resetInput (i : Nat) (h : HostAgent) (s : State) (e : BusError) :
    (stopHost i h s e).resetInput = s.resetInput := rfl
@[simp] theorem stopHost_schedule (i : Nat) (h : HostAgent) (s : State) (e : BusError) :
    (stopHost i h s e).schedule = s.schedule := rfl
@[simp] theorem stopHost_inputDraw (i : Nat) (h : HostAgent) (s : State) (e : BusError) :
    (stopHost i h s e).inputDraw = s.inputDraw := rfl
@[simp] theorem stopHost_doutDraw (i : Nat) (h : HostAgent) (s : State) (e : BusError) :
    (stopHost i h s e).doutDraw = s.doutDraw := rfl
@[simp] theorem stopHost_draws (i : Nat) (h : HostAgent) (s : State) (e : BusError) :
    (stopHost i h s e).draws = s.draws := rfl

/-! ## choose and issue -/

@[simp] theorem choose_params (s : State) : (choose s).2.params = s.params := by unfold choose; split <;> rfl
@[simp] theorem choose_cmd (s : State) : (choose s).2.cmd = s.cmd := by unfold choose; split <;> rfl
@[simp] theorem choose_status (s : State) : (choose s).2.status = s.status := by unfold choose; split <;> rfl
@[simp] theorem choose_keylen (s : State) : (choose s).2.keylen = s.keylen := by unfold choose; split <;> rfl
@[simp] theorem choose_ivlen (s : State) : (choose s).2.ivlen = s.ivlen := by unfold choose; split <;> rfl
@[simp] theorem choose_dinlen (s : State) : (choose s).2.dinlen = s.dinlen := by unfold choose; split <;> rfl
@[simp] theorem choose_doutlen (s : State) : (choose s).2.doutlen = s.doutlen := by unfold choose; split <;> rfl
@[simp] theorem choose_keymem (s : State) : (choose s).2.keymem = s.keymem := by unfold choose; split <;> rfl
@[simp] theorem choose_ivmem (s : State) : (choose s).2.ivmem = s.ivmem := by unfold choose; split <;> rfl
@[simp] theorem choose_din (s : State) : (choose s).2.din = s.din := by unfold choose; split <;> rfl
@[simp] theorem choose_dout (s : State) : (choose s).2.dout = s.dout := by unfold choose; split <;> rfl
@[simp] theorem choose_inflight (s : State) : (choose s).2.inflight = s.inflight := by unfold choose; split <;> rfl
@[simp] theorem choose_hostFault (s : State) : (choose s).2.hostFault = s.hostFault := by unfold choose; split <;> rfl
@[simp] theorem choose_hosts (s : State) : (choose s).2.hosts = s.hosts := by unfold choose; split <;> rfl
@[simp] theorem choose_resetInput (s : State) : (choose s).2.resetInput = s.resetInput := by unfold choose; split <;> rfl
@[simp] theorem choose_inputDraw (s : State) : (choose s).2.inputDraw = s.inputDraw := by unfold choose; split <;> rfl
@[simp] theorem choose_doutDraw (s : State) : (choose s).2.doutDraw = s.doutDraw := by unfold choose; split <;> rfl

@[simp] theorem issue_params (v : Word32) (s : State) : (issue v s).params = s.params := by simp [issue]
@[simp] theorem issue_cmd (v : Word32) (s : State) : (issue v s).cmd = v := by simp [issue]
@[simp] theorem issue_status (v : Word32) (s : State) : (issue v s).status = statusIssued := by simp [issue]
@[simp] theorem issue_keylen (v : Word32) (s : State) : (issue v s).keylen = s.keylen := by simp [issue]
@[simp] theorem issue_ivlen (v : Word32) (s : State) : (issue v s).ivlen = s.ivlen := by simp [issue]
@[simp] theorem issue_dinlen (v : Word32) (s : State) : (issue v s).dinlen = s.dinlen := by simp [issue]
@[simp] theorem issue_doutlen (v : Word32) (s : State) : (issue v s).doutlen = s.doutlen := by simp [issue]
@[simp] theorem issue_keymem (v : Word32) (s : State) : (issue v s).keymem = s.keymem := by simp [issue]
@[simp] theorem issue_ivmem (v : Word32) (s : State) : (issue v s).ivmem = s.ivmem := by simp [issue]
@[simp] theorem issue_din (v : Word32) (s : State) : (issue v s).din = s.din := by simp [issue]
@[simp] theorem issue_dout (v : Word32) (s : State) : (issue v s).dout = s.dout := by simp [issue]
@[simp] theorem issue_inflight (v : Word32) (s : State) : (issue v s).inflight = some { word := v, wait := (choose s).1 } := by simp [issue]
@[simp] theorem issue_hostFault (v : Word32) (s : State) : (issue v s).hostFault = s.hostFault := by simp [issue]
@[simp] theorem issue_hosts (v : Word32) (s : State) : (issue v s).hosts = s.hosts := by simp [issue]
@[simp] theorem issue_resetInput (v : Word32) (s : State) : (issue v s).resetInput = s.resetInput := by simp [issue]
@[simp] theorem issue_schedule (v : Word32) (s : State) : (issue v s).schedule = (choose s).2.schedule := by simp [issue]
@[simp] theorem issue_inputDraw (v : Word32) (s : State) : (issue v s).inputDraw = s.inputDraw := by simp [issue]
@[simp] theorem issue_doutDraw (v : Word32) (s : State) : (issue v s).doutDraw = s.doutDraw := by simp [issue]
@[simp] theorem issue_draws (v : Word32) (s : State) : (issue v s).draws = (choose s).2.draws := by simp [issue]

/-! ## afterRead -/

@[simp] theorem afterRead_params (s : State) : (afterRead s).params = s.params := by unfold afterRead; split <;> rfl
@[simp] theorem afterRead_cmd (s : State) : (afterRead s).cmd = s.cmd := by unfold afterRead; split <;> rfl
@[simp] theorem afterRead_status (s : State) : (afterRead s).status = s.status := by unfold afterRead; split <;> rfl
@[simp] theorem afterRead_keylen (s : State) : (afterRead s).keylen = s.keylen := by unfold afterRead; split <;> rfl
@[simp] theorem afterRead_ivlen (s : State) : (afterRead s).ivlen = s.ivlen := by unfold afterRead; split <;> rfl
@[simp] theorem afterRead_dinlen (s : State) : (afterRead s).dinlen = s.dinlen := by unfold afterRead; split <;> rfl
@[simp] theorem afterRead_doutlen (s : State) : (afterRead s).doutlen = s.doutlen := by unfold afterRead; split <;> rfl
@[simp] theorem afterRead_keymem (s : State) : (afterRead s).keymem = s.keymem := by unfold afterRead; split <;> rfl
@[simp] theorem afterRead_ivmem (s : State) : (afterRead s).ivmem = s.ivmem := by unfold afterRead; split <;> rfl
@[simp] theorem afterRead_din (s : State) : (afterRead s).din = s.din := by unfold afterRead; split <;> rfl
@[simp] theorem afterRead_dout (s : State) : (afterRead s).dout = s.dout := by unfold afterRead; split <;> rfl
@[simp] theorem afterRead_inflight (s : State) : (afterRead s).inflight = s.inflight := by unfold afterRead; split <;> rfl
@[simp] theorem afterRead_hostFault (s : State) : (afterRead s).hostFault = s.hostFault := by unfold afterRead; split <;> rfl
@[simp] theorem afterRead_hosts (s : State) : (afterRead s).hosts = s.hosts := by unfold afterRead; split <;> rfl
@[simp] theorem afterRead_resetInput (s : State) : (afterRead s).resetInput = s.resetInput := by unfold afterRead; split <;> rfl
@[simp] theorem afterRead_schedule (s : State) : (afterRead s).schedule = s.schedule := by unfold afterRead; split <;> rfl
@[simp] theorem afterRead_inputDraw (s : State) : (afterRead s).inputDraw = s.inputDraw := by unfold afterRead; split <;> rfl
@[simp] theorem afterRead_doutDraw (s : State) : (afterRead s).doutDraw = s.doutDraw := by unfold afterRead; split <;> rfl

/-! ## writeByte -/

@[simp] theorem writeByte_params (s : State) (sp : Space) (k : Nat) (v : Byte) : (writeByte s sp k v).params = s.params := by cases sp <;> rfl
@[simp] theorem writeByte_cmd (s : State) (sp : Space) (k : Nat) (v : Byte) : (writeByte s sp k v).cmd = s.cmd := by cases sp <;> rfl
@[simp] theorem writeByte_status (s : State) (sp : Space) (k : Nat) (v : Byte) : (writeByte s sp k v).status = s.status := by cases sp <;> rfl
@[simp] theorem writeByte_keylen (s : State) (sp : Space) (k : Nat) (v : Byte) : (writeByte s sp k v).keylen = s.keylen := by cases sp <;> rfl
@[simp] theorem writeByte_ivlen (s : State) (sp : Space) (k : Nat) (v : Byte) : (writeByte s sp k v).ivlen = s.ivlen := by cases sp <;> rfl
@[simp] theorem writeByte_dinlen (s : State) (sp : Space) (k : Nat) (v : Byte) : (writeByte s sp k v).dinlen = s.dinlen := by cases sp <;> rfl
@[simp] theorem writeByte_doutlen (s : State) (sp : Space) (k : Nat) (v : Byte) : (writeByte s sp k v).doutlen = s.doutlen := by cases sp <;> rfl
@[simp] theorem writeByte_inflight (s : State) (sp : Space) (k : Nat) (v : Byte) : (writeByte s sp k v).inflight = s.inflight := by cases sp <;> rfl
@[simp] theorem writeByte_hostFault (s : State) (sp : Space) (k : Nat) (v : Byte) : (writeByte s sp k v).hostFault = s.hostFault := by cases sp <;> rfl
@[simp] theorem writeByte_hosts (s : State) (sp : Space) (k : Nat) (v : Byte) : (writeByte s sp k v).hosts = s.hosts := by cases sp <;> rfl
@[simp] theorem writeByte_resetInput (s : State) (sp : Space) (k : Nat) (v : Byte) : (writeByte s sp k v).resetInput = s.resetInput := by cases sp <;> rfl
@[simp] theorem writeByte_schedule (s : State) (sp : Space) (k : Nat) (v : Byte) : (writeByte s sp k v).schedule = s.schedule := by cases sp <;> rfl
@[simp] theorem writeByte_inputDraw (s : State) (sp : Space) (k : Nat) (v : Byte) : (writeByte s sp k v).inputDraw = s.inputDraw := by cases sp <;> rfl
@[simp] theorem writeByte_doutDraw (s : State) (sp : Space) (k : Nat) (v : Byte) : (writeByte s sp k v).doutDraw = s.doutDraw := by cases sp <;> rfl
@[simp] theorem writeByte_draws (s : State) (sp : Space) (k : Nat) (v : Byte) : (writeByte s sp k v).draws = s.draws := by cases sp <;> rfl

/-! ## writeWindowByte: an input buffer may change, nothing else does -/

@[simp] theorem writeWindowByte_params (s : State) (off : Nat) (v : Byte) : (writeWindowByte s off v).params = s.params := by
  unfold writeWindowByte
  split <;> first | rfl | exact writeByte_params _ _ _ _
@[simp] theorem writeWindowByte_cmd (s : State) (off : Nat) (v : Byte) : (writeWindowByte s off v).cmd = s.cmd := by
  unfold writeWindowByte
  split <;> first | rfl | exact writeByte_cmd _ _ _ _
@[simp] theorem writeWindowByte_status (s : State) (off : Nat) (v : Byte) : (writeWindowByte s off v).status = s.status := by
  unfold writeWindowByte
  split <;> first | rfl | exact writeByte_status _ _ _ _
@[simp] theorem writeWindowByte_keylen (s : State) (off : Nat) (v : Byte) : (writeWindowByte s off v).keylen = s.keylen := by
  unfold writeWindowByte
  split <;> first | rfl | exact writeByte_keylen _ _ _ _
@[simp] theorem writeWindowByte_ivlen (s : State) (off : Nat) (v : Byte) : (writeWindowByte s off v).ivlen = s.ivlen := by
  unfold writeWindowByte
  split <;> first | rfl | exact writeByte_ivlen _ _ _ _
@[simp] theorem writeWindowByte_dinlen (s : State) (off : Nat) (v : Byte) : (writeWindowByte s off v).dinlen = s.dinlen := by
  unfold writeWindowByte
  split <;> first | rfl | exact writeByte_dinlen _ _ _ _
@[simp] theorem writeWindowByte_doutlen (s : State) (off : Nat) (v : Byte) : (writeWindowByte s off v).doutlen = s.doutlen := by
  unfold writeWindowByte
  split <;> first | rfl | exact writeByte_doutlen _ _ _ _
@[simp] theorem writeWindowByte_dout (s : State) (off : Nat) (v : Byte) : (writeWindowByte s off v).dout = s.dout := by
  unfold writeWindowByte
  split
  · rfl
  · next sp k h1 h2 => cases sp <;> first | rfl | exact absurd rfl h1
  · rfl
@[simp] theorem writeWindowByte_inflight (s : State) (off : Nat) (v : Byte) : (writeWindowByte s off v).inflight = s.inflight := by
  unfold writeWindowByte
  split <;> first | rfl | exact writeByte_inflight _ _ _ _
@[simp] theorem writeWindowByte_hostFault (s : State) (off : Nat) (v : Byte) : (writeWindowByte s off v).hostFault = s.hostFault := by
  unfold writeWindowByte
  split <;> first | rfl | exact writeByte_hostFault _ _ _ _
@[simp] theorem writeWindowByte_hosts (s : State) (off : Nat) (v : Byte) : (writeWindowByte s off v).hosts = s.hosts := by
  unfold writeWindowByte
  split <;> first | rfl | exact writeByte_hosts _ _ _ _
@[simp] theorem writeWindowByte_resetInput (s : State) (off : Nat) (v : Byte) : (writeWindowByte s off v).resetInput = s.resetInput := by
  unfold writeWindowByte
  split <;> first | rfl | exact writeByte_resetInput _ _ _ _
@[simp] theorem writeWindowByte_schedule (s : State) (off : Nat) (v : Byte) : (writeWindowByte s off v).schedule = s.schedule := by
  unfold writeWindowByte
  split <;> first | rfl | exact writeByte_schedule _ _ _ _
@[simp] theorem writeWindowByte_inputDraw (s : State) (off : Nat) (v : Byte) : (writeWindowByte s off v).inputDraw = s.inputDraw := by
  unfold writeWindowByte
  split <;> first | rfl | exact writeByte_inputDraw _ _ _ _
@[simp] theorem writeWindowByte_doutDraw (s : State) (off : Nat) (v : Byte) : (writeWindowByte s off v).doutDraw = s.doutDraw := by
  unfold writeWindowByte
  split <;> first | rfl | exact writeByte_doutDraw _ _ _ _
@[simp] theorem writeWindowByte_draws (s : State) (off : Nat) (v : Byte) : (writeWindowByte s off v).draws = s.draws := by
  unfold writeWindowByte
  split <;> first | rfl | exact writeByte_draws _ _ _ _

/-! ## nextInput -/

@[simp] theorem nextInput_params (s : State) : (nextInput s).params = s.params := rfl
@[simp] theorem nextInput_cmd (s : State) : (nextInput s).cmd = s.cmd := rfl
@[simp] theorem nextInput_status (s : State) : (nextInput s).status = s.status := rfl
@[simp] theorem nextInput_keylen (s : State) : (nextInput s).keylen = s.keylen := rfl
@[simp] theorem nextInput_ivlen (s : State) : (nextInput s).ivlen = s.ivlen := rfl
@[simp] theorem nextInput_dinlen (s : State) : (nextInput s).dinlen = s.dinlen := rfl
@[simp] theorem nextInput_doutlen (s : State) : (nextInput s).doutlen = s.doutlen := rfl
@[simp] theorem nextInput_keymem (s : State) : (nextInput s).keymem = s.keymem := rfl
@[simp] theorem nextInput_ivmem (s : State) : (nextInput s).ivmem = s.ivmem := rfl
@[simp] theorem nextInput_din (s : State) : (nextInput s).din = s.din := rfl
@[simp] theorem nextInput_dout (s : State) : (nextInput s).dout = s.dout := rfl
@[simp] theorem nextInput_inflight (s : State) : (nextInput s).inflight = s.inflight := rfl
@[simp] theorem nextInput_hostFault (s : State) : (nextInput s).hostFault = s.hostFault := rfl
@[simp] theorem nextInput_hosts (s : State) : (nextInput s).hosts = s.hosts := rfl
@[simp] theorem nextInput_schedule (s : State) : (nextInput s).schedule = s.schedule := rfl
@[simp] theorem nextInput_inputDraw (s : State) : (nextInput s).inputDraw = s.inputDraw := rfl
@[simp] theorem nextInput_doutDraw (s : State) : (nextInput s).doutDraw = s.doutDraw := rfl
@[simp] theorem nextInput_draws (s : State) : (nextInput s).draws = s.draws := rfl
@[simp] theorem nextInput_resetInput (s : State) : (nextInput s).resetInput = s.resetInput.tail := rfl

end Sys2Proof.Machine
end

