-- ==== Sys2Proof/Laws/Ops.lean ====
section
/-! SUPPORT. What each shared operation of the engine can do, said once: the completions, issue, the reset event, and the
writes to the window; with them, that each keeps the canonical form of the buffers. -/

namespace Sys2Proof.Machine

/-! ## The parameters -/

/-- R8's bound on IN_CAP. -/
theorem legal_iff (p : Config.Params) : p.legal = true ↔ 1 ≤ p.inCap ∧ p.inCap ≤ 0x00FFFF00 := by
  unfold Config.Params.legal
  rw [Bool.and_eq_true, decide_eq_true_eq, decide_eq_true_eq, show Config.maxInCap = 0x00FFFF00 from rfl]

/-- OUT_CAP fits a 32-bit register. -/
theorem outCap_lt {p : Config.Params} (h : p.legal = true) : p.outCap < 2 ^ 32 := by
  have := ((legal_iff p).mp h).2
  simp only [Config.Params.outCap, Config.outSlack]
  omega

/-! ## What the two kinds of frame carry over -/

theorem SameInputs.refl (s : State) : SameInputs s s := by
  constructor <;> intros <;> rfl

theorem SameEngine.refl (s : State) : SameEngine s s := by
  constructor <;> intros <;> rfl

/-- States whose buffers and draws agree hold the same bytes. -/
theorem bufByte_congr {s t : State} {sp : Space} (hm : buf t sp = buf s sp) (hd : bufDraw t sp = bufDraw s sp) (k : Nat) :
    bufByte t sp k = bufByte s sp k := by
  simp only [bufByte, hm, hd]

/-- The frame of a host access, from the fields it leaves. -/
theorem SameEngine.of_fields {s t : State} (params : t.params = s.params) (cmd : t.cmd = s.cmd) (status : t.status = s.status)
    (keylen : t.keylen = s.keylen) (ivlen : t.ivlen = s.ivlen) (dinlen : t.dinlen = s.dinlen)
    (doutlen : t.doutlen = s.doutlen) (keymem : t.keymem = s.keymem) (ivmem : t.ivmem = s.ivmem) (din : t.din = s.din)
    (dout : t.dout = s.dout) (inflight : t.inflight = s.inflight) (inputDraw : t.inputDraw = s.inputDraw)
    (doutDraw : t.doutDraw = s.doutDraw) : SameEngine s t where
  params := params
  cmd := cmd
  status := status
  keylen := keylen
  ivlen := ivlen
  dinlen := dinlen
  doutlen := doutlen
  bytes sp k := by cases sp <;> exact bufByte_congr (by assumption) (by assumption) k
  keymem := keymem
  ivmem := ivmem
  din := din
  dout := dout
  inflight := inflight

/-- The frame of a command, from the fields it leaves. -/
theorem SameInputs.of_fields {s t : State} (params : t.params = s.params) (cmd : t.cmd = s.cmd) (keylen : t.keylen = s.keylen)
    (ivlen : t.ivlen = s.ivlen) (dinlen : t.dinlen = s.dinlen) (keymem : t.keymem = s.keymem) (ivmem : t.ivmem = s.ivmem)
    (din : t.din = s.din) (inputDraw : t.inputDraw = s.inputDraw) (hosts : t.hosts = s.hosts)
    (hostFault : t.hostFault = s.hostFault) (resetInput : t.resetInput = s.resetInput) (schedule : t.schedule = s.schedule) :
    SameInputs s t where
  params := params
  cmd := cmd
  keylen := keylen
  ivlen := ivlen
  dinlen := dinlen
  bytes sp k h := by cases sp <;> first | exact absurd rfl h | exact bufByte_congr (by assumption) (by assumption) k
  keymem := keymem
  ivmem := ivmem
  din := din
  inputDraw := inputDraw
  hosts := hosts
  hostFault := hostFault
  resetInput := resetInput
  schedule := schedule

/-! ## The completions -/

theorem sameInputs_finish (out : Bytes) (s : State) : SameInputs s (finish out s) :=
  .of_fields rfl rfl rfl rfl rfl rfl rfl rfl rfl rfl rfl rfl rfl

theorem sameInputs_raiseError (c : ErrCode) (s : State) : SameInputs s (raiseError c s) :=
  .of_fields rfl rfl rfl rfl rfl rfl rfl rfl rfl rfl rfl rfl rfl

theorem sameInputs_finishUnspecified (s : State) : SameInputs s (finishUnspecified s) :=
  .of_fields rfl rfl rfl rfl rfl rfl rfl rfl rfl rfl rfl rfl rfl

/-- R107, once: what `finish` leaves, for an output whose length fits DOUTLEN. -/
theorem completed_finish {out : Bytes} (s : State) (h : out.length < 2 ^ 32) : Completed out s (finish out s) where
  status := rfl
  doutlen := by simpa using h
  output := memRead_finish out s
  idle := rfl
  inputs := sameInputs_finish out s

/-- R403, once: what `raise Error` leaves. -/
theorem refused_raiseError (c : ErrCode) (s : State) : Refused c s (raiseError c s) where
  status := rfl
  doutlen := rfl
  output _ := rfl
  idle := rfl
  inputs := sameInputs_raiseError c s

/-- R303, once: what the unspecified completion leaves. -/
theorem unspecified_finishUnspecified (s : State) : Unspecified s (finishUnspecified s) where
  status := rfl
  doutlen := rfl
  output _ := rfl
  idle := rfl
  inputs := sameInputs_finishUnspecified s

/-- A checked command always answers a next state: an error or its whole output. -/
theorem complete_cases (failed : Option ErrCode) (out : Bytes) (s : State) :
    (∃ c, failed = some c ∧ complete failed out s = .next (raiseError c s)) ∨
      (failed = none ∧ complete failed out s = .next (finish out s)) := by
  cases failed with
  | none => exact .inr ⟨rfl, rfl⟩
  | some c => exact .inl ⟨c, rfl, rfl⟩

/-- The STATUS words of completions and of issue. -/
theorem status_facts : statusBusy statusOk = false ∧ statusDone statusOk = true ∧ statusErr statusOk = 0 ∧
    statusBusy statusIssued = true ∧ statusDone statusIssued = false ∧ statusErr statusIssued = 0 ∧ statusBusy 0 = false := by
  decide

theorem statusFailed_facts (c : ErrCode) :
    statusBusy (statusFailed c) = false ∧ statusDone (statusFailed c) = true ∧ statusErr (statusFailed c) = errNumber c ∧
      legalStatus (statusFailed c) = true ∧ statusFailed c ≠ statusOk := by
  cases c <;> decide

@[simp] theorem busy_finish (out : Bytes) (s : State) : busy (finish out s) = false := status_facts.1
@[simp] theorem busy_finishUnspecified (s : State) : busy (finishUnspecified s) = false := status_facts.1
@[simp] theorem busy_raiseError (c : ErrCode) (s : State) : busy (raiseError c s) = false := (statusFailed_facts c).1
@[simp] theorem busy_resetEvent (s : State) : busy (resetEvent s) = false := status_facts.2.2.2.2.2.2
@[simp] theorem busy_issue (v : Word32) (s : State) : busy (issue v s) = true := by
  simp only [busy, issue_status]; exact status_facts.2.2.2.1
@[simp] theorem busy_setHost (s : State) (i : Nat) (h : HostAgent) : busy (setHost s i h) = busy s := rfl
@[simp] theorem busy_choose (s : State) : busy (choose s).2 = busy s := by simp only [busy, choose_status]
@[simp] theorem busy_writeWindowByte (s : State) (off : Nat) (v : Byte) : busy (writeWindowByte s off v) = busy s := by
  simp only [busy, writeWindowByte_status]
@[simp] theorem busy_afterRead (s : State) : busy (afterRead s) = busy s := by simp only [busy, afterRead_status]

/-! ## Choices, issue, reads -/

/-- A choice uses up one given choice or one draw. -/
theorem choose_draws_le (s : State) : s.draws ≤ (choose s).2.draws := by
  unfold choose
  split
  · exact Nat.le_refl _
  · exact Nat.le_succ _

/-- A read advances the draws or leaves them. -/
theorem afterRead_draws_le (s : State) : s.draws ≤ (afterRead s).draws := by
  unfold afterRead
  split
  · exact Nat.le_succ _
  · exact Nat.le_refl _

theorem afterRead_idle {s : State} (h : busy s = false) : afterRead s = s := by simp [afterRead, h]

theorem afterRead_busy {s : State} (h : busy s = true) : afterRead s = nextDraw s := by simp [afterRead, h]

theorem sameEngine_afterRead (s : State) : SameEngine s (afterRead s) := by
  apply SameEngine.of_fields <;> simp

theorem sameEngine_nextDraw (s : State) : SameEngine s (nextDraw s) := by
  apply SameEngine.of_fields <;> rfl

theorem sameEngine_stopHost (i : Nat) (h : HostAgent) (s : State) (e : BusError) : SameEngine s (stopHost i h s e) := by
  apply SameEngine.of_fields <;> rfl

theorem sameEngine_setHost (s : State) (i : Nat) (h : HostAgent) : SameEngine s (setHost s i h) := by
  apply SameEngine.of_fields <;> rfl

/-- Issue leaves every byte of every buffer. -/
theorem bufByte_issue (v : Word32) (s : State) (sp : Space) (k : Nat) : bufByte (issue v s) sp k = bufByte s sp k := by
  cases sp <;> exact bufByte_congr (by simp [buf]) (by simp [bufDraw]) k

/-! ## Writes to the window -/

/-- An index that a window offset reaches lies in its buffer. -/
theorem locate_lt {p : Config.Params} {off : Nat} {sp : Space} {k : Nat} (h : locate p off = some (sp, k)) : k < p.cap sp := by
  unfold locate at h
  simp only [Config.Params.cap]
  split at h
  · next h1 =>
    obtain ⟨rfl, rfl⟩ : Space.keymem = sp ∧ off - 0x100 = k := by simpa using h
    exact Nat.sub_lt_left_of_lt_add h1.1 h1.2
  · split at h
    · next h1 =>
      obtain ⟨rfl, rfl⟩ : Space.ivmem = sp ∧ off - 0x200 = k := by simpa using h
      exact Nat.sub_lt_left_of_lt_add h1.1 h1.2
    · split at h
      · next h1 =>
        obtain ⟨rfl, rfl⟩ : Space.din = sp ∧ off - 0x01000000 = k := by simpa using h
        exact Nat.sub_lt_left_of_lt_add h1.1 h1.2
      · split at h
        · next h1 =>
          obtain ⟨rfl, rfl⟩ : Space.dout = sp ∧ off - 0x02000000 = k := by simpa using h
          exact Nat.sub_lt_left_of_lt_add h1.1 h1.2
        · cases h

/-- Once: a byte write in the window writes one byte of an input buffer, or nothing. -/
theorem writeWindowByte_cases (s : State) (off : Nat) (v : Byte) :
    writeWindowByte s off v = s ∨
      ∃ sp k, sp ≠ .dout ∧ locate s.params off = some (sp, k) ∧ writeWindowByte s off v = writeByte s sp k v := by
  unfold writeWindowByte
  split
  · exact .inl rfl
  · next sp k h1 h2 => exact .inr ⟨sp, k, h1, h2, rfl⟩
  · exact .inl rfl

/-- Writing a byte inside a buffer keeps every buffer in canonical form. -/
theorem buffersWf_writeByte {s : State} {sp : Space} {k : Nat} (v : Byte) (hk : k < s.params.cap sp)
    (h : buffersWf s = true) : buffersWf (writeByte s sp k v) = true := by
  simp only [buffersWf, Bool.and_eq_true] at h ⊢
  obtain ⟨⟨⟨h1, h2⟩, h3⟩, h4⟩ := h
  cases sp <;> simp only [writeByte, setBuf, buf]
  · exact ⟨⟨⟨Memory.wf_cellSet v hk h1, h2⟩, h3⟩, h4⟩
  · exact ⟨⟨⟨h1, Memory.wf_cellSet v hk h2⟩, h3⟩, h4⟩
  · exact ⟨⟨⟨h1, h2⟩, Memory.wf_cellSet v hk h3⟩, h4⟩
  · exact ⟨⟨⟨h1, h2⟩, h3⟩, Memory.wf_cellSet v hk h4⟩

theorem buffersWf_writeWindowByte {s : State} (off : Nat) (v : Byte) (h : buffersWf s = true) :
    buffersWf (writeWindowByte s off v) = true := by
  obtain e | ⟨sp, k, _, hl, e⟩ := writeWindowByte_cases s off v <;> rw [e]
  · exact h
  · exact buffersWf_writeByte v (locate_lt hl) h

/-- Every other operation leaves the buffers or replaces DOUT or all of them. -/
theorem buffersWf_congr {s t : State} (params : t.params = s.params) (keymem : t.keymem = s.keymem)
    (ivmem : t.ivmem = s.ivmem) (din : t.din = s.din) (dout : t.dout = s.dout) : buffersWf t = buffersWf s := by
  simp only [buffersWf, params, keymem, ivmem, din, dout]

theorem buffersWf_finish {out : Bytes} {s : State} (ho : out.length ≤ s.params.outCap) (h : buffersWf s = true) :
    buffersWf (finish out s) = true := by
  simp only [buffersWf, Bool.and_eq_true] at h ⊢
  exact ⟨h.1, Memory.wf_cellsFrom ho⟩

theorem buffersWf_finishUnspecified {s : State} (h : buffersWf s = true) : buffersWf (finishUnspecified s) = true := by
  simp only [buffersWf, Bool.and_eq_true] at h ⊢
  exact ⟨h.1, rfl⟩

theorem buffersWf_resetEvent (s : State) : buffersWf (resetEvent s) = true := rfl

/-- The memory of the reset state is in canonical form. -/
theorem buffersWf_reset : buffersWf State.reset = true := rfl

end Sys2Proof.Machine
end

