-- ==== Sys2Proof/Laws/PerInstr.lean ====
section
/-! SUPPORT. A statement about every command as syntax, one lemma per constructor: its word has the reserved bits 0 and only
values of the field tables in its fields (spec/30_encoding.md R91 to R97). -/

namespace Sys2Proof.Laws.EncodedFields

/-- R91 to R97: in the word of a command, bits [15:13] and [31:24] are 0, OP is 1 to 6, ALG is at most 5 and 0 outside HASH and
HMAC, MODE is at most 4 and FAM at most 1 and both 0 outside ENC and DEC, and BSIZE is 0 outside PAD. -/
def Statement (i : Instr) : Prop :=
  let v := encode i
  bits v 15 13 = 0 ∧ bits v 31 24 = 0 ∧ 1 ≤ bits v 3 0 ∧ bits v 3 0 ≤ 6 ∧
    bits v 7 4 ≤ 5 ∧ (3 ≤ bits v 3 0 → bits v 7 4 = 0) ∧
    bits v 10 8 ≤ 4 ∧ bits v 12 11 ≤ 1 ∧ (bits v 3 0 ≠ 3 → bits v 3 0 ≠ 4 → bits v 10 8 = 0 ∧ bits v 12 11 = 0) ∧
    (bits v 3 0 ≠ 5 → bits v 23 16 = 0)

theorem hashMd5 : Statement .hashMd5 := by unfold Statement; decide
theorem hashSha1 : Statement .hashSha1 := by unfold Statement; decide
theorem hashSha224 : Statement .hashSha224 := by unfold Statement; decide
theorem hashSha256 : Statement .hashSha256 := by unfold Statement; decide
theorem hashSha384 : Statement .hashSha384 := by unfold Statement; decide
theorem hashSha512 : Statement .hashSha512 := by unfold Statement; decide
theorem hmacMd5 : Statement .hmacMd5 := by unfold Statement; decide
theorem hmacSha1 : Statement .hmacSha1 := by unfold Statement; decide
theorem hmacSha224 : Statement .hmacSha224 := by unfold Statement; decide
theorem hmacSha256 : Statement .hmacSha256 := by unfold Statement; decide
theorem hmacSha384 : Statement .hmacSha384 := by unfold Statement; decide
theorem hmacSha512 : Statement .hmacSha512 := by unfold Statement; decide
theorem encEcbC128 : Statement .encEcbC128 := by unfold Statement; decide
theorem encEcbC64 : Statement .encEcbC64 := by unfold Statement; decide
theorem decEcbC128 : Statement .decEcbC128 := by unfold Statement; decide
theorem decEcbC64 : Statement .decEcbC64 := by unfold Statement; decide
theorem encCbcC128 : Statement .encCbcC128 := by unfold Statement; decide
theorem encCbcC64 : Statement .encCbcC64 := by unfold Statement; decide
theorem decCbcC128 : Statement .decCbcC128 := by unfold Statement; decide
theorem decCbcC64 : Statement .decCbcC64 := by unfold Statement; decide
theorem encCfbC128 : Statement .encCfbC128 := by unfold Statement; decide
theorem encCfbC64 : Statement .encCfbC64 := by unfold Statement; decide
theorem decCfbC128 : Statement .decCfbC128 := by unfold Statement; decide
theorem decCfbC64 : Statement .decCfbC64 := by unfold Statement; decide
theorem encOfbC128 : Statement .encOfbC128 := by unfold Statement; decide
theorem encOfbC64 : Statement .encOfbC64 := by unfold Statement; decide
theorem decOfbC128 : Statement .decOfbC128 := by unfold Statement; decide
theorem decOfbC64 : Statement .decOfbC64 := by unfold Statement; decide
theorem encCtrC128 : Statement .encCtrC128 := by unfold Statement; decide
theorem encCtrC64 : Statement .encCtrC64 := by unfold Statement; decide
theorem decCtrC128 : Statement .decCtrC128 := by unfold Statement; decide
theorem decCtrC64 : Statement .decCtrC64 := by unfold Statement; decide

/-- The word of PAD, field by field. -/
theorem padN (n : Byte) : Statement (.padN n) := by
  have h := n.isLt
  have hv : (encode (.padN n)).toNat = 5 + n.toNat * 2 ^ 16 := by
    simp only [encode, cmdWord, BitVec.toNat_ofNat]
    omega
  simp only [Statement, bits, hv]
  omega

theorem unpad : Statement .unpad := by unfold Statement; decide

end Sys2Proof.Laws.EncodedFields
end

