-- ==== Sys2Proof/Laws/Step.lean ====
section
/-! SUPPORT. What an engine step, a host access, a host step and a step of the machine can do, each said once. -/

namespace Sys2Proof.Machine

/-! ## Commands -/

/-- The output of PKCS#7 padding is at most 255 bytes longer than its input. -/
theorem length_pkcs7Pad_le (b : Bytes) (n : Byte) : (pkcs7Pad b (blockSizeOf n)).length ≤ b.length + 255 := by
  have := n.isLt
  simp only [pkcs7Pad, padLength, blockSizeOf, List.length_append, length_rep]
  omega

theorem length_unpadded_le (b : Bytes) : (unpadded b).length ≤ b.length := by
  simp only [unpadded, List.length_take]
  omega

/-- A check on a decidable condition, as a choice on the condition itself. -/
theorem errorIf_decide (p : Prop) [Decidable p] (c : ErrCode) : errorIf (decide p) c = if p then some c else none := by
  by_cases h : p <;> simp [errorIf, h]

/-- The checks of HMAC as R402 writes them. -/
theorem hmacError_eq (s : State) : hmacError s =
    if s.params.inCap < s.dinlen.toNat then some .lengthRange
    else if 256 < s.keylen.toNat then some .lengthRange else none := by
  simp only [hmacError, rangeError, errorIf_decide]
  split
  · rfl
  · rfl

/-- Where the checks of a command pass, its input lies in DIN. -/
theorem rangeError_none {s : State} (h : rangeError s = none) : s.dinlen.toNat ≤ s.params.inCap := by
  by_contra hc
  simp [rangeError, errorIf, Nat.lt_of_not_le hc] at h

theorem cipherError_none {m : Mode} {f : Family} {s : State} (h : cipherError m f s = none) :
    s.dinlen.toNat ≤ s.params.inCap ∧ s.keylen.toNat ∈ Config.keyLengths f ∧
      (m ≠ .ecb → s.ivlen.toNat = Config.blockBytes f) ∧
      (m = .ecb ∨ m = .cbc → s.dinlen.toNat ≠ 0 ∧ s.dinlen.toNat % Config.blockBytes f = 0) := by
  simp only [cipherError, Option.or_eq_none_iff] at h
  obtain ⟨h1, h2, h3, h4⟩ := h
  refine ⟨rangeError_none h1, ?_, fun hm => ?_, fun hm => ?_⟩
  · by_contra hc
    simp [keyError, errorIf, hc] at h2
  · by_contra hc
    simp [ivError, errorIf, hc, hm] at h3
  · by_contra hc
    obtain rfl | rfl := hm <;> simp [alignmentError, errorIf] at h4 <;> exact hc h4

theorem blockBytes_pos (f : Family) : 0 < Config.blockBytes f := by cases f <;> decide

/-- A mode's output is as long as the input, wherever the checks of the command pass. -/
theorem length_cipher {d : Dir} {m : Mode} {f : Family} {s : State} (h : cipherError m f s = none) :
    (cipher d m f (keyOf s) (ivOf s) (msgOf s)).length = s.dinlen.toNat := by
  obtain ⟨_, _, hiv, hal⟩ := cipherError_none h
  have : (msgOf s).length = s.dinlen.toNat := length_memRead ..
  rw [cipher, length_runMode (blockBytes_pos f) (length_encrypt f _) (length_decrypt f _) d m
    (fun hm => by rw [ivOf, length_memRead]; exact hiv (by rw [hm]; decide))
    (fun hm => by rw [this]; exact (hal hm).2), this]

/-- Every command answers a next state: an error, its own whole output, which DOUT can hold, or UNPAD's unspecified
completion. -/
theorem exec_cases (i : Instr) (s : State) :
    (∃ c, exec i s = .next (raiseError c s)) ∨
      ((i = .unpad → consistent (msgOf s) = true) ∧ (commandOutput (commandClass i) s).length ≤ s.params.outCap ∧
        exec i s = .next (finish (commandOutput (commandClass i) s) s)) ∨
      (i = .unpad ∧ consistent (msgOf s) = false ∧ exec i s = .next (finishUnspecified s)) := by
  have short {out : Bytes} (h : out.length ≤ s.params.inCap + 255) : out.length ≤ s.params.outCap := by
    simp only [Config.Params.outCap, Config.outSlack]
    omega
  have message (h : rangeError s = none) : (msgOf s).length ≤ s.params.inCap := by
    rw [msgOf, length_memRead]
    exact rangeError_none h
  have all {error : Option ErrCode} {out : Bytes} (h : exec i s = complete error out s)
      (hi : i ≠ .unpad) (he : out = commandOutput (commandClass i) s)
      (hl : error = none → out.length ≤ s.params.inCap + 255) :
      (∃ c, exec i s = .next (raiseError c s)) ∨
        ((i = .unpad → consistent (msgOf s) = true) ∧ (commandOutput (commandClass i) s).length ≤ s.params.outCap ∧
          exec i s = .next (finish (commandOutput (commandClass i) s) s)) ∨
        (i = .unpad ∧ consistent (msgOf s) = false ∧ exec i s = .next (finishUnspecified s)) := by
    subst he
    rcases complete_cases error (commandOutput (commandClass i) s) s with ⟨c, _, hc⟩ | ⟨hn, hc⟩
    · exact .inl ⟨c, h.trans hc⟩
    · exact .inr (.inl ⟨fun hu => absurd hu hi, short (hl hn), h.trans hc⟩)
  have cipherLength {d m f} (h : cipherError m f s = none) :
      (cipher d m f (keyOf s) (ivOf s) (msgOf s)).length ≤ s.params.inCap + 255 := by
    have := (cipherError_none h).1
    rw [length_cipher h]
    omega
  have small {out : Bytes} (h : out.length ≤ 64) : out.length ≤ s.params.inCap + 255 := by omega
  cases i with
  | padN n =>
    refine all rfl (by simp) rfl fun hn => ?_
    have h1 := message hn
    have h2 := length_pkcs7Pad_le (msgOf s) n
    omega
  | unpad =>
    simp only [exec, execUnpad]
    split
    · next c _ => exact .inl ⟨c, rfl⟩
    · next hn =>
      split
      · next hc =>
        refine .inr (.inl ⟨fun _ => hc, short ?_, rfl⟩)
        have h1 := message hn
        have h2 := length_unpadded_le (msgOf s)
        simp only [commandOutput, commandClass]
        omega
      · next hc => exact .inr (.inr ⟨trivial, by simpa using hc, rfl⟩)
  | _ =>
    first
      | exact all rfl (by simp) rfl cipherLength
      | exact all rfl (by simp) rfl fun _ => small (length_hash_le _ _)
      | exact all rfl (by simp) rfl fun _ => small (length_hmac_le _ _ _)

/-- The engine step answers a next state: an error, a whole output, or UNPAD's unspecified completion. -/
theorem engineStep_cases (word : Word32) (s : State) :
    (∃ c, engineStep word s = .next (raiseError c s)) ∨
      (∃ out, out.length ≤ s.params.outCap ∧ engineStep word s = .next (finish out s)) ∨
      (decode word = .ok .unpad ∧ engineStep word s = .next (finishUnspecified s)) := by
  unfold engineStep
  split
  · next i hi =>
    rcases exec_cases i s with h | ⟨_, h⟩ | ⟨rfl, _, h⟩
    · exact .inl h
    · exact .inr (.inl ⟨_, h⟩)
    · exact .inr (.inr ⟨hi, h⟩)
  · next c _ => exact .inl ⟨c, rfl⟩

/-! ## Host accesses -/

/-- What a host write can do to the engine. -/
inductive HostWriteEffect (s : State) : State → Prop where
  | nothing : HostWriteEffect s s
  | issue (v : Word32) (idle : busy s = false) : HostWriteEffect s (issue v s)
  | keylen (v : Word32) (idle : busy s = false) : HostWriteEffect s { s with keylen := v }
  | ivlen (v : Word32) (idle : busy s = false) : HostWriteEffect s { s with ivlen := v }
  | dinlen (v : Word32) (idle : busy s = false) : HostWriteEffect s { s with dinlen := v }
  | byte (off : Nat) (v : Byte) (idle : busy s = false) : HostWriteEffect s (writeWindowByte s off v)
  | word (off : Nat) (a b c d : Byte) (idle : busy s = false) : HostWriteEffect s
      (writeWindowByte (writeWindowByte (writeWindowByte (writeWindowByte s off a) (off + 1) b) (off + 2) c) (off + 3) d)

theorem hostWrite32_cases {off : Nat} {v : Word32} {s t : State} (h : hostWrite32 off v s = .ok t) :
    HostWriteEffect s t := by
  unfold hostWrite32 at h
  split at h
  · cases h
  · injection h with h
    subst h
    split
    · exact .nothing
    · next hb =>
      have hb : busy s = false := by simpa using hb
      split
      · unfold writeRegister
        split
        · exact .issue v hb
        · split
          · exact .keylen v hb
          · split
            · exact .ivlen v hb
            · split
              · exact .dinlen v hb
              · exact .nothing
      · exact .word off _ _ _ _ hb

theorem hostWrite8_cases {off : Nat} {v : Byte} {s t : State} (h : hostWrite8 off v s = .ok t) : HostWriteEffect s t := by
  unfold hostWrite8 at h
  split at h
  · cases h
  · injection h with h
    subst h
    split
    · exact .nothing
    · next hb => exact .byte off v (by simpa using hb)

theorem hostRead32_state {off : Nat} {s t : State} {v : Word32} (h : hostRead32 off s = .ok (v, t)) : t = afterRead s := by
  unfold hostRead32 at h
  split at h
  · cases h
  · split at h <;> (injection h with h; injection h with _ h; exact h.symm)

theorem hostRead8_state {off : Nat} {s t : State} {v : Byte} (h : hostRead8 off s = .ok (v, t)) : t = afterRead s := by
  unfold hostRead8 at h
  split at h
  · cases h
  · injection h with h
    injection h with _ h
    exact h.symm

/-- Every write leaves the results, the hosts and the record of bus errors. -/
theorem HostWriteEffect.frame {s t : State} (h : HostWriteEffect s t) :
    t.params = s.params ∧ t.doutlen = s.doutlen ∧ t.dout = s.dout ∧ t.hosts = s.hosts ∧ t.hostFault = s.hostFault ∧
      t.resetInput = s.resetInput ∧ t.inputDraw = s.inputDraw ∧ t.doutDraw = s.doutDraw ∧ s.draws ≤ t.draws := by
  cases h <;> simp [choose_draws_le]

/-- A write while busy changes nothing. -/
theorem HostWriteEffect.busy {s t : State} (h : HostWriteEffect s t) (hb : busy s = true) : t = s := by
  cases h <;> simp_all

/-- A write issues a command, or leaves STATUS, CMD and the in-flight marker. -/
theorem HostWriteEffect.status {s t : State} (h : HostWriteEffect s t) :
    (∃ v, Machine.busy s = false ∧ t = Machine.issue v s) ∨
      (t.status = s.status ∧ t.cmd = s.cmd ∧ t.inflight = s.inflight) := by
  cases h <;> first | exact .inl ⟨_, by assumption, rfl⟩ | exact .inr (by simp)

/-- A write keeps the buffers in canonical form. -/
theorem HostWriteEffect.buffersWf {s t : State} (h : HostWriteEffect s t) (hw : Machine.buffersWf s = true) :
    Machine.buffersWf t = true := by
  cases h with
  | byte off v _ => exact buffersWf_writeWindowByte _ _ hw
  | word off a b c d _ =>
    exact buffersWf_writeWindowByte _ _ (buffersWf_writeWindowByte _ _ (buffersWf_writeWindowByte _ _
      (buffersWf_writeWindowByte _ _ hw)))
  | issue v _ => exact (buffersWf_congr (by simp) (by simp) (by simp) (by simp) (by simp)).trans hw
  | _ => exact hw

/-! ## Host steps -/

/-- What a host step can do: nothing; a write, a read, a jump or the end of the program; a bus error; or an access outside
the window, which is a jump to the next statement (a write) or a free value for a variable (a read). -/
inductive HostStepEffect (i : Nat) (s : State) : State → Prop where
  | none : HostStepEffect i s s
  | write (h : HostAgent) (t : State) (effect : HostWriteEffect s t) (host : s.hosts[i]? = some h) :
      HostStepEffect i s (setHost t i (hostAdvance h))
  | read (h : HostAgent) (x : Nat) (v : Word32) (host : s.hosts[i]? = some h) :
      HostStepEffect i s (setHost (afterRead s) i (hostAssign h x v))
  | jump (h : HostAgent) (pc : Nat) (host : s.hosts[i]? = some h) : HostStepEffect i s (setHost s i { h with pc := pc })
  | halt (h : HostAgent) (host : s.hosts[i]? = some h) : HostStepEffect i s (setHost s i { h with run := .halted })
  | busError (h : HostAgent) (e : BusError) (host : s.hosts[i]? = some h) : HostStepEffect i s (stopHost i h s e)
  | outsideRead (h : HostAgent) (x : Nat) (v : Word32) (host : s.hosts[i]? = some h) :
      HostStepEffect i s (setHost (nextDraw s) i (hostAssign h x v))

/-- What a host write can do, whatever the window answers it. -/
theorem afterWrite_cases {i : Nat} {h : HostAgent} {s : State} {r : Except HostReject State} (hh : s.hosts[i]? = some h)
    (hr : ∀ u, r = .ok u → HostWriteEffect s u) : ∃ t, afterWrite i h s r = .next t ∧ HostStepEffect i s t := by
  match r, hr with
  | .ok u, hr => exact ⟨_, rfl, .write h u (hr u rfl) hh⟩
  | .error (.busError e), _ => exact ⟨_, rfl, .busError h e hh⟩
  | .error (.outsideWindow _), _ => exact ⟨_, rfl, .jump h (h.pc + 1) hh⟩

/-- What a host read can do, whatever the window answers it. -/
theorem afterReadInto_cases {w : Nat} {i : Nat} {h : HostAgent} {x : Nat} {s : State}
    {r : Except HostReject (BitVec w × State)} (hh : s.hosts[i]? = some h)
    (hr : ∀ v u, r = .ok (v, u) → u = afterRead s) : ∃ t, afterReadInto i h x s r = .next t ∧ HostStepEffect i s t := by
  match r, hr with
  | .ok (v, u), hr => exact ⟨_, rfl, hr v u rfl ▸ .read h x _ hh⟩
  | .error (.busError e), _ => exact ⟨_, rfl, .busError h e hh⟩
  | .error (.outsideWindow _), _ => exact ⟨_, rfl, .outsideRead h x _ hh⟩

/-- A host step always answers a next state, and this is everything it can do. -/
theorem hostStep_next (i : Nat) (s : State) : ∃ t, hostStep i s = .next t ∧ HostStepEffect i s t := by
  unfold hostStep
  split
  · exact ⟨s, rfl, .none⟩
  · next h hh =>
    split
    · exact ⟨s, rfl, .none⟩
    · next stmt _ =>
      cases stmt with
      | w32 off v =>
        refine afterWrite_cases hh fun u hu => ?_
        cases hw : windowOffset s.params (s.params.base + off) <;> rw [hw] at hu
        · cases hu
        · exact hostWrite32_cases hu
      | w8 off v =>
        refine afterWrite_cases hh fun u hu => ?_
        cases hw : windowOffset s.params (s.params.base + off) <;> rw [hw] at hu
        · cases hu
        · exact hostWrite8_cases hu
      | r32 off x =>
        refine afterReadInto_cases hh fun v u hu => ?_
        cases hw : windowOffset s.params (s.params.base + off) <;> rw [hw] at hu
        · cases hu
        · exact hostRead32_state hu
      | r8 off x =>
        refine afterReadInto_cases hh fun v u hu => ?_
        cases hw : windowOffset s.params (s.params.base + off) <;> rw [hw] at hu
        · cases hu
        · exact hostRead8_state hu
      | bit1 x b label => exact ⟨_, rfl, .jump h _ hh⟩
      | halt => exact ⟨_, rfl, .halt h hh⟩

theorem hostStep_cases {i : Nat} {s t : State} (ht : hostStep i s = .next t) : HostStepEffect i s t := by
  obtain ⟨u, hu, he⟩ := hostStep_next i s
  rw [hu] at ht
  injection ht with ht
  exact ht ▸ he

/-! ## Steps of the machine -/

/-- The host picked is ready, and picking uses at most a choice. -/
theorem pickHost_cases {s t : State} {i : Nat} (h : pickHost s = some (i, t)) : i ∈ readyHosts s ∧ (t = s ∨ t = (choose s).2) := by
  unfold pickHost at h
  split at h
  · cases h
  · next j hj =>
    injection h with h
    injection h with h1 h2
    exact ⟨by rw [hj, h1]; exact List.mem_singleton.mpr rfl, .inl h2.symm⟩
  · next j k rest hj =>
    injection h with h
    injection h with h1 h2
    refine ⟨?_, .inr h2.symm⟩
    rw [hj, ← h1, List.getD_eq_getElem?_getD, List.getElem?_eq_getElem
      (by simpa using Nat.mod_lt _ (Nat.succ_pos _)), Option.getD_some]
    exact List.getElem_mem _

/-- With no level given, the input stays as it is. -/
theorem nextInput_nil {s : State} (h : s.resetInput = []) : nextInput s = s := by
  obtain ⟨⟩ := s
  simp only at h
  subst h
  rfl

/-- The state a host step starts from: the input moved on, and the choice among several hosts made. -/
def Picked (s u : State) : Prop := u = nextInput s ∨ u = (choose (nextInput s)).2

/-- Making a choice changes only the choices and draws. -/
theorem Picked.frame {s u : State} (h : Picked s u) :
    SameEngine s u ∧ u.hosts = s.hosts ∧ u.hostFault = s.hostFault ∧ u.resetInput = s.resetInput.tail ∧
      u.inputDraw = s.inputDraw ∧ u.doutDraw = s.doutDraw ∧ s.draws ≤ u.draws := by
  obtain rfl | rfl := h
  · exact ⟨by apply SameEngine.of_fields <;> rfl, rfl, rfl, rfl, rfl, rfl, Nat.le_refl _⟩
  · exact ⟨by apply SameEngine.of_fields <;> simp, by simp, by simp, by simp, by simp, by simp, choose_draws_le (nextInput s)⟩

/-- What a step can do, once: nothing, where no agent has a step to take; the reset event; the engine step of the command in
flight; or a step of a ready host, taken from the state after the choices of the step. -/
inductive StepEffect (s : State) : State → Prop where
  | idle (input : s.resetInput.head? ≠ some true) (flight : s.inflight = none) : StepEffect s (nextInput s)
  | reset (input : s.resetInput.head? = some true) : StepEffect s (resetEvent (nextInput s))
  | engine (f : InFlight) (t : State) (input : s.resetInput.head? ≠ some true) (flight : s.inflight = some f)
      (run : engineStep f.word (nextInput s) = .next t) : StepEffect s t
  | hostIdle (i : Nat) (u t : State) (input : s.resetInput.head? ≠ some true) (flight : s.inflight = none)
      (pick : Picked s u) (run : HostStepEffect i u t) : StepEffect s t
  | hostBusy (i : Nat) (f : InFlight) (n : Nat) (u t : State) (input : s.resetInput.head? ≠ some true)
      (flight : s.inflight = some f) (wait : f.wait = n + 1) (pick : Picked s u)
      (run : HostStepEffect i { u with inflight := some { f with wait := n } } t) : StepEffect s t

/-- Which agent moves, once (R455, R462). -/
theorem nextAgent_cases (s : State) :
    (s.inflight = none ∧ nextAgent s = .idle s) ∨
      (∃ f, s.inflight = some f ∧ nextAgent s = .engine f.word s) ∨
      (∃ i u, s.inflight = none ∧ (u = s ∨ u = (choose s).2) ∧ nextAgent s = .host i u) ∨
      (∃ i f n u, s.inflight = some f ∧ f.wait = n + 1 ∧ (u = s ∨ u = (choose s).2) ∧
        nextAgent s = .host i { u with inflight := some { f with wait := n } }) := by
  unfold nextAgent
  split
  · next hf _ => exact .inl ⟨hf, rfl⟩
  · next i u hf hp => exact .inr (.inr (.inl ⟨i, u, hf, (pickHost_cases hp).2, rfl⟩))
  · next f hf _ => exact .inr (.inl ⟨f, hf, rfl⟩)
  · next f i u hf hp =>
    split
    · exact .inr (.inl ⟨f, hf, rfl⟩)
    · next n hw => exact .inr (.inr (.inr ⟨i, f, n, u, hf, hw, (pickHost_cases hp).2, rfl⟩))

theorem step_cases {s t : State} (h : step s = .next t) : StepEffect s t := by
  unfold step nextTurn at h
  by_cases hr : s.resetInput.head? = some true
  · rw [if_pos hr] at h
    injection h with h
    subst h
    exact .reset hr
  · rw [if_neg hr] at h
    rcases nextAgent_cases (nextInput s) with
      ⟨hf, ha⟩ | ⟨f, hf, ha⟩ | ⟨i, u, hf, hu, ha⟩ | ⟨i, f, n, u, hf, hw, hu, ha⟩ <;> rw [ha] at h
    · injection h with h
      subst h
      exact .idle hr hf
    · exact .engine f t hr hf h
    · exact .hostIdle i u t hr hf hu (hostStep_cases h)
    · exact .hostBusy i f n u t hr hf hw hu (hostStep_cases h)

/-! ## Runs -/

/-- A run of k + 1 steps is a step and a run of k. -/
theorem run_succ_of_next {M : Host.Core} {k : Nat} {s u : M.State} (h : M.step s = .next u) :
    M.run (k + 1) s = M.run k u := by
  change (match M.step s with | .next v => M.run k v | .fault r => .fault r | .refused r => .refused r) = _
  rw [h]

/-- A run that answers a state took its first step. -/
theorem run_succ_cases {M : Host.Core} {k : Nat} {s t : M.State} (h : M.run (k + 1) s = .next t) :
    ∃ u, M.step s = .next u ∧ M.run k u = .next t := by
  change (match M.step s with | .next v => M.run k v | .fault r => .fault r | .refused r => .refused r) = _ at h
  split at h
  · next u hu => exact ⟨u, hu, h⟩
  · cases h
  · cases h

end Sys2Proof.Machine
end

