-- ==== Sys2Proof/Laws/Window.lean ====
section
/-! SUPPORT. The laws of the window: which buffer byte each offset reaches, what an access of either width gives where it is
accepted, and the byte lanes of a 32-bit access. -/

namespace Sys2Proof.Machine

/-! ## Regions (R61) -/

theorem locate_keymem (p : Config.Params) {k : Nat} (h : k < 256) : locate p (0x100 + k) = some (.keymem, k) := by
  unfold locate Config.keyCap
  rw [if_pos (by omega), show 0x100 + k - 0x100 = k by omega]

theorem locate_ivmem (p : Config.Params) {k : Nat} (h : k < 16) : locate p (0x200 + k) = some (.ivmem, k) := by
  unfold locate Config.keyCap Config.ivCap
  rw [if_neg (by omega), if_pos (by omega), show 0x200 + k - 0x200 = k by omega]

theorem locate_din (p : Config.Params) {k : Nat} (h : k < p.inCap) : locate p (0x01000000 + k) = some (.din, k) := by
  unfold locate Config.keyCap Config.ivCap
  rw [if_neg (by omega), if_neg (by omega), if_pos (by omega), show 0x01000000 + k - 0x01000000 = k by omega]

theorem locate_dout {p : Config.Params} (hp : p.legal = true) {k : Nat} (h : k < p.inCap + 256) :
    locate p (0x02000000 + k) = some (.dout, k) := by
  have := (legal_iff p).mp hp
  unfold locate Config.keyCap Config.ivCap Config.Params.outCap Config.outSlack
  rw [if_neg (by omega), if_neg (by omega), if_neg (by omega), if_pos (by omega),
    show 0x02000000 + k - 0x02000000 = k by omega]

/-- The reserved regions: below DIN, between DIN and DOUT, and above DOUT. -/
theorem locate_reserved {p : Config.Params} (hp : p.legal = true) {off : Nat}
    (h : (0x210 ≤ off ∧ off < 0x01000000) ∨ (0x01000000 + p.inCap ≤ off ∧ off < 0x02000000) ∨
      0x02000000 + (p.inCap + 256) ≤ off) : locate p off = none := by
  have := (legal_iff p).mp hp
  unfold locate Config.keyCap Config.ivCap Config.Params.outCap Config.outSlack
  rw [if_neg (by omega), if_neg (by omega), if_neg (by omega), if_neg (by omega)]

/-! ## Accepted accesses (R63, R64) -/

theorem hostRead8_eq {off : Nat} (h : 0x100 ≤ off) (s : State) : hostRead8 off s = .ok (readWindowByte s off, afterRead s) := by
  unfold hostRead8 accept8 Config.registerBytes
  rw [if_neg (by omega)]

theorem hostWrite8_eq {off : Nat} (h : 0x100 ≤ off) (v : Byte) (s : State) :
    hostWrite8 off v s = .ok (if busy s then s else writeWindowByte s off v) := by
  unfold hostWrite8 accept8 Config.registerBytes
  rw [if_neg (by omega)]

theorem hostRead32_register {off : Nat} (h : off < 0x100) (h4 : off % 4 = 0) (s : State) :
    hostRead32 off s = .ok (readRegister s off, afterRead s) := by
  unfold hostRead32 accept32 Config.registerBytes
  rw [if_neg (by omega)]
  exact if_pos h

theorem hostRead32_window {off : Nat} (h : 0x100 ≤ off) (h4 : off % 4 = 0) (s : State) :
    hostRead32 off s = .ok (ofLanes (readWindowByte s off) (readWindowByte s (off + 1)) (readWindowByte s (off + 2))
      (readWindowByte s (off + 3)), afterRead s) := by
  unfold hostRead32 accept32 Config.registerBytes
  rw [if_neg (by omega)]
  exact if_neg (by omega)

theorem hostWrite32_register {off : Nat} (h : off < 0x100) (h4 : off % 4 = 0) (v : Word32) {s : State} (hb : busy s = false) :
    hostWrite32 off v s = .ok (writeRegister s off v) := by
  unfold hostWrite32 accept32 Config.registerBytes
  rw [if_neg (by omega), hb]
  simp only [h, if_true, Bool.false_eq_true, if_false]

theorem hostWrite32_window {off : Nat} (h : 0x100 ≤ off) (h4 : off % 4 = 0) (v : Word32) {s : State} (hb : busy s = false) :
    hostWrite32 off v s = .ok (writeWindowByte (writeWindowByte (writeWindowByte (writeWindowByte s off (lane v 0)) (off + 1)
      (lane v 1)) (off + 2) (lane v 2)) (off + 3) (lane v 3)) := by
  unfold hostWrite32 accept32 Config.registerBytes
  rw [if_neg (by omega), hb]
  simp only [show ¬ off < 0x100 by omega, Bool.false_eq_true, if_false]

theorem hostWrite32_busy {off : Nat} (h4 : off % 4 = 0) (v : Word32) {s : State} (hb : busy s = true) :
    hostWrite32 off v s = .ok s := by
  unfold hostWrite32 accept32
  rw [if_neg (by omega), hb]
  simp only [if_true]

/-! ## Byte lanes (R65) -/

theorem ofLanes_toNat (b0 b1 b2 b3 : Byte) :
    (ofLanes b0 b1 b2 b3).toNat = b0.toNat + 2 ^ 8 * b1.toNat + 2 ^ 16 * b2.toNat + 2 ^ 24 * b3.toNat := by
  have h0 := b0.isLt
  have h1 := b1.isLt
  have h2 := b2.isLt
  have h3 := b3.isLt
  unfold ofLanes
  simp only [BitVec.toNat_append]
  rw [← Nat.shiftLeft_add_eq_or_of_lt h2, ← Nat.shiftLeft_add_eq_or_of_lt h1, ← Nat.shiftLeft_add_eq_or_of_lt h0]
  simp only [Nat.shiftLeft_eq]
  omega

theorem lane_toNat (v : Word32) (k : Nat) : (lane v k).toNat = v.toNat / 2 ^ (8 * k) % 2 ^ 8 := by
  simp [lane, BitVec.extractLsb'_toNat, Nat.shiftRight_eq_div_pow]

/-- Each lane of four bytes is its byte. -/
theorem lane_ofLanes (b0 b1 b2 b3 : Byte) : lane (ofLanes b0 b1 b2 b3) 0 = b0 ∧ lane (ofLanes b0 b1 b2 b3) 1 = b1 ∧
    lane (ofLanes b0 b1 b2 b3) 2 = b2 ∧ lane (ofLanes b0 b1 b2 b3) 3 = b3 := by
  have h0 := b0.isLt
  have h1 := b1.isLt
  have h2 := b2.isLt
  have h3 := b3.isLt
  refine ⟨?_, ?_, ?_, ?_⟩ <;> apply BitVec.eq_of_toNat_eq <;> rw [lane_toNat, ofLanes_toNat] <;> omega

/-- A word is its four lanes. -/
theorem ofLanes_lane (v : Word32) : ofLanes (lane v 0) (lane v 1) (lane v 2) (lane v 3) = v := by
  have h := v.isLt
  apply BitVec.eq_of_toNat_eq
  rw [ofLanes_toNat, lane_toNat, lane_toNat, lane_toNat, lane_toNat]
  omega

end Sys2Proof.Machine
end

