-- ==== Sys2Proof/Tests/Slice0.lean ====
section
/-! SUPPORT. Tests of the model against spec/95_test_vectors.md and the tables of spec/, one step each, and for every
statement with hypotheses a witness that meets them. Expected values are the spec's, copied from the section each heading
names. -/

set_option Elab.async false

namespace Sys2Proof.Tests

open Sys2Proof Sys2Proof.Machine

/-! ## Helpers -/

/-- The n bytes that a hexadecimal number writes out, first byte first. -/
def hexBytes (n v : Nat) : Bytes := (List.range n).map fun k => BitVec.ofNat 8 (v >>> (8 * (n - 1 - k)))

/-- "abc". -/
def abc : Bytes := hexBytes 3 0x616263

/-- The idle state with a key, an IV and a message in their buffers and their lengths in the registers. -/
def loaded (key iv msg : Bytes) : State :=
  { State.reset with
    keymem := cellsFrom 0 key
    ivmem := cellsFrom 0 iv
    din := cellsFrom 0 msg
    keylen := BitVec.ofNat 32 key.length
    ivlen := BitVec.ofNat 32 iv.length
    dinlen := BitVec.ofNat 32 msg.length }

/-- The idle state with KEYLEN, IVLEN and DINLEN set and nothing written to the buffers. -/
def lengths (keylen ivlen dinlen : Nat) : State :=
  { State.reset with keylen := BitVec.ofNat 32 keylen, ivlen := BitVec.ofNat 32 ivlen, dinlen := BitVec.ofNat 32 dinlen }

/-- STATUS after the one step that runs a command word. -/
def statusOf (word : Nat) (s : State) : Option Word32 :=
  match step (s.withFetchWord 32 word) with
  | .next t => some t.status
  | _ => none

/-- STATUS and the output after the one step that runs a command word. -/
def outputOf (word : Nat) (s : State) : Option (Word32 × Bytes) :=
  match step (s.withFetchWord 32 word) with
  | .next t => some (t.status, memRead t .dout 0 t.doutlen.toNat)
  | _ => none

/-- The test cipher TOY of R334, encrypting. -/
def toyE (sb : Nat) (key x : Bytes) : Bytes := (xorBytes x (key.take sb)).drop 1 ++ (xorBytes x (key.take sb)).take 1

/-- The test cipher TOY of R334, decrypting. -/
def toyD (sb : Nat) (key y : Bytes) : Bytes := xorBytes (y.drop (sb - 1) ++ y.take (sb - 1)) (key.take sb)

/-- K16, IV16, K8, IV8 and P of R334. -/
def k16 : Bytes := hexBytes 16 0x2b7e151628aed2a6abf7158809cf4f3c
def iv16 : Bytes := hexBytes 16 0x000102030405060708090a0b0c0d0e0f
def k8 : Bytes := hexBytes 8 0x133457799bbcdff1
def iv8 : Bytes := hexBytes 8 0x0001020304050607
def quick : Bytes := hexBytes 32 0x54686520717569636b2062726f776e20666f78206a756d7073206f7665722074

/-- A mode over TOY with K16 and IV16. -/
def toy128 (d : Dir) (m : Mode) (x : Bytes) : Bytes := runMode (toyE 16 k16) (toyD 16 k16) 16 d m iv16 x

/-- A mode over TOY with K8 and IV8. -/
def toy64 (d : Dir) (m : Mode) (x : Bytes) : Bytes := runMode (toyE 8 k8) (toyD 8 k8) 8 d m iv8 x

/-- A machine after reset with one host that runs a program. -/
def withHost (program : List HostStmt) : State :=
  State.boot Config.suggested [{ program := program, pc := 0, vars := [], run := .running }]

/-! ## Well-formed commands (R96) -/

theorem test_pad_of_block_size_zero_is_ill_formed : (Instr.padN 0).wellFormed = false := by decide
theorem test_pad_of_block_size_255_is_well_formed : (Instr.padN 255).wellFormed = true := by decide

/-! ## Decoding (R91 to R99)

One word of each family, bit by bit: reserved 31:24, BSIZE 23:16, reserved 15:13, FAM 12:11, MODE 10:8, ALG 7:4, OP 3:0.
Then every word of the map of R99. -/

theorem test_decode_hash_bits : decode 0b00000000_00000000_000_00_000_0101_0001#32 = .ok .hashSha512 := by decide
theorem test_decode_hmac_bits : decode 0b00000000_00000000_000_00_000_0010_0010#32 = .ok .hmacSha224 := by decide
theorem test_decode_enc_bits : decode 0b00000000_00000000_000_01_011_0000_0011#32 = .ok .encOfbC64 := by decide
theorem test_decode_dec_bits : decode 0b00000000_00000000_000_00_100_0000_0100#32 = .ok .decCtrC128 := by decide
theorem test_decode_pad_bits : decode 0b00000000_10000001_000_00_000_0000_0101#32 = .ok (.padN 129) := by decide
theorem test_decode_unpad_bits : decode 0b00000000_00000000_000_00_000_0000_0110#32 = .ok .unpad := by decide
theorem test_decode_the_command_map : ∀ p ∈ fixedCommandMap, decode p.1 = .ok p.2 ∧ encode p.2 = p.1 := by decide
theorem test_decode_pad_edges : decode 0x00010005#32 = .ok (.padN 1) ∧ decode 0x00FF0005#32 = .ok (.padN 255) ∧
    encode (.padN 255) = 0x00FF0005#32 := by decide

/-! ## Refused words (95 §2.1) -/

theorem test_refused_illegal_cmd : [
    0x00000000#32, 0x00000007#32, 0x0000000F#32, 0x00002003#32, 0x01000001#32, 0x80000031#32, 0x00000101#32,
      0x00000801#32, 0x00010031#32, 0x00000013#32, 0x00100003#32, 0x00100015#32, 0x00100105#32, 0x00010006#32,
      0x00000016#32, 0x00002061#32, 0x00000561#32, 0x00000015#32].map decode =
    List.replicate 18 (.error .illegalCmd) := by decide +kernel
theorem test_refused_unsupported_combination : [
    0x00000061#32, 0x000000F2#32, 0x00000503#32, 0x00000704#32, 0x00001003#32, 0x00001C04#32, 0x00001503#32].map decode =
    List.replicate 7 (.error .unsupportedCombination) := by decide +kernel
theorem test_refused_invalid_block_size : [
    0x00000005#32].map decode =
    List.replicate 1 (.error .invalidBlockSize) := by decide +kernel
theorem test_refused_word_status : statusOf 0x7 State.reset = some 0x00000052#32 ∧ statusOf 0x61 State.reset = some 0x00000042#32 ∧
    statusOf 0x5 State.reset = some 0x00000062#32 := by decide +kernel

/-! ## Padding (95 §2.2) -/

theorem test_pad_block_counts_64 : [0, 3, 55, 56, 63, 64, 111, 112, 119, 120].map (fun n => (mdpad (hashParams .md5) (rep 0x61#8 n)).length / 64) =
    [1, 1, 1, 2, 2, 2, 2, 2, 2, 3] := by decide +kernel
theorem test_pad_block_counts_128 : [0, 111, 112, 128].map (fun n => (mdpad (hashParams .sha512) (rep 0x61#8 n)).length / 128) = [1, 1, 2, 2] := by decide +kernel
theorem test_pad_length_field_little : (mdpad (hashParams .md5) (rep 0x61#8 1000)).drop 1016 = hexBytes 8 0x401F000000000000 := by decide +kernel
theorem test_pad_length_field_big : (mdpad (hashParams .sha256) (rep 0x61#8 1000)).drop 1016 = hexBytes 8 0x0000000000001F40 := by decide +kernel

/-! ## Hash commands (95 §2.3) -/

theorem test_hash_md5_abc : outputOf 0x01 (loaded [] [] abc) =
    some (0x2#32, hexBytes 16 0x900150983cd24fb0d6963f7d28e17f72) := by decide +kernel
theorem test_hash_md5_two_blocks : outputOf 0x01 (loaded [] [] (rep 0x61#8 56)) =
    some (0x2#32, hexBytes 16 0x3b0c8ac703f828b04c6c197006d17218) := by decide +kernel
theorem test_hash_sha1_abc : outputOf 0x11 (loaded [] [] abc) =
    some (0x2#32, hexBytes 20 0xa9993e364706816aba3e25717850c26c9cd0d89d) := by decide +kernel
theorem test_hash_sha1_two_blocks : outputOf 0x11 (loaded [] [] (rep 0x61#8 56)) =
    some (0x2#32, hexBytes 20 0xc2db330f6083854c99d4b5bfb6e8f29f201be699) := by decide +kernel
theorem test_hash_sha224_abc : outputOf 0x21 (loaded [] [] abc) =
    some (0x2#32, hexBytes 28 0x23097d223405d8228642a477bda255b32aadbce4bda0b3f7e36c9da7) := by decide +kernel
theorem test_hash_sha224_two_blocks : outputOf 0x21 (loaded [] [] (rep 0x61#8 56)) =
    some (0x2#32, hexBytes 28 0xd40854fc9caf172067136f2e29e1380b14626bf6f0dd06779f820dcd) := by decide +kernel
theorem test_hash_sha256_abc : outputOf 0x31 (loaded [] [] abc) =
    some (0x2#32, hexBytes 32 0xba7816bf8f01cfea414140de5dae2223b00361a396177a9cb410ff61f20015ad) := by decide +kernel
theorem test_hash_sha256_two_blocks : outputOf 0x31 (loaded [] [] (rep 0x61#8 56)) =
    some (0x2#32, hexBytes 32 0xb35439a4ac6f0948b6d6f9e3c6af0f5f590ce20f1bde7090ef7970686ec6738a) := by decide +kernel
theorem test_hash_sha384_abc : outputOf 0x41 (loaded [] [] abc) =
    some (0x2#32, hexBytes 48 0xcb00753f45a35e8bb5a03d699ac65007272c32ab0eded1631a8b605a43ff5bed8086072ba1e7cc2358baeca134c825a7) := by decide +kernel
theorem test_hash_sha512_abc : outputOf 0x51 (loaded [] [] abc) =
    some (0x2#32, hexBytes 64 0xddaf35a193617abacc417349ae20413112e6fa4e89a97ea20a9eeee64b55d39a2192992a274fc1a836ba3c23a3feebbd454d4423643ce80e2a9ac94fa54ca49f) := by decide +kernel
theorem test_hash_sha512_two_blocks : outputOf 0x51 (loaded [] [] (rep 0x61#8 112)) =
    some (0x2#32, hexBytes 64 0xc01d080efd492776a1c43bd23dd99d0a2e626d481e16782e75d54c2503b5dc32bd05f0f1ba33e568b88fd2d970929b719ecbb152f58f130a407c8830604b70ca) := by decide +kernel

/-! ## Compression internals for "abc" (95 §2.3.1) -/

/-- The one padded block of "abc" at Bb = 64, big-endian length. -/
def abcBlock : Bytes := mdpad (hashParams .sha256) abc

theorem test_md5_steps : md5Rounds (md5Schedule (mdpad (hashParams .md5) abc)) 2 (md5Load md5Iv) =
    { a := 0x98badcfe#32, b := 0x344a8432#32, c := 0xd6d117b4#32, d := 0xefcdab89#32 } := by decide +kernel
theorem test_sha1_schedule : ((sha1Schedule abcBlock).drop 16).take 4 = [0xc2c4c700#32, 0x00000000#32, 0x00000030#32, 0x85898e01#32] ∧
    (sha1Schedule abcBlock).getD 79 0 = 0x822e0879#32 := by decide +kernel
theorem test_sha1_rounds : sha1Rounds (sha1Schedule abcBlock) 2 (sha1Load sha1Iv) =
    { a := 0x8990536d#32, b := 0x0116fc33#32, c := 0x59d148c0#32, d := 0x7bf36ae2#32, e := 0x98badcfe#32 } := by decide +kernel
theorem test_sha256_schedule : ((expand256 abcBlock).drop 16).take 4 = [0x61626380#32, 0x000f0000#32, 0x7da86405#32, 0x600003c6#32] ∧
    (expand256 abcBlock).getD 63 0 = 0x12b1edeb#32 := by decide +kernel
theorem test_sha256_rounds : sha2List (sha256Rounds (expand256 abcBlock) 2 (sha2Load sha256Iv)) =
    [0x5a6ad9ad#32, 0x5d6aebcd#32, 0x6a09e667#32, 0xbb67ae85#32, 0x78ce7989#32, 0xfa2a4622#32, 0x510e527f#32, 0x9b05688c#32] := by decide +kernel
theorem test_sha512_schedule : ((expand512 (mdpad (hashParams .sha512) abc)).drop 16).take 4 =
    [0x6162638000000000#64, 0x00030000000000c0#64, 0x0a9699a24c700003#64, 0x00000c0060000603#64] := by decide +kernel
theorem test_sha384_round : sha2List (sha512Rounds (expand512 (mdpad (hashParams .sha384) abc)) 1 (sha2Load sha384Iv)) =
    [0x470994ad30873f88#64, 0xcbbb9d5dc1059ed8#64, 0x629a292a367cd507#64, 0x9159015a3070dd17#64,
     0xbd03f724be6075f9#64, 0x67332667ffc00b31#64, 0x8eb44a8768581511#64, 0xdb0c2e0d64f98fa7#64] := by decide +kernel

/-! ## HMAC commands (95 §2.4) -/

/-- "what do ya want for nothing?". -/
def jefeMessage : Bytes := hexBytes 28 0x7768617420646f2079612077616e7420666f72206e6f7468696e673f

theorem test_hmac_md5_jefe : outputOf 0x02 (loaded (hexBytes 4 0x4a656665) [] jefeMessage) =
    some (0x2#32, hexBytes 16 0x750c783e6ab0b503eaa86e310a5db738) := by decide +kernel
theorem test_hmac_md5_long_key : outputOf 0x02 (loaded ((List.range 65).map (BitVec.ofNat 8)) [] abc) =
    some (0x2#32, hexBytes 16 0x5b85979048f0effd21a05556dfa2faac) := by decide +kernel
theorem test_hmac_sha1_jefe : outputOf 0x12 (loaded (hexBytes 4 0x4a656665) [] jefeMessage) =
    some (0x2#32, hexBytes 20 0xeffcdf6ae5eb2fa2d27416d5f184df9c259a7c79) := by decide +kernel
theorem test_hmac_sha224_jefe : outputOf 0x22 (loaded (hexBytes 4 0x4a656665) [] jefeMessage) =
    some (0x2#32, hexBytes 28 0xa30e01098bc6dbbf45690f3a7e9e6d0f8bbea2a39e6148008fd05e44) := by decide +kernel
theorem test_hmac_sha256_jefe : outputOf 0x32 (loaded (hexBytes 4 0x4a656665) [] jefeMessage) =
    some (0x2#32, hexBytes 32 0x5bdcc146bf60754e6a042426089575c75a003f089d2739839dec58b964ec3843) := by decide +kernel
theorem test_hmac_sha384_jefe : outputOf 0x42 (loaded (hexBytes 4 0x4a656665) [] jefeMessage) =
    some (0x2#32, hexBytes 48 0xaf45d2e376484031617f78d2b58a6b1b9c7ef464f5a01b47e42ec3736322445e8e2240ca5e69e2c78b3239ecfab21649) := by decide +kernel
theorem test_hmac_sha512_jefe : outputOf 0x52 (loaded (hexBytes 4 0x4a656665) [] jefeMessage) =
    some (0x2#32, hexBytes 64 0x164b7a7bfcf819e2e395fbe73b56e0a387bd64222e831fd610270cd7ea2505549758bf75c05a994a6d034f65f8f0e6fdcaeab1a34d4a6b4b636e070a38bce737) := by decide +kernel
theorem test_hmac_sha512_long_key : outputOf 0x52 (loaded ((List.range 129).map (BitVec.ofNat 8)) [] abc) =
    some (0x2#32, hexBytes 64 0x767a0a8da500b0f4b08ac06b7535b29cb7f4449beee8e8094e8cb6e8fa7c51049f9964e868da0504100c0ffb79a8f6542d8ed75b096472bd667ece4522d8cd3f) := by decide +kernel

/-! ## PAD and UNPAD (95 §2.5) -/

theorem test_pad_abc_8 : outputOf 0x00080005 (loaded [] [] abc) = some (0x2#32, abc ++ rep 0x05#8 5) := by decide +kernel
theorem test_pad_a_full_block : outputOf 0x00140005 (loaded [] [] (rep 0x59#8 20)) = some (0x2#32, rep 0x59#8 20 ++ rep 0x14#8 20) := by decide +kernel
theorem test_unpad_abc : outputOf 0x6 (loaded [] [] (abc ++ rep 0x04#8 4)) = some (0x2#32, abc) := by decide +kernel
theorem test_unpad_of_inconsistent_inputs_is_no_error : ∀ m ∈ [hexBytes 4 0x61620303, hexBytes 4 0x61626300, hexBytes 2 0x0505, []],
    consistent m = false ∧ statusOf 0x6 (loaded [] [] m) = some 0x2#32 := by decide +kernel
theorem test_pad_length_range : statusOf 0x00080005 (lengths 0 0 65537) = some 0x00000072#32 ∧ statusOf 0x6 (lengths 0 0 65537) = some 0x00000072#32 := by decide +kernel

/-! ## The modes under TOY (95 §2.6.1, §2.6.4) -/

theorem test_enc_ecb_c128 : toy128 .enc .ecb (quick.take 32) =
    hexBytes 32 0x16703659dbbbc5c0d777fa66b8211c7f116d3642dbbfd6d8d77afe6cbd6f484d := by decide +kernel
theorem test_dec_ecb_c128 : toy128 .dec .ecb (hexBytes 32 0x16703659dbbbc5c0d777fa66b8211c7f116d3642dbbfd6d8d77afe6cbd6f484d) =
    quick.take 32 := by decide +kernel
theorem test_enc_ecb_c64 : toy64 .enc .ecb (quick.take 16) = hexBytes 16 0x5c3259eac9b6924714350bf4cbb1d178 := by decide +kernel
theorem test_dec_ecb_c64 : toy64 .dec .ecb (hexBytes 16 0x5c3259eac9b6924714350bf4cbb1d178) = quick.take 16 := by decide +kernel
theorem test_enc_cbc_c128 : toy128 .enc .cbc (quick.take 32) =
    hexBytes 32 0x1772355ddebdc2c8de7df16ab52f137f63586b9c667d1e06aa8b94d9927c375a := by decide +kernel
theorem test_dec_cbc_c128 : toy128 .dec .cbc (hexBytes 32 0x1772355ddebdc2c8de7df16ab52f137f63586b9c667d1e06aa8b94d9927c375a) =
    quick.take 32 := by decide +kernel
theorem test_enc_cbc_c64 : toy64 .enc .cbc (quick.take 16) = hexBytes 16 0x5d305aeeccb09547246fe5387b249625 := by decide +kernel
theorem test_dec_cbc_c64 : toy64 .dec .cbc (hexBytes 16 0x5d305aeeccb09547246fe5387b249625) = quick.take 16 := by decide +kernel
theorem test_enc_cfb_c128 : toy128 .enc .cfb (quick.take 20) = hexBytes 20 0x2b7f700cdaa1c8c0953fe177ad365d0b670a62d2 := by decide +kernel
theorem test_dec_cfb_c128 : toy128 .dec .cfb (hexBytes 20 0x2b7f700cdaa1c8c0953fe177ad365d0b670a62d2) = quick.take 20 := by decide +kernel
theorem test_enc_cfb_c64 : toy64 .enc .cfb (quick.take 12) = hexBytes 12 0x613d1fbfc8ac9f706268a421 := by decide +kernel
theorem test_dec_cfb_c64 : toy64 .dec .cfb (hexBytes 12 0x613d1fbfc8ac9f706268a421) = quick.take 12 := by decide +kernel
theorem test_enc_ofb_c128 : toy128 .enc .ofb (quick.take 20) = hexBytes 20 0x2b7f700cdaa1c8c0953fe177ad365d0b0f6f42a3 := by decide +kernel
theorem test_dec_ofb_c128 : toy128 .dec .ofb (hexBytes 20 0x2b7f700cdaa1c8c0953fe177ad365d0b0f6f42a3) = quick.take 20 := by decide +kernel
theorem test_enc_ofb_c64 : toy64 .enc .ofb (quick.take 12) = hexBytes 12 0x613d1fbfc8ac9f700a0d8450 := by decide +kernel
theorem test_dec_ofb_c64 : toy64 .dec .ofb (hexBytes 12 0x613d1fbfc8ac9f700a0d8450) = quick.take 12 := by decide +kernel
theorem test_enc_ctr_c128 : toy128 .enc .ctr (quick.take 20) = hexBytes 20 0x2b7f700cdaa1c8c0953fe177ad365d0b19786d0c := by decide +kernel
theorem test_dec_ctr_c128 : toy128 .dec .ctr (hexBytes 20 0x2b7f700cdaa1c8c0953fe177ad365d0b19786d0c) = quick.take 20 := by decide +kernel
theorem test_enc_ctr_c64 : toy64 .enc .ctr (quick.take 12) = hexBytes 12 0x613d1fbfc8ac9f705e7518ed := by decide +kernel
theorem test_dec_ctr_c64 : toy64 .dec .ctr (hexBytes 12 0x613d1fbfc8ac9f705e7518ed) = quick.take 12 := by decide +kernel
theorem test_ctr_wraps_c128 : runMode (toyE 16 k16) (toyD 16 k16) 16 .enc .ctr (rep 0xFF#8 16) (zeros 32) =
    hexBytes 32 0x81eae9d7512d595408ea77f630b0c3d47e151628aed2a6abf7158809cf4f3c2b := by decide +kernel
theorem test_ctr_carries_c64 : runMode (toyE 8 k8) (toyD 8 k8) 8 .enc .ctr (hexBytes 8 0xff) (zeros 16) = hexBytes 16 0x3457799bbcdf0e133457799bbcdef113 := by decide +kernel

/-! ## Validation (95 §2.6.5) -/

theorem test_validation_status_12 : ∀ p ∈ [(0x103, 15, 8, 20), (0x103, 33, 16, 32), (0x103, 0, 0, 0), (0x803, 16, 0, 16)],
    statusOf p.1 (lengths p.2.1 p.2.2.1 p.2.2.2) = some 0x00000012#32 := by decide +kernel
theorem test_validation_status_22 : ∀ p ∈ [(0x103, 16, 8, 20), (0xA03, 8, 16, 12), (0x403, 16, 8, 20)],
    statusOf p.1 (lengths p.2.1 p.2.2.1 p.2.2.2) = some 0x00000022#32 := by decide +kernel
theorem test_validation_status_32 : ∀ p ∈ [(0x103, 16, 16, 20), (0x803, 8, 0, 12), (0x4, 16, 7, 17)],
    statusOf p.1 (lengths p.2.1 p.2.2.1 p.2.2.2) = some 0x00000032#32 := by decide +kernel
theorem test_validation_status_02 : ∀ p ∈ [(0x103, 24, 16, 32), (0x303, 16, 16, 20)],
    statusOf p.1 (lengths p.2.1 p.2.2.1 p.2.2.2) = some 0x00000002#32 := by decide +kernel
theorem test_length_range_precedes_the_key_checks : ∀ i ∈ [Instr.encEcbC128, .encEcbC64, .decEcbC128, .decEcbC64, .encCbcC128, .encCbcC64, .decCbcC128, .decCbcC64,
      .encCfbC128, .encCfbC64, .decCfbC128, .decCfbC64, .encOfbC128, .encOfbC64, .decOfbC128, .decOfbC64, .encCtrC128,
      .encCtrC64, .decCtrC128, .decCtrC64],
    statusOf (encode i).toNat (lengths 15 3 65537) = some 0x00000072#32 := by decide +kernel
theorem test_hmac_key_range : statusOf 0x32 (lengths 257 0 0) = some 0x00000072#32 ∧ statusOf 0x31 (lengths 257 0 0) = some 0x00000002#32 := by decide +kernel
theorem test_stream_modes_of_nothing : ∀ w ∈ [0x203, 0x204, 0x303, 0x304, 0x403, 0x404], outputOf w (lengths 32 16 0) = some (0x2#32, []) := by decide +kernel

/-! ## The window (95 §2.7) -/

/-- The value a 32-bit read returns. -/
def word32At (off : Nat) (s : State) : Option Word32 := ((hostRead32 off s).toOption).map Prod.fst

/-- The value an 8-bit read returns. -/
def byteAt (off : Nat) (s : State) : Option Byte := ((hostRead8 off s).toOption).map Prod.fst

theorem test_h1_h2_reads_after_reset : word32At 0x004 State.reset = some 0 ∧ word32At 0x018 State.reset = some 0 := by decide +kernel
theorem test_h3_h4_ignored_writes : hostWrite32 0x004 0xFFFFFFFF#32 State.reset = .ok State.reset ∧ hostWrite32 0x014 5#32 State.reset = .ok State.reset := by decide +kernel
theorem test_h5_lane_order : (hostWrite32 0x01000000 0x64636261#32 State.reset).toOption.bind (byteAt 0x01000002) = some 0x63#8 := by decide +kernel
theorem test_h6_four_bytes_are_a_word : word32At 0x01000000 (loaded [] [] (hexBytes 4 0x61626364)) = some 0x64636261#32 := by decide +kernel
theorem test_h7_byte_access_to_a_register : hostWrite8 0x008 1#8 State.reset = .error (.busError (.byteAccessToRegister 0x008)) := by decide +kernel
theorem test_h8_misaligned_word : hostRead32 0x01000002 State.reset = .error (.busError (.misalignedWord 0x01000002)) := by decide +kernel
theorem test_h9_hash_of_nothing_after_reset : outputOf 0x31 State.reset =
    some (0x2#32, hexBytes 32 0xe3b0c44298fc1c149afbf4c8996fb92427ae41e4649b934ca495991b7852b855) := by decide +kernel
theorem test_h11_an_error_keeps_dout : (match step ({ loaded (rep 0x00#8 15) [] (rep 0x00#8 16) with dout := cellsFrom 0 abc, doutlen := 3#32 }.withFetchWord 32 0x3) with
    | .next t => (t.status, t.doutlen, memRead t .dout 0 3)
    | _ => (0, 0, [])) = (0x12#32, 0#32, abc) := by decide +kernel
theorem test_h13_a_write_while_busy_is_dropped : hostWrite32 0x000 0x6#32 (State.reset.withFetchWord 32 0x31) = .ok (State.reset.withFetchWord 32 0x31) := by decide +kernel
theorem test_p6_a_bus_error_stops_the_host : (match step (withHost [.w8 0x010 (.lit 3#32), .halt]) with
    | .next t => (t.hostFault, readyHosts t, t.dinlen)
    | _ => (none, [0], 1)) = (some (.byteAccessToRegister 0x010), [], 0) := by decide +kernel
theorem test_p5_a_write_after_issue : (match step { withHost [.w32 0x010 (.lit 5#32)] with status := 1#32, inflight := some { word := 0x31#32, wait := 1 } } with
    | .next t => (t.dinlen, t.inflight)
    | _ => (1, none)) = (0, some { word := 0x31#32, wait := 0 }) := by decide +kernel

/-! ## Host accesses outside the window (R412: no engine effect; the host goes on, log entry 5) -/

theorem test_a_write_outside_the_window_has_no_engine_effect :
    (match step { withHost [.w32 0x03000000 (.lit 5#32)] with status := 1#32, inflight := some { word := 0x31#32, wait := 1 } } with
    | .next t => (t.status, t.dinlen, t.inflight, t.hostFault, t.hosts.map (·.pc))
    | _ => (0, 0, none, none, [])) = (1#32, 0#32, some { word := 0x31#32, wait := 0 }, none, [1]) := by decide +kernel
theorem test_a_read_outside_the_window_goes_on :
    (match step (withHost [.r8 0x03000000 0, .halt]) with
    | .next t => (t.status, t.hostFault, readyHosts t, t.hosts.map (·.pc))
    | _ => (1, none, [], [])) = (0#32, none, [0], [1]) := by decide +kernel


/-! ## Witnesses

For every statement with hypotheses, a state and operands that meet them all together, at the ends of each clause's range. -/

/-- A busy machine whose engine step waits for two host steps, with one host that reads STATUS. -/
def waiting : State :=
  { withHost [.r32 0x004 0, .bit1 0 0 0, .halt] with status := 1#32, cmd := 0x31#32, inflight := some { word := 0x31#32, wait := 2 } }

theorem witness_DecodeReadsExactlyTheEncodedWords : decode 0x00000C04#32 = .ok .decCtrC64 ∧
    (Instr.decCtrC64).wellFormed = true ∧ encode .decCtrC64 = 0x00000C04#32 := by decide

theorem witness_LegalWordsAreTheCommandMap : (0x00000001#32, Instr.hashMd5) ∈ fixedCommandMap ∧
    (1 : Byte) ≠ 0 ∧ (255 : Byte) ≠ 0 ∧ decode (padWord 255) = .ok (.padN 255) := by decide +kernel

theorem witness_RefusedWordsHaveTheirCode : decode 0x0000000F#32 = .error .illegalCmd ∧
    decode 0x000000F2#32 = .error .unsupportedCombination ∧ decode 0x00000005#32 = .error .invalidBlockSize := by decide +kernel

theorem witness_StepRunsTheDecodedCommand :
    (State.reset.withFetchWord 32 0x31).inflight = some { word := 0x31#32, wait := 0 } ∧ decode 0x31#32 = .ok .hashSha256 ∧
    (State.reset.withFetchWord 32 0x31).resetInput = [] ∧
    ({ State.reset.withFetchWord 32 0x31 with resetInput := [false] } : State).resetInput = false :: [] ∧
    readyHosts { State.reset with inflight := some { word := 0x31#32, wait := 7 } } = [] := by decide +kernel

/-- The clauses about host steps: a host alone with nothing in flight, one while a command waits, and two that are ready. -/
theorem witness_StepRunsTheDecodedCommand_hosts :
    (pickHost (withHost [.halt]) = some (0, withHost [.halt]) ∧ (withHost [.halt]).inflight = none ∧
      (withHost [.halt]).resetInput.head? ≠ some true) ∧
    (pickHost waiting = some (0, waiting) ∧ waiting.inflight = some { word := 0x31#32, wait := 1 + 1 } ∧
      waiting.resetInput.head? ≠ some true) ∧
    readyHosts (State.boot Config.suggested [⟨[.halt], 0, [], .running⟩, ⟨[.halt], 0, [], .running⟩]) ≠ [] := by decide +kernel

theorem witness_PlacedCommandRunsNext : decodeTableWord 32 0x00FF0005 = some (.padN 255) := by decide

theorem witness_IdleMachineStays : State.reset.inflight = none ∧ readyHosts State.reset = [] ∧ State.reset.resetInput = [] := by
  decide

theorem witness_CmdIsWriteAnyReadBack : busy State.reset = false ∧ busy (State.reset.withFetchWord 32 0x31) = true := by decide

theorem witness_IssueFrame : busy State.reset = false ∧ ∃ t, hostWrite32 0x000 0x31#32 State.reset = .ok t := ⟨by decide, _, rfl⟩

/-- The hypothesis, and an input for each of UNPAD's two ways to complete: a consistent one and, empty, an inconsistent one. -/
theorem witness_CommandsNeverPartlyComplete : State.reset.params.legal = true ∧
    ((loaded [] [] [1]).params.legal = true ∧ consistent (msgOf (loaded [] [] [1])) = true) ∧
    ((loaded [] [] []).params.legal = true ∧ consistent (msgOf (loaded [] [] [])) = false) := by decide +kernel

theorem witness_ValidationOrder :
    firstFailing (commandClass (.padN 1)) (lengths 0 0 65537) = some .lengthRange ∧
    firstFailing (commandClass .hmacMd5) (lengths 257 0 65536) = some .lengthRange ∧
    firstFailing (commandClass .encCtrC128) (lengths 15 15 15) = some .invalidKeySize ∧
    firstFailing (commandClass .encCtrC64) (lengths 16 8 8) = some .invalidKeySize ∧
    firstFailing (commandClass .decOfbC64) (lengths 8 16 8) = some .invalidIvSize ∧
    firstFailing (commandClass .decCbcC128) (lengths 32 16 0) = some .invalidBlockAlignment ∧
    firstFailing (commandClass .encEcbC64) (lengths 8 0 65536) = none ∧
    firstFailing (commandClass .unpad) (lengths 0 0 65536) = none := by decide +kernel

theorem witness_ValidationOrder_words : decode 0x80000031#32 = .error .illegalCmd ∧ decode 0x00000403#32 = .ok .encCtrC128 := by
  decide +kernel

theorem witness_HashCommandsComplete : (lengths 0 0 65536).dinlen.toNat ≤ (lengths 0 0 65536).params.inCap := by decide +kernel

theorem witness_HmacCommandsComplete : (lengths 256 0 65536).dinlen.toNat ≤ (lengths 256 0 65536).params.inCap ∧
    (lengths 256 0 65536).keylen.toNat ≤ 256 := by decide +kernel

theorem witness_EcbCommandsComplete :
    (∀ k ∈ [16, 24, 32], CipherReady .c128 (lengths k 3 65536) ∧ (lengths k 3 65536).dinlen.toNat % Config.blockBytes .c128 = 0) ∧
    CipherReady .c64 (lengths 8 0 8) ∧ 0 < (lengths 8 0 8).dinlen.toNat ∧ (lengths 8 0 8).dinlen.toNat % Config.blockBytes .c64 = 0 := by
  unfold CipherReady
  decide +kernel

theorem witness_CbcCommandsComplete :
    (CipherReady .c128 (lengths 24 16 32) ∧ (lengths 24 16 32).ivlen.toNat = Config.blockBytes .c128 ∧
      0 < (lengths 24 16 32).dinlen.toNat ∧ (lengths 24 16 32).dinlen.toNat % Config.blockBytes .c128 = 0) ∧
    (CipherReady .c64 (lengths 8 8 65536) ∧ (lengths 8 8 65536).ivlen.toNat = Config.blockBytes .c64 ∧
      0 < (lengths 8 8 65536).dinlen.toNat ∧ (lengths 8 8 65536).dinlen.toNat % Config.blockBytes .c64 = 0) := by
  unfold CipherReady
  decide +kernel

theorem witness_StreamCommandsComplete :
    (∀ n ∈ [0, 1, 17, 65536], CipherReady .c128 (lengths 32 16 n) ∧ (lengths 32 16 n).ivlen.toNat = Config.blockBytes .c128) ∧
    (∀ n ∈ [0, 1, 12, 65536], CipherReady .c64 (lengths 8 8 n) ∧ (lengths 8 8 n).ivlen.toNat = Config.blockBytes .c64) := by
  unfold CipherReady
  decide +kernel

theorem witness_PadCommandCompletes : (1 : Byte) ≠ 0 ∧ (255 : Byte) ≠ 0 ∧ (lengths 0 0 65536).params.legal = true ∧
    (lengths 0 0 65536).dinlen.toNat ≤ (lengths 0 0 65536).params.inCap := by decide +kernel

theorem witness_UnpadStripsAConsistentRun :
    (1 ≤ (5 : Byte).toNat ∧ (loaded [] [] (abc ++ rep 5 5)).dinlen.toNat ≤ (loaded [] [] (abc ++ rep 5 5)).params.inCap ∧
      memRead (loaded [] [] (abc ++ rep 5 5)) .din 0 8 = abc ++ List.replicate (5 : Byte).toNat 5) ∧
    memRead (loaded [] [] [1]) .din 0 1 = [] ++ List.replicate (1 : Byte).toNat 1 := by decide +kernel

theorem witness_UnpadOfAnInconsistentInputIsUnspecified :
    (lengths 0 0 0).params.legal = true ∧ (lengths 0 0 0).dinlen.toNat ≤ (lengths 0 0 0).params.inCap ∧
    ∀ (b : Bytes) (n : Byte), 1 ≤ n.toNat → memRead (lengths 0 0 0) .din 0 (lengths 0 0 0).dinlen.toNat ≠ b ++ List.replicate n.toNat n := by
  refine ⟨by decide, by decide, fun b n hn h => ?_⟩
  have := congrArg List.length h
  simp [lengths, memRead] at this
  omega

theorem witness_ResetHasTheInvariant : Config.Params.legal { base := 0x40000000, inCap := 0x00FFFF00 } = true ∧
    Config.Params.legal { base := 0, inCap := 1 } = true ∧ (withHost [.halt]).hosts.all (fun h => h.run != .faulted && h.vars == []) = true := by
  decide

theorem witness_StepKeepsTheInvariant : (State.reset.withFetchWord 32 0x31).inv = true ∧
    ∃ t, step (State.reset.withFetchWord 32 0x31) = .next t := ⟨by decide +kernel, _, rfl⟩

theorem witness_StatusChangesOnlyAtIssueCompletionAndReset :
    (withHost [.w32 0x000 (.lit 0x31#32)]).inv = true ∧ (∃ t, step (withHost [.w32 0x000 (.lit 0x31#32)]) = .next t) ∧
    ({ State.reset with resetInput := [true] } : State).inv = true ∧
    ∃ t, step { State.reset with resetInput := [true] } = .next t := ⟨by decide +kernel, ⟨_, rfl⟩, by decide +kernel, _, rfl⟩

theorem witness_HostFaultAndParametersStay : ∃ t, step { State.reset with hostFault := some (.misalignedWord 2) } = .next t :=
  ⟨_, rfl⟩

theorem witness_SnapshotStaysWhileInFlight : waiting.inv = true ∧ waiting.inflight = some { word := 0x31#32, wait := 2 } ∧
    waiting.resetInput.head? ≠ some true ∧ ∃ t, step waiting = .next t ∧ t.inflight ≠ none :=
  ⟨by decide +kernel, rfl, by decide, _, rfl, by decide⟩

theorem witness_EngineStepIsAFunctionOfTheSnapshot :
    SameSnapshot (loaded k16 [] abc) { loaded k16 [] abc with doutDraw := 5, cmd := 7#32 } ∧
    (∃ t, engineStep 0x31#32 (loaded k16 [] abc) = .next t) ∧
    (∃ t, engineStep 0x31#32 { loaded k16 [] abc with doutDraw := 5, cmd := 7#32 } = .next t) ∧
    ¬ (decode 0x31#32 = .ok .unpad ∧ (loaded k16 [] abc).dinlen.toNat ≤ (loaded k16 [] abc).params.inCap ∧
      consistent (msgOf (loaded k16 [] abc)) = false) :=
  ⟨⟨rfl, rfl, rfl, rfl, fun sp k h => by cases sp <;> first | rfl | exact absurd rfl h⟩, ⟨_, rfl⟩, ⟨_, rfl⟩, fun h => by
    have := h.1; revert this; decide +kernel⟩

theorem witness_RepeatedCommandRepeatsItsOutput :
    ¬ (Instr.hashSha256 = .unpad ∧ consistent (msgOf (loaded [] [] abc)) = false) ∧
    ∃ t u, exec .hashSha256 (loaded [] [] abc) = .next t ∧ exec .hashSha256 t = .next u :=
  ⟨fun h => (nomatch h.1), _, _, rfl, rfl⟩

/-- One witness with two host steps still to pass and a host that is ready to take them, one with none. -/
theorem witness_InFlightCommandCompletes :
    (waiting.inv = true ∧ waiting.inflight = some { word := 0x31#32, wait := 2 } ∧ waiting.resetInput = [] ∧
      readyHosts waiting = [0]) ∧
    (State.reset.withFetchWord 32 0x6).inv = true ∧
    (State.reset.withFetchWord 32 0x6).inflight = some { word := 0x6#32, wait := 0 } ∧
    (State.reset.withFetchWord 32 0x6).resetInput = [] := by decide +kernel

theorem witness_ResetEventAbandonsAndClears :
    ({ State.reset.withFetchWord 32 0x31 with resetInput := [true] } : State).resetInput = true :: [] ∧
    ({ waiting with resetInput := [true, true], hostFault := some (.misalignedWord 2) } : State).resetInput = true :: [true] :=
  ⟨rfl, rfl⟩

theorem witness_StateAfterReset : (0x000 < 0x100 ∧ 0x000 % 4 = 0) ∧ (0x0FC < 0x100 ∧ 0x0FC % 4 = 0) ∧
    hostRead32 0x0FC (State.boot Config.suggested []) = .ok (0, State.boot Config.suggested []) := ⟨by decide, by decide, rfl⟩

theorem witness_WindowRegions : State.reset.params.legal = true ∧ busy State.reset = false ∧
    locate State.reset.params 0x0FF = none ∧ locate State.reset.params 0x100 = some (.keymem, 0) ∧
    locate State.reset.params 0x1FF = some (.keymem, 255) ∧ locate State.reset.params 0x200 = some (.ivmem, 0) ∧
    locate State.reset.params 0x20F = some (.ivmem, 15) ∧ locate State.reset.params 0x210 = none ∧
    locate State.reset.params 0x00FFFFFF = none ∧ locate State.reset.params 0x01000000 = some (.din, 0) ∧
    locate State.reset.params 0x0100FFFF = some (.din, 65535) ∧ locate State.reset.params 0x01010000 = none ∧
    locate State.reset.params 0x01FFFFFF = none ∧ locate State.reset.params 0x02000000 = some (.dout, 0) ∧
    locate State.reset.params 0x020100FF = some (.dout, 65791) ∧ locate State.reset.params 0x02010100 = none ∧
    locate State.reset.params 0x02FFFFFF = none := by decide +kernel

theorem witness_RegisterBlockAcceptsAlignedWordsOnly : (0x0FC < 0x100 ∧ 0x0FC % 4 = 0) ∧ (0x0FF < 0x100 ∧ 0x0FF % 4 ≠ 0) ∧
    (0x000 < 0x100 ∧ 0x000 % 4 = 0) := by decide

theorem witness_WordAccessesAreFourByteAccesses :
    (0x100 ≤ 0x100 ∧ 0x100 % 4 = 0) ∧ (0x100 ≤ 0x102FFFF ∧ 0x102FFFF % 4 ≠ 0) ∧
    (∃ t, hostWrite32 0x20C 0x64636261#32 State.reset = .ok t) ∧ ∃ v t, hostRead32 0x20C State.reset = .ok (v, t) :=
  ⟨by decide, by decide, ⟨_, rfl⟩, _, _, rfl⟩

theorem witness_WidthsSeeTheSameBytes : busy State.reset = false ∧ State.reset.params.legal = true ∧
    (0 % 4 = 0 ∧ 0 + 4 ≤ State.reset.params.inCap) ∧ (65532 % 4 = 0 ∧ 65532 + 4 ≤ State.reset.params.inCap) := by decide

theorem witness_RegisterWritesWhileIdle : busy State.reset = false ∧ (0x018 ≤ 0x018 ∧ 0x018 < 0x100 ∧ 0x018 % 4 = 0) ∧
    (0x018 ≤ 0x0FC ∧ 0x0FC < 0x100 ∧ 0x0FC % 4 = 0) := by decide

theorem witness_WritesWhileBusyAreDropped : busy waiting = true ∧ waiting.params.legal = true ∧ 0x000 % 4 = 0 ∧
    0x100 ≤ 0x02FFFFFF ∧ 65535 < waiting.params.inCap := by decide

theorem witness_ResultsReadWhileBusyAreFree : busy waiting = true ∧ waiting.params.legal = true ∧ 65791 < waiting.params.inCap + 256 := by
  decide

theorem witness_ReadsHaveNoSideEffect : (∃ v, hostRead8 0x100 State.reset = .ok (v, State.reset)) ∧
    (∃ v, hostRead32 0x0FC State.reset = .ok (v, State.reset)) ∧ ∃ v t, hostRead32 0x014 waiting = .ok (v, t) :=
  ⟨⟨_, rfl⟩, ⟨_, rfl⟩, _, _, rfl⟩

theorem witness_OtherWritesAreIdempotent : 0x004 ≠ 0x000 ∧ (∃ t, hostWrite32 0x010 8#32 State.reset = .ok t) ∧
    (∃ t, hostWrite32 0x02FFFFFC 8#32 State.reset = .ok t) ∧ ∃ t, hostWrite8 0x100 8#8 State.reset = .ok t :=
  ⟨by decide, ⟨_, rfl⟩, ⟨_, rfl⟩, _, rfl⟩

theorem witness_HostReadsTheOutput : Completed abc (loaded [] [] abc) (finish abc (loaded [] [] abc)) ∧
    (finish abc (loaded [] [] abc)).params.legal = true ∧ abc.length ≤ (finish abc (loaded [] [] abc)).params.outCap ∧
    abc[2]? = some 0x63#8 :=
  ⟨⟨rfl, rfl, by decide +kernel, rfl, ⟨rfl, rfl, rfl, rfl, rfl, fun sp k h => by cases sp <;> first | rfl | exact absurd rfl h,
    rfl, rfl, rfl, rfl, rfl, rfl, rfl, rfl⟩⟩, by decide, by decide, by decide⟩

theorem witness_BusErrorStopsOnlyItsHost :
    (∀ st ∈ [HostStmt.w8 0x0FF (.lit 1#32), .r8 0x000 0, .w32 0x02FFFFFE (.var 0), .r32 0x001 0],
      ((withHost [st]).hosts[0]?.bind fun h => h.program[h.pc]?) = some st) ∧
    0x0FF < 0x100 ∧ 0x02FFFFFE < Config.windowBytes ∧ 0x02FFFFFE % 4 ≠ 0 ∧ 0x001 % 4 ≠ 0 := by decide +kernel

theorem witness_HostStatements :
    (∀ st ∈ [HostStmt.w32 0x008 (.lit 16#32), .w8 0x100 (.var 0), .r32 0x02FFFFFC 0, .r8 0x02FFFFFF 0, .bit1 0 31 5, .halt],
      ((withHost [st]).hosts[0]?.bind fun h => h.program[h.pc]?) = some st) ∧
    (∃ t, hostWrite32 0x008 16#32 State.reset = .ok t) ∧ (∃ t, hostWrite8 0x100 1#8 State.reset = .ok t) ∧
    (∃ v t, hostRead32 0x02FFFFFC State.reset = .ok (v, t)) ∧ (∃ v t, hostRead8 0x02FFFFFF State.reset = .ok (v, t)) ∧
    (varValue 0 { program := [], pc := 0, vars := [(0, 0x80000000#32)], run := .running } 0).getLsbD 31 = true ∧
    (varValue 0 { program := [], pc := 0, vars := [(0, 0x7FFFFFFF#32)], run := .running } 0).getLsbD 31 = false :=
  ⟨by decide +kernel, ⟨_, rfl⟩, ⟨_, rfl⟩, ⟨_, _, rfl⟩, ⟨_, _, rfl⟩, by decide, by decide⟩

theorem witness_AddressesOutsideTheWindow : 0x3FFFFFFF < ({ base := 0x40000000, inCap := 1 } : Config.Params).base ∧
    0x02FFFFFF < 0x03000000 ∧ 0x03000000 ≤ 0x03000000 ∧
    (∀ st ∈ [HostStmt.w32 0x03000000 (.lit 1#32), .w8 0x03000000 (.lit 1#32), .r32 0x03000000 0, .r8 0x03000000 0],
      ((withHost [st]).hosts[0]?.bind fun h => h.program[h.pc]?) = some st) := by decide +kernel

theorem witness_PaddingIsUnambiguous : abc.length < 2 ^ 61 ∧ (abc ++ zeros 1).length < 2 ^ 61 ∧
    mdpad (hashParams .md5) abc = mdpad (hashParams .md5) abc ∧ mdpad (hashParams .md5) (abc ++ zeros 1) ≠ mdpad (hashParams .md5) abc := by
  decide +kernel

theorem witness_AbsorbIsSequential : 0 < 64 ∧ (zeros 128).length % 64 = 0 ∧ (zeros 64).length = 64 := by decide +kernel

theorem witness_DerivedHmacKey : (zeros 64).length ≤ hmacBlock .md5 ∧ hmacBlock .md5 < (zeros 65).length ∧
    (zeros 128).length ≤ hmacBlock .sha512 ∧ hmacBlock .sha384 < (zeros 129).length ∧ abc.length + 61 ≤ hmacBlock .sha256 := by decide

theorem witness_HmacIsTheNestedHash : hmacBlock .sha1 < (zeros 65).length := by decide

theorem witness_UnpadUndoesPad : (1 ≤ 1 ∧ 1 ≤ 255) ∧ (1 ≤ 255 ∧ 255 ≤ 255) ∧
    (loaded [] [] (pkcs7Pad abc 16)).dinlen.toNat ≤ (loaded [] [] (pkcs7Pad abc 16)).params.inCap ∧
    memRead (loaded [] [] (pkcs7Pad abc 16)) .din 0 (loaded [] [] (pkcs7Pad abc 16)).dinlen.toNat = pkcs7Pad abc 16 := by
  decide +kernel

/-- A state with `out` copied to the start of DIN. -/
def copied (out : Bytes) (s : State) : State := { s with din := cellsFrom 0 out }

theorem memRead_copied (out : Bytes) (s : State) : memRead (copied out s) .din 0 out.length = out := by
  apply List.ext_getElem?
  intro k
  by_cases h : k < out.length
  · have := cellGet?_cellsFrom out 0 k
    rw [memRead_getElem? _ _ _ _ _ h]
    simp_all [bufByte, buf, copied]
  · rw [List.getElem?_eq_none (by simpa using h), List.getElem?_eq_none (by simpa using h)]

/-- For CFB, OFB and CTR every hypothesis is met; `cipher_roundtrip_F`, which ECB and CBC need too, is about the opaque
families of R33, and the next theorem meets it with a cipher that can be evaluated. -/
theorem witness_DecryptionUndoesEncryption :
    (¬ (Mode.cfb = .ecb ∨ Mode.cfb = .cbc)) ∧ firstFailing (commandClass .encCfbC64) (loaded k8 iv8 abc) = none ∧
    ∃ t, exec .encCfbC64 (loaded k8 iv8 abc) = .next t ∧ ∃ s' : State, s'.params = (loaded k8 iv8 abc).params ∧
      s'.keylen = (loaded k8 iv8 abc).keylen ∧ s'.ivlen = (loaded k8 iv8 abc).ivlen ∧ s'.dinlen = (loaded k8 iv8 abc).dinlen ∧
      keyOf s' = keyOf (loaded k8 iv8 abc) ∧ ivOf s' = ivOf (loaded k8 iv8 abc) ∧
      msgOf s' = memRead t .dout 0 t.doutlen.toNat := by
  have hc : cipherError .cfb .c64 (loaded k8 iv8 abc) = none := by decide +kernel
  obtain ⟨out, hout⟩ : ∃ out, cipher .enc .cfb .c64 (keyOf (loaded k8 iv8 abc)) (ivOf (loaded k8 iv8 abc)) (msgOf (loaded k8 iv8 abc)) = out :=
    ⟨_, rfl⟩
  have hl : out.length = 3 := hout ▸ length_cipher hc
  have hd := completed_finish (out := out) (loaded k8 iv8 abc) (by omega)
  refine ⟨by decide, by decide +kernel, finish out (loaded k8 iv8 abc), ?_, copied out (loaded k8 iv8 abc), rfl, rfl, rfl, rfl, rfl, rfl, ?_⟩
  · show complete (cipherError .cfb .c64 (loaded k8 iv8 abc)) (cipher ..) _ = _
    rw [hc, hout]
    rfl
  · have hm := memRead_copied out (loaded k8 iv8 abc)
    rw [hl] at hm
    rw [hd.doutlen, hd.output]
    exact hm

theorem witness_EveryModeRoundTripsForEveryCipher :
    let f := fun y : Bytes => (trunc (y ++ zeros 8) 8).reverse
    0 < 8 ∧ (∀ y, (f y).length = 8) ∧ (Mode.cbc ≠ .ecb → iv8.length = 8) ∧
      (quick.length % 8 = 0 ∧ ∀ b : Bytes, b.length = 8 → f (f b) = b) := by
  refine ⟨by decide, fun y => by simp [trunc, zeros], fun _ => by decide, by decide, fun b hb => ?_⟩
  simp [trunc, hb]

theorem witness_StreamOutputOfAPrefix :
    0 < 8 ∧ (∀ y : Bytes, ((fun y : Bytes => trunc (y ++ zeros 8) 8) y).length = 8) ∧ Mode.ctr ≠ .ecb ∧ Mode.ctr ≠ .cbc :=
  ⟨by decide, fun y => by simp [trunc, zeros], by decide, by decide⟩

theorem witness_CbcDecryptionConfinesAnError :
    let x := zeros 24
    let x' := zeros 8 ++ rep 1 8 ++ zeros 8
    x'.length = x.length ∧ (∀ i, i * 8 < x.length → i ≠ 1 → segAt 8 x' i = segAt 8 x i) ∧ x.length % 8 = 0 ∧ iv8.length = 8 ∧
      ∀ y : Bytes, ((fun y : Bytes => trunc (y ++ zeros 8) 8) y).length = 8 := by
  refine ⟨by decide, fun i hi => ?_, by decide, by decide, fun y => by simp [trunc, zeros]⟩
  have : i < 3 := by simp [zeros] at hi; omega
  interval_cases i <;> decide

end Sys2Proof.Tests
end

section
/-! PROOFS. The obligation of spec/00_scope.md: what every step of the machine leaves of the parameters and of the host fault
record. One lemma for each kind of step, from the lemmas of Laws/Step.lean that say what the step can do. -/

namespace Sys2Proof.Machine

/-- From `s` to `t` the parameters stay, and so does a host fault record that is set (R8, R410; log entries 1 and 6). -/
structure KeepsRecord (s t : State) : Prop where
  params : t.params = s.params
  hostFault : s.hostFault.isSome = true → t.hostFault = s.hostFault

/-- A step that leaves both fields keeps them, whether or not a fault is recorded. -/
theorem KeepsRecord.of_eq {s t : State} (params : t.params = s.params) (hostFault : t.hostFault = s.hostFault) :
    KeepsRecord s t :=
  ⟨params, fun _ => hostFault⟩

theorem KeepsRecord.trans {s t u : State} (h : KeepsRecord s t) (h' : KeepsRecord t u) : KeepsRecord s u where
  params := h'.params.trans h.params
  hostFault hs := (h'.hostFault (h.hostFault hs ▸ hs)).trans (h.hostFault hs)

theorem SameInputs.keepsRecord {s t : State} (h : SameInputs s t) : KeepsRecord s t :=
  .of_eq h.params h.hostFault

/-- Whichever way the engine step ends, it leaves the inputs of the command. -/
theorem sameInputs_of_engineStep {word : Word32} {s t : State} (h : engineStep word s = .next t) : SameInputs s t := by
  rcases engineStep_cases word s with ⟨c, hc⟩ | ⟨out, _, hf⟩ | ⟨_, hu⟩
  · cases hc.symm.trans h
    exact sameInputs_raiseError c s
  · cases hf.symm.trans h
    exact sameInputs_finish out s
  · cases hu.symm.trans h
    exact sameInputs_finishUnspecified s

theorem HostWriteEffect.keepsRecord {s t : State} (h : HostWriteEffect s t) : KeepsRecord s t := by
  obtain ⟨hparams, _, _, _, hfault, _⟩ := h.frame
  exact .of_eq hparams hfault

/-- Only the bus error touches the record, and `Option.or` leaves a record that is set. -/
theorem keepsRecord_stopHost (i : Nat) (h : HostAgent) (s : State) (e : BusError) : KeepsRecord s (stopHost i h s e) where
  params := rfl
  hostFault hs := by rw [stopHost_hostFault, Option.or_of_isSome hs]

theorem keepsRecord_setHost (i : Nat) (h : HostAgent) (s : State) : KeepsRecord s (setHost s i h) := .of_eq rfl rfl

/-- A host step ends with its host put back, or with the bus error recorded. -/
theorem HostStepEffect.keepsRecord {i : Nat} {s t : State} (h : HostStepEffect i s t) : KeepsRecord s t := by
  cases h with
  | none => exact .of_eq rfl rfl
  | write h u effect _ => exact effect.keepsRecord.trans (keepsRecord_setHost i _ u)
  | read h x v _ => exact .of_eq (by simp) (by simp)
  | jump h pc _ => exact keepsRecord_setHost i _ s
  | halt h _ => exact keepsRecord_setHost i _ s
  | busError h e _ => exact keepsRecord_stopHost i h s e
  | outsideRead h x v _ => exact .of_eq rfl rfl

theorem keepsRecord_nextInput (s : State) : KeepsRecord s (nextInput s) := .of_eq rfl rfl

theorem Picked.keepsRecord {s u : State} (h : Picked s u) : KeepsRecord s u := by
  obtain ⟨hengine, _, hfault, _⟩ := h.frame
  exact .of_eq hengine.params hfault

/-- Lowering the count of host steps before the engine step leaves the record and the parameters. -/
theorem keepsRecord_inflight (s : State) (f : Option InFlight) : KeepsRecord s { s with inflight := f } := .of_eq rfl rfl

/-- Every step keeps them; the reset event too, which is log entry 8. -/
theorem StepEffect.keepsRecord {s t : State} (h : StepEffect s t) : KeepsRecord s t := by
  cases h with
  | idle => exact keepsRecord_nextInput s
  | reset => exact (keepsRecord_nextInput s).trans (.of_eq (resetEvent_params _) (resetEvent_hostFault _))
  | engine f _ _ _ run => exact (keepsRecord_nextInput s).trans (sameInputs_of_engineStep run).keepsRecord
  | hostIdle i u _ _ _ pick run => exact pick.keepsRecord.trans run.keepsRecord
  | hostBusy i f n u _ _ _ _ pick run =>
    exact pick.keepsRecord.trans ((keepsRecord_inflight u _).trans run.keepsRecord)

/-- Settles O25: by `step_cases`, a step is one of the five kinds, and each keeps the parameters and a record that is set. -/
theorem hostFaultAndParametersStay : Obligations.HostFaultAndParametersStay := by
  intro s t hstep
  obtain ⟨hparams, hfault⟩ := (step_cases hstep).keepsRecord
  exact ⟨hparams, hfault⟩

end Sys2Proof.Machine
end

section
/-! PROOFS. The invariant of spec/10_state.md: it holds after reset and every step keeps it. `Invariant` states the conjuncts
of `State.inv` as propositions; then one lemma for each operation that a step is made of, assembled along the cases of
`HostWriteEffect`, `HostStepEffect` and `StepEffect`. -/

namespace Sys2Proof.Machine

/-! ## The invariant as propositions -/

/-- What the invariant says of one host: stopped by a bus error only with a fault recorded, its variables with rising keys. -/
def HostAgrees (fault : Option BusError) (h : HostAgent) : Prop :=
  (h.run = .faulted → fault.isSome = true) ∧ cellsRising 0 h.vars = true

theorem hostsAgree_iff (s : State) : hostsAgree s = true ↔ ∀ h ∈ s.hosts, HostAgrees s.hostFault h := by
  simp only [hostsAgree, HostAgrees, List.all_eq_true, Bool.and_eq_true, Bool.or_eq_true, bne_iff_ne, ne_eq,
    ← imp_iff_not_or]

theorem flightAgrees_iff (s : State) : flightAgrees s = true ↔
    (s.inflight = none → busy s = false) ∧ ∀ f, s.inflight = some f → busy s = true ∧ f.word = s.cmd := by
  unfold flightAgrees
  cases s.inflight <;> simp

/-- `State.inv`, conjunct by conjunct. -/
structure Invariant (s : State) : Prop where
  params : s.params.legal = true
  buffers : buffersWf s = true
  status : legalStatus s.status = true
  idle : s.inflight = none → busy s = false
  flight : ∀ f, s.inflight = some f → busy s = true ∧ f.word = s.cmd
  doutlen : s.doutlen.toNat ≤ s.params.outCap
  error : statusErr s.status = 0 ∨ s.doutlen = 0
  hosts : ∀ h ∈ s.hosts, HostAgrees s.hostFault h
  inputDraw : s.inputDraw < s.draws
  doutDraw : s.doutDraw < s.draws

theorem inv_iff (s : State) : s.inv = true ↔ Invariant s := by
  simp only [State.inv, lengthAgrees, drawsFresh, Bool.and_eq_true, Bool.or_eq_true, decide_eq_true_eq, beq_iff_eq,
    hostsAgree_iff, flightAgrees_iff]
  constructor
  · rintro ⟨⟨⟨⟨⟨⟨params, buffers⟩, status⟩, idle, flight⟩, doutlen, error⟩, hosts⟩, inputDraw, doutDraw⟩
    exact ⟨params, buffers, status, idle, flight, doutlen, error, hosts, inputDraw, doutDraw⟩
  · rintro ⟨params, buffers, status, idle, flight, doutlen, error, hosts, inputDraw, doutDraw⟩
    exact ⟨⟨⟨⟨⟨⟨params, buffers⟩, status⟩, idle, flight⟩, doutlen, error⟩, hosts⟩, inputDraw, doutDraw⟩

/-! ## After reset -/

theorem busy_boot (p : Config.Params) (hosts : List HostAgent) : busy (State.boot p hosts) = false := by
  obtain ⟨_, _, _, _, _, _, idle⟩ := status_facts
  exact idle

theorem invariant_boot {p : Config.Params} {hosts : List HostAgent} (hp : p.legal = true)
    (hhosts : ∀ h ∈ hosts, h.run ≠ .faulted ∧ h.vars = []) : Invariant (State.boot p hosts) where
  params := hp
  buffers := rfl
  status := rfl
  idle _ := busy_boot p hosts
  flight _ hf := nomatch hf
  doutlen := Nat.zero_le _
  error := .inr rfl
  hosts h hh := by
    obtain ⟨hrun, hvars⟩ := hhosts h hh
    exact ⟨fun hfault => absurd hfault hrun, by rw [hvars]; rfl⟩
  inputDraw := Nat.zero_lt_one
  doutDraw := Nat.zero_lt_one

/-- Settles O22: `State.reset` is a boot too, with the parameters R8 suggests and no host. -/
theorem resetHasTheInvariant : Obligations.ResetHasTheInvariant :=
  ⟨(inv_iff _).mpr (invariant_boot rfl (List.forall_mem_nil _)),
    fun _ _ hp hhosts => (inv_iff _).mpr (invariant_boot hp hhosts)⟩

/-! ## Steps that leave STATUS, CMD and the in-flight marker -/

section
variable {s t : State}

/-- The invariant of a state that agrees where `Invariant` reads it, but for the buffers and the hosts. -/
theorem Invariant.of_fields (hs : Invariant s) (params : t.params = s.params) (buffers : buffersWf t = true)
    (status : t.status = s.status) (cmd : t.cmd = s.cmd) (inflight : t.inflight = s.inflight) (doutlen : t.doutlen = s.doutlen)
    (hosts : ∀ h ∈ t.hosts, HostAgrees t.hostFault h) (inputDraw : t.inputDraw = s.inputDraw)
    (doutDraw : t.doutDraw = s.doutDraw) (draws : s.draws ≤ t.draws) : Invariant t where
  params := params ▸ hs.params
  buffers := buffers
  status := status ▸ hs.status
  idle hf := by rw [busy, status]; exact hs.idle (inflight ▸ hf)
  flight f hf := by rw [busy, status, cmd]; exact hs.flight f (inflight ▸ hf)
  doutlen := by rw [doutlen, params]; exact hs.doutlen
  error := by rw [status, doutlen]; exact hs.error
  hosts := hosts
  inputDraw := inputDraw ▸ Nat.lt_of_lt_of_le hs.inputDraw draws
  doutDraw := doutDraw ▸ Nat.lt_of_lt_of_le hs.doutDraw draws

theorem Invariant.of_sameEngine (hs : Invariant s) (engine : SameEngine s t)
    (hosts : ∀ h ∈ t.hosts, HostAgrees t.hostFault h) (inputDraw : t.inputDraw = s.inputDraw)
    (doutDraw : t.doutDraw = s.doutDraw) (draws : s.draws ≤ t.draws) : Invariant t :=
  hs.of_fields engine.params
    ((buffersWf_congr engine.params engine.keymem engine.ivmem engine.din engine.dout).trans hs.buffers)
    engine.status engine.cmd engine.inflight engine.doutlen hosts inputDraw doutDraw draws

theorem Invariant.afterRead (hs : Invariant s) : Invariant (afterRead s) :=
  hs.of_sameEngine (sameEngine_afterRead s) (by simpa using hs.hosts) (by simp) (by simp) (afterRead_draws_le s)

theorem Invariant.nextDraw (hs : Invariant s) : Invariant (nextDraw s) :=
  hs.of_sameEngine (sameEngine_nextDraw s) hs.hosts rfl rfl (Nat.le_succ _)

theorem Invariant.setHost (hs : Invariant s) (i : Nat) {h : HostAgent} (hh : HostAgrees s.hostFault h) :
    Invariant (setHost s i h) :=
  hs.of_sameEngine (sameEngine_setHost s i h)
    (fun k hk => (List.mem_or_eq_of_mem_set hk).elim (hs.hosts k) fun hkh => hkh ▸ hh) rfl rfl (Nat.le_refl _)

/-- A recorded fault is all the invariant asks of a stopped host, and the record is set from here on. -/
theorem HostAgrees.record {fault : Option BusError} {h : HostAgent} (hh : HostAgrees fault h) (e : BusError) :
    HostAgrees (fault.or (some e)) h :=
  ⟨fun _ => by simp, hh.2⟩

theorem Invariant.stopHost (hs : Invariant s) (i : Nat) {h : HostAgent} (hh : HostAgrees s.hostFault h) (e : BusError) :
    Invariant (stopHost i h s e) := by
  have stopped : HostAgrees (s.hostFault.or (some e)) { h with run := .faulted } := ⟨fun _ => by simp, hh.2⟩
  exact hs.of_sameEngine (sameEngine_stopHost i h s e)
    (fun k hk => (List.mem_or_eq_of_mem_set hk).elim (fun hk => (hs.hosts k hk).record e) fun hkh => hkh ▸ stopped)
    rfl rfl (Nat.le_refl _)

theorem Picked.sameEngine (h : Picked s t) : SameEngine s t := h.frame.1

theorem Picked.invariant (h : Picked s t) (hs : Invariant s) : Invariant t := by
  obtain ⟨engine, hosts, hostFault, _, inputDraw, doutDraw, draws⟩ := h.frame
  exact hs.of_sameEngine engine (by rw [hosts, hostFault]; exact hs.hosts) inputDraw doutDraw draws

/-- The count of host steps before the engine step is no part of the invariant. -/
theorem Invariant.lowerWait (hs : Invariant s) {f : InFlight} (hf : s.inflight = some f) (n : Nat) :
    Invariant { s with inflight := some { f with wait := n } } :=
  { hs with
    idle := fun h => nomatch h
    flight := fun _ hg => Option.some.inj hg ▸ hs.flight f hf }

/-! ## Issue and the other host writes -/

theorem Invariant.issue (hs : Invariant s) (v : Word32) : Invariant (issue v s) where
  params := by simpa using hs.params
  buffers := (buffersWf_congr (by simp) (by simp) (by simp) (by simp) (by simp)).trans hs.buffers
  status := by rw [issue_status]; decide
  idle h := by simp at h
  flight f hf := by
    rw [issue_inflight] at hf
    obtain rfl := Option.some.inj hf
    exact ⟨busy_issue v s, (issue_cmd v s).symm⟩
  doutlen := by simpa using hs.doutlen
  error := .inl (by rw [issue_status]; decide)
  hosts := by simpa using hs.hosts
  inputDraw := by
    rw [issue_inputDraw, issue_draws]
    exact Nat.lt_of_lt_of_le hs.inputDraw (choose_draws_le s)
  doutDraw := by
    rw [issue_doutDraw, issue_draws]
    exact Nat.lt_of_lt_of_le hs.doutDraw (choose_draws_le s)

theorem HostWriteEffect.invariant (h : HostWriteEffect s t) (hs : Invariant s) : Invariant t := by
  obtain ⟨params, doutlen, _, hosts, hostFault, _, inputDraw, doutDraw, draws⟩ := h.frame
  rcases h.status with ⟨v, _, rfl⟩ | ⟨status, cmd, inflight⟩
  · exact hs.issue v
  · exact hs.of_fields params (h.buffersWf hs.buffers) status cmd inflight doutlen
      (by rw [hosts, hostFault]; exact hs.hosts) inputDraw doutDraw draws

/-! ## Host steps -/

/-- Where a host stands in its program is no part of the invariant. -/
theorem HostAgrees.withPc {fault : Option BusError} {h : HostAgent} (hh : HostAgrees fault h) (pc : Nat) :
    HostAgrees fault { h with pc := pc } :=
  hh

theorem HostAgrees.halted {fault : Option BusError} {h : HostAgent} (hh : HostAgrees fault h) :
    HostAgrees fault { h with run := .halted } :=
  ⟨(nomatch ·), hh.2⟩

theorem HostAgrees.hostAssign {fault : Option BusError} {h : HostAgent} (hh : HostAgrees fault h) (x : Nat) (v : Word32) :
    HostAgrees fault (hostAssign h x v) :=
  ⟨hh.1, cellsRising_cellSet v (Nat.zero_le x) hh.2⟩

theorem HostStepEffect.invariant {i : Nat} (h : HostStepEffect i s t) (hs : Invariant s) : Invariant t := by
  have agrees {a : HostAgent} (ha : s.hosts[i]? = some a) : HostAgrees s.hostFault a := hs.hosts a (List.mem_of_getElem? ha)
  cases h with
  | none => exact hs
  | write a u effect host =>
    obtain ⟨_, _, _, _, hostFault, _⟩ := effect.frame
    exact (effect.invariant hs).setHost i (hostFault ▸ (agrees host).withPc _)
  | read a x v host =>
    exact hs.afterRead.setHost i ((afterRead_hostFault s).symm ▸ (agrees host).hostAssign x v)
  | jump a pc host => exact hs.setHost i ((agrees host).withPc pc)
  | halt a host => exact hs.setHost i (agrees host).halted
  | busError a e host => exact hs.stopHost i (agrees host) e
  | outsideRead a x v host => exact hs.nextDraw.setHost i ((agrees host).hostAssign x v)

/-! ## The engine step and the reset event -/

/-- The invariant after a completion, whichever it is: what is left to say is what the completion writes. -/
theorem Invariant.of_completion (hs : Invariant s) (inputs : SameInputs s t) (inflight : t.inflight = none)
    (idle : busy t = false) (buffers : buffersWf t = true) (status : legalStatus t.status = true)
    (doutlen : t.doutlen.toNat ≤ s.params.outCap) (error : statusErr t.status = 0 ∨ t.doutlen = 0)
    (doutDraw : t.doutDraw < t.draws) (draws : s.draws ≤ t.draws) : Invariant t where
  params := inputs.params ▸ hs.params
  buffers := buffers
  status := status
  idle _ := idle
  flight f hf := by rw [inflight] at hf; exact nomatch hf
  doutlen := inputs.params ▸ doutlen
  error := error
  hosts := by rw [inputs.hosts, inputs.hostFault]; exact hs.hosts
  inputDraw := inputs.inputDraw ▸ Nat.lt_of_lt_of_le hs.inputDraw draws
  doutDraw := doutDraw

theorem Invariant.raiseError (hs : Invariant s) (c : ErrCode) : Invariant (raiseError c s) := by
  obtain ⟨_, _, _, legal, _⟩ := statusFailed_facts c
  exact hs.of_completion (sameInputs_raiseError c s) rfl (busy_raiseError c s) hs.buffers legal (Nat.zero_le _)
    (.inr rfl) hs.doutDraw (Nat.le_refl _)

theorem legalStatus_statusOk : legalStatus statusOk = true := by decide

theorem statusErr_statusOk : statusErr statusOk = 0 := by decide

theorem Invariant.finish (hs : Invariant s) {out : Bytes} (hout : out.length ≤ s.params.outCap) : Invariant (finish out s) :=
  hs.of_completion (sameInputs_finish out s) rfl (busy_finish out s) (buffersWf_finish hout hs.buffers) legalStatus_statusOk
    (by rw [finish_doutlen, BitVec.toNat_ofNat]; exact (Nat.mod_le _ _).trans hout)
    (.inl statusErr_statusOk) (Nat.lt_succ_self _) (Nat.le_succ _)

theorem Invariant.finishUnspecified (hs : Invariant s) : Invariant (finishUnspecified s) := by
  have drawn : Config.freeLength s.draws % (s.params.outCap + 1) ≤ s.params.outCap :=
    Nat.le_of_lt_succ (Nat.mod_lt _ (Nat.succ_pos _))
  exact hs.of_completion (sameInputs_finishUnspecified s) rfl (busy_finishUnspecified s)
    (buffersWf_finishUnspecified hs.buffers) legalStatus_statusOk
    (by rw [finishUnspecified_doutlen, BitVec.toNat_ofNat]; exact (Nat.mod_le _ _).trans drawn)
    (.inl statusErr_statusOk) (Nat.lt_succ_self _) (Nat.le_succ _)

theorem Invariant.engineStep (hs : Invariant s) {word : Word32} (h : engineStep word s = .next t) : Invariant t := by
  rcases engineStep_cases word s with ⟨c, hc⟩ | ⟨out, hout, hf⟩ | ⟨_, hu⟩
  · cases hc.symm.trans h
    exact hs.raiseError c
  · cases hf.symm.trans h
    exact hs.finish hout
  · cases hu.symm.trans h
    exact hs.finishUnspecified

theorem Invariant.resetEvent (hs : Invariant s) : Invariant (resetEvent s) where
  params := hs.params
  buffers := buffersWf_resetEvent s
  status := rfl
  idle _ := busy_resetEvent s
  flight _ hf := nomatch hf
  doutlen := Nat.zero_le _
  error := .inr rfl
  hosts := hs.hosts
  inputDraw := Nat.lt_succ_self _
  doutDraw := Nat.lt_succ_self _

/-! ## Steps of the machine -/

theorem StepEffect.invariant (h : StepEffect s t) (hs : Invariant s) : Invariant t := by
  have next : Invariant (nextInput s) := Picked.invariant (.inl rfl) hs
  cases h with
  | idle => exact next
  | reset => exact next.resetEvent
  | engine f _ _ _ run => exact next.engineStep run
  | hostIdle i u _ _ _ pick run => exact run.invariant (pick.invariant hs)
  | hostBusy i f n u _ _ flight _ pick run =>
    have hu : u.inflight = some f := pick.sameEngine.inflight.trans flight
    exact run.invariant ((pick.invariant hs).lowerWait hu n)

end

/-- Settles O23: by `step_cases`, a step is one of the five kinds, and each keeps the invariant. -/
theorem stepKeepsTheInvariant : Obligations.StepKeepsTheInvariant := fun s t hs hstep =>
  (inv_iff t).mpr ((step_cases hstep).invariant ((inv_iff s).mp hs))

end Sys2Proof.Machine
end

section
/-! PROOFS. Which steps change STATUS (spec/10_state.md R23, R34). A host step changes it by issue alone, and then from idle;
an engine step completes its command; while a command is in flight the engine is busy, so no host step issues another. -/

namespace Sys2Proof.Machine

section
variable {s t : State}

/-- However an engine step ends, its command is no longer in flight, and STATUS says DONE and not BUSY. -/
theorem engineStep_completes {word : Word32} (h : engineStep word s = .next t) :
    t.inflight = none ∧ statusDone t.status = true ∧ statusBusy t.status = false := by
  obtain ⟨notBusy, done, _⟩ := status_facts
  rcases engineStep_cases word s with ⟨c, hc⟩ | ⟨out, _, hf⟩ | ⟨_, hu⟩
  · cases hc.symm.trans h
    obtain ⟨notBusy, done, _⟩ := statusFailed_facts c
    exact ⟨rfl, done, notBusy⟩
  · cases hf.symm.trans h
    exact ⟨rfl, done, notBusy⟩
  · cases hu.symm.trans h
    exact ⟨rfl, done, notBusy⟩

/-- A host step leaves STATUS, or it writes CMD of an idle engine. -/
theorem HostStepEffect.status {i : Nat} (h : HostStepEffect i s t) :
    t.status = s.status ∨ (busy s = false ∧ t.inflight.isSome = true ∧ t.status = statusIssued) := by
  cases h with
  | write a u effect _ =>
    rcases effect.status with ⟨v, idle, rfl⟩ | ⟨status, _⟩
    · exact .inr ⟨idle, by simp, by simp⟩
    · exact .inl status
  | read a x v _ => exact .inl (afterRead_status s)
  | _ => exact .inl rfl

end

/-- Settles O24: the five kinds of step in turn; that a host step during a command cannot issue one is the invariant's. -/
theorem statusChangesOnlyAtIssueCompletionAndReset : Obligations.StatusChangesOnlyAtIssueCompletionAndReset := by
  intro s t hs hstep
  cases step_cases hstep with
  | idle => exact .inl rfl
  | reset input => exact .inr (.inr (.inr ⟨input, rfl, rfl⟩))
  | engine f _ _ flight run => exact .inr (.inr (.inl ⟨by rw [flight]; rfl, engineStep_completes run⟩))
  | hostIdle i u _ _ flight pick run =>
    have same : u.status = s.status := pick.sameEngine.status
    rcases run.status with status | ⟨_, issued, status⟩
    · exact .inl (status.trans same)
    · exact .inr (.inl ⟨flight, issued, status⟩)
  | hostBusy i f n u _ _ flight _ pick run =>
    have same : u.status = s.status := pick.sameEngine.status
    rcases run.status with status | ⟨idle, _⟩
    · exact .inl (status.trans same)
    · obtain ⟨working, _⟩ := ((inv_iff s).mp hs).flight f flight
      rw [busy, ← same] at working
      exact absurd (working.symm.trans idle) (by decide)

end Sys2Proof.Machine
end

section
/-! PROOFS. The five modes round-trip over every block cipher (spec/47_modes.md R322 to R328, R333). A mode walks the segments
of its input with a register (FB, or the number of the segment). `SegmentInverse` says when one walk undoes another: segment by
segment it gives the segment back, and both go on with the same register. The induction over the segments is done once, from
it; each mode then says what its segment output and its next register are. -/

namespace Sys2Proof.Machine

/-! ## Walks over the segments -/

/-- An output cut like its input: first the output of the first segment, then the segments of what follows. -/
theorem segments_append {sb : Nat} (h : 0 < sb) {x y z : Bytes} (hx : x ≠ []) (hy : y.length = (x.take sb).length)
    (hz : z.length = (x.drop sb).length) : segments sb (y ++ z) = y :: segments sb z := by
  have hpos : 0 < x.length := List.length_pos_iff.mpr hx
  rw [List.length_take] at hy
  rw [List.length_drop] at hz
  have hne : y ++ z ≠ [] := List.ne_nil_of_length_pos (by rw [List.length_append]; omega)
  rw [segments_cons h hne]
  by_cases hle : sb ≤ x.length
  · have hfull : y.length = sb := by omega
    rw [← hfull, List.take_left, List.drop_left]
  · have hlast : z = [] := List.eq_nil_of_length_eq_zero (by omega)
    subst hlast
    rw [List.append_nil, List.take_of_length_le (by omega), List.drop_eq_nil_of_le (by omega)]

/-- The walk `dec` undoes the walk `enc`, on segments that are `ok`, from registers that are `reg`: `enc` puts out `out r seg`
for the segment `seg` and goes on with the register `next r seg`; from that output `dec` gives `seg` and goes on with the same
register. -/
structure SegmentInverse {ρ : Type} (reg : ρ → Prop) (ok : Bytes → Prop) (enc dec : ρ → List Bytes → Bytes)
    (out : ρ → Bytes → Bytes) (next : ρ → Bytes → ρ) : Prop where
  enc_nil : ∀ r, enc r [] = []
  dec_nil : ∀ r, dec r [] = []
  enc_cons : ∀ r seg rest, enc r (seg :: rest) = out r seg ++ enc (next r seg) rest
  dec_cons : ∀ r seg rest, reg r → ok seg → dec r (out r seg :: rest) = seg ++ dec (next r seg) rest
  length_out : ∀ r seg, reg r → ok seg → (out r seg).length = seg.length
  reg_next : ∀ r seg, reg r → ok seg → reg (next r seg)

section
variable {ρ : Type} {reg : ρ → Prop} {ok : Bytes → Prop} {enc dec : ρ → List Bytes → Bytes} {out : ρ → Bytes → Bytes}
  {next : ρ → Bytes → ρ}

theorem SegmentInverse.length_enc (w : SegmentInverse reg ok enc dec out next) {segs : List Bytes}
    (hs : ∀ seg ∈ segs, ok seg) {r : ρ} (hr : reg r) : (enc r segs).length = segs.flatten.length := by
  induction segs generalizing r with
  | nil => rw [w.enc_nil]; rfl
  | cons seg rest ih =>
    obtain ⟨hseg, hrest⟩ := List.forall_mem_cons.mp hs
    rw [w.enc_cons, List.length_append, w.length_out r seg hr hseg, ih hrest (w.reg_next r seg hr hseg),
      List.flatten_cons, List.length_append]

/-- The round trip, for every mode: the output is cut like the input, so `dec` meets each `out r seg` as one segment. -/
theorem SegmentInverse.roundTrip (w : SegmentInverse reg ok enc dec out next) {sb : Nat} (h : 0 < sb) {x : Bytes}
    (hs : ∀ seg ∈ segments sb x, ok seg) {r : ρ} (hr : reg r) : dec r (segments sb (enc r (segments sb x))) = x := by
  have walk := segments_induct h
    (P := fun x segs => (∀ seg ∈ segs, ok seg) → ∀ r, reg r → dec r (segments sb (enc r segs)) = x)
    (fun _ r _ => by rw [w.enc_nil, segments_nil sb h, w.dec_nil])
    (fun x hx ih hs r hr => by
      obtain ⟨hseg, hrest⟩ := List.forall_mem_cons.mp hs
      have hr' := w.reg_next r (x.take sb) hr hseg
      have htail : (enc (next r (x.take sb)) (segments sb (x.drop sb))).length = (x.drop sb).length := by
        rw [w.length_enc hrest hr', segments_flatten h]
      rw [w.enc_cons, segments_append h hx (w.length_out r (x.take sb) hr hseg) htail, w.dec_cons r (x.take sb) _ hr hseg,
        ih hrest _ hr', List.take_append_drop])
    x
  exact walk hs r hr

end

/-! ## The modes, one segment at a time -/

/-- XOR with the same keystream gives a segment back, cut or whole. -/
theorem xor_keystream_cancel {seg o : Bytes} (h : seg.length ≤ o.length) :
    xorBytes (xorBytes seg (trunc o seg.length)) (trunc o (xorBytes seg (trunc o seg.length)).length) = seg := by
  rw [length_xor_keystream h]
  exact xorBytes_cancel _ _ (by rw [length_trunc]; omega)

section
variable {enc dec : Bytes → Bytes} {sb : Nat}

theorem ecb_segmentInverse (he : ∀ y, (enc y).length = sb) (hinv : ∀ b : Bytes, b.length = sb → dec (enc b) = b) :
    SegmentInverse (fun _ : Unit => True) (·.length = sb) (fun _ => ecbSegs enc) (fun _ => ecbSegs dec)
      (fun _ seg => enc seg) (fun _ _ => ()) where
  enc_nil _ := rfl
  dec_nil _ := rfl
  enc_cons _ _ _ := rfl
  dec_cons _ seg rest _ hseg := by rw [ecbSegs, hinv seg hseg]
  length_out _ seg _ hseg := (he seg).trans hseg.symm
  reg_next _ _ _ _ := trivial

theorem cbc_segmentInverse (he : ∀ y, (enc y).length = sb) (hinv : ∀ b : Bytes, b.length = sb → dec (enc b) = b) :
    SegmentInverse (·.length = sb) (·.length = sb) (cbcEncSegs enc) (cbcDecSegs dec)
      (fun fb seg => enc (xorBytes seg fb)) (fun fb seg => enc (xorBytes seg fb)) where
  enc_nil _ := rfl
  dec_nil _ := rfl
  enc_cons _ _ _ := rfl
  dec_cons fb seg rest hfb hseg := by
    have hblock : (xorBytes seg fb).length = sb := by rw [length_xorBytes, hseg, hfb, Nat.min_self]
    rw [cbcDecSegs, hinv _ hblock, xorBytes_cancel seg fb (by rw [hseg, hfb])]
  length_out _ _ _ hseg := (he _).trans hseg.symm
  reg_next _ _ _ _ := he _

theorem cfb_segmentInverse (he : ∀ y, (enc y).length = sb) :
    SegmentInverse (fun _ => True) (·.length ≤ sb) (cfbEncSegs enc sb) (cfbDecSegs enc sb)
      (fun fb seg => xorBytes seg (trunc (enc fb) seg.length))
      (fun fb seg => if seg.length = sb then xorBytes seg (trunc (enc fb) seg.length) else fb) where
  enc_nil _ := rfl
  dec_nil _ := rfl
  enc_cons _ _ _ := rfl
  dec_cons fb seg rest _ hseg := by
    have hkey : seg.length ≤ (enc fb).length := hseg.trans_eq (he fb).symm
    rw [cfbDecSegs, xor_keystream_cancel hkey, length_xor_keystream hkey]
  length_out fb _ _ hseg := length_xor_keystream (hseg.trans_eq (he fb).symm)
  reg_next _ _ _ _ := trivial

theorem ofb_segmentInverse (he : ∀ y, (enc y).length = sb) :
    SegmentInverse (fun _ => True) (·.length ≤ sb) (ofbSegs enc) (ofbSegs enc)
      (fun fb seg => xorBytes seg (trunc (enc fb) seg.length)) (fun fb _ => enc fb) where
  enc_nil _ := rfl
  dec_nil _ := rfl
  enc_cons _ _ _ := rfl
  dec_cons fb seg rest _ hseg := by rw [ofbSegs, xor_keystream_cancel (hseg.trans_eq (he fb).symm)]
  length_out fb _ _ hseg := length_xor_keystream (hseg.trans_eq (he fb).symm)
  reg_next _ _ _ _ := trivial

theorem ctr_segmentInverse (he : ∀ y, (enc y).length = sb) (iv : Bytes) :
    SegmentInverse (fun _ => True) (·.length ≤ sb) (ctrSegs enc sb iv) (ctrSegs enc sb iv)
      (fun j seg => xorBytes seg (trunc (enc (counterBlock sb iv j)) seg.length)) (fun j _ => j + 1) where
  enc_nil _ := rfl
  dec_nil _ := rfl
  enc_cons _ _ _ := rfl
  dec_cons j seg rest _ hseg := by rw [ctrSegs, xor_keystream_cancel (hseg.trans_eq (he _).symm)]
  length_out _ _ _ hseg := length_xor_keystream (hseg.trans_eq (he _).symm)
  reg_next _ _ _ _ := trivial

end

/-- Settles O57: each mode's decryption is the inverse walk of its encryption, over whole blocks for ECB and CBC and over
segments of any length for the stream modes. -/
theorem everyModeRoundTripsForEveryCipher : Obligations.EveryModeRoundTripsForEveryCipher := by
  intro enc dec sb m iv x hsb he _ hiv hblock
  cases m with
  | ecb =>
    obtain ⟨hx, hinv⟩ := hblock (.inl rfl)
    exact (ecb_segmentInverse he hinv).roundTrip hsb (segments_full hsb x hx) (r := ()) trivial
  | cbc =>
    obtain ⟨hx, hinv⟩ := hblock (.inr rfl)
    exact (cbc_segmentInverse he hinv).roundTrip hsb (segments_full hsb x hx) (hiv (by decide))
  | cfb => exact (cfb_segmentInverse he).roundTrip hsb (segments_le hsb x) trivial
  | ofb => exact (ofb_segmentInverse he).roundTrip hsb (segments_le hsb x) trivial
  | ctr => exact (ctr_segmentInverse he iv).roundTrip hsb (segments_le hsb x) trivial

end Sys2Proof.Machine
end

section
/-! PROOFS. The register block (spec/10_state.md R22 to R28, R38): what a write of each register leaves while idle, what reads
give, and the state after reset. The accesses themselves are `hostWrite32_register` and `hostRead32_register`. -/

namespace Sys2Proof.Machine

/-! ## One equation for each offset -/

@[simp] theorem writeRegister_cmd (s : State) (v : Word32) : writeRegister s 0x000 v = issue v s := rfl
@[simp] theorem writeRegister_status (s : State) (v : Word32) : writeRegister s 0x004 v = s := rfl
@[simp] theorem writeRegister_keylen (s : State) (v : Word32) : writeRegister s 0x008 v = { s with keylen := v } := rfl
@[simp] theorem writeRegister_ivlen (s : State) (v : Word32) : writeRegister s 0x00C v = { s with ivlen := v } := rfl
@[simp] theorem writeRegister_dinlen (s : State) (v : Word32) : writeRegister s 0x010 v = { s with dinlen := v } := rfl
@[simp] theorem writeRegister_doutlen (s : State) (v : Word32) : writeRegister s 0x014 v = s := rfl

/-- The reserved offsets of the register block ignore a write (R66). -/
theorem writeRegister_reserved {off : Nat} (h : 0x018 ≤ off) (s : State) (v : Word32) : writeRegister s off v = s := by
  unfold writeRegister
  rw [if_neg (by omega), if_neg (by omega), if_neg (by omega), if_neg (by omega)]

@[simp] theorem readRegister_cmd (s : State) : readRegister s 0x000 = s.cmd := rfl

/-- The reserved offsets of the register block read 0 (R66). -/
theorem readRegister_reserved {off : Nat} (h : 0x018 ≤ off) (s : State) : readRegister s off = 0 := by
  unfold readRegister
  rw [if_neg (by omega), if_neg (by omega), if_neg (by omega), if_neg (by omega), if_neg (by omega), if_neg (by omega)]

/-! ## Register writes -/

/-- Settles O8: while idle by `issue`, while busy because the write is dropped. -/
theorem cmdIsWriteAnyReadBack : Obligations.CmdIsWriteAnyReadBack := by
  refine ⟨fun v s idle => ?_, fun v s working => ?_, fun s => ?_, fun _ _ => rfl⟩
  · refine ⟨issue v s, _, ?_, issue_cmd v s, issue_status v s, issue_inflight v s, rfl⟩
    rw [hostWrite32_register (by decide) (by decide) v idle, writeRegister_cmd]
  · exact hostWrite32_busy (by decide) v working
  · exact ⟨afterRead s, by rw [hostRead32_register (by decide) (by decide), readRegister_cmd]⟩

/-- Settles O38: `writeRegister` at each offset. -/
theorem registerWritesWhileIdle : Obligations.RegisterWritesWhileIdle := by
  intro s v idle
  have write {off : Nat} (h : off < 0x100) (h4 : off % 4 = 0) : hostWrite32 off v s = .ok (writeRegister s off v) :=
    hostWrite32_register h h4 v idle
  refine ⟨?_, ?_, ?_, ?_, ?_, fun off hlo hhi h4 => ⟨?_, afterRead s, ?_⟩⟩
  · rw [write (by decide) (by decide), writeRegister_keylen]
  · rw [write (by decide) (by decide), writeRegister_ivlen]
  · rw [write (by decide) (by decide), writeRegister_dinlen]
  · rw [write (by decide) (by decide), writeRegister_status]
  · rw [write (by decide) (by decide), writeRegister_doutlen]
  · rw [write hhi h4, writeRegister_reserved hlo]
  · rw [hostRead32_register hhi h4, readRegister_reserved hlo]

/-! ## After reset -/

/-- Every register is 0 after reset, and DOUTLEN is readable because the engine is idle. -/
theorem readRegister_boot (p : Config.Params) (hosts : List HostAgent) (off : Nat) :
    readRegister (State.boot p hosts) off = 0 := by
  rw [readRegister, busy_boot, if_neg Bool.false_ne_true]
  simp [State.boot]

theorem launch_boot (p : Config.Params) (hosts : List HostAgent) : launch (State.boot p hosts) = true := by
  rw [launch, busy_boot]
  rfl

theorem bufByte_boot (p : Config.Params) (hosts : List HostAgent) (sp : Space) (k : Nat) :
    bufByte (State.boot p hosts) sp k = Config.freeByte 0 sp k := by
  cases sp <;> rfl

/-- Settles O32: idle after reset, so a read leaves the state; every register is 0 and no buffer byte is listed. -/
theorem stateAfterReset : Obligations.StateAfterReset := by
  refine fun p hosts => ⟨launch_boot p hosts, fun off h h4 => ?_, bufByte_boot p hosts⟩
  rw [hostRead32_register h h4, readRegister_boot, afterRead_idle (busy_boot p hosts)]

end Sys2Proof.Machine
end

section
/-! PROOFS. The window and its accesses (spec/20_memory.md R60 to R69, R73; spec/60_exceptions.md R410, R412). First the accesses
the engine does not accept; then, for each byte access, one equation for an input buffer, for DOUT and for the reserved offsets;
then the four byte writes of a word, which are what a 32-bit access is. That a written byte stays written is `WindowHolds`; the
agreement of the two widths and the idempotence of writes both rest on it. -/

namespace Sys2Proof.Machine

/-! ## Accesses that are not accepted -/

theorem hostRead8_register {off : Nat} (h : off < 0x100) (s : State) :
    hostRead8 off s = .error (.busError (.byteAccessToRegister off)) := by
  rw [hostRead8, accept8, Config.registerBytes, if_pos h]

theorem hostWrite8_register {off : Nat} (h : off < 0x100) (v : Byte) (s : State) :
    hostWrite8 off v s = .error (.busError (.byteAccessToRegister off)) := by
  rw [hostWrite8, accept8, Config.registerBytes, if_pos h]

theorem hostRead32_misaligned {off : Nat} (h : off % 4 ≠ 0) (s : State) :
    hostRead32 off s = .error (.busError (.misalignedWord off)) := by
  rw [hostRead32, accept32, if_pos h]

theorem hostWrite32_misaligned {off : Nat} (h : off % 4 ≠ 0) (v : Word32) (s : State) :
    hostWrite32 off v s = .error (.busError (.misalignedWord off)) := by
  rw [hostWrite32, accept32, if_pos h]

/-- Settles O35: bytes and misaligned words are refused by `accept8` and `accept32`; an aligned word is accepted, busy or not. -/
theorem registerBlockAcceptsAlignedWordsOnly : Obligations.RegisterBlockAcceptsAlignedWordsOnly := by
  refine fun s off h => ⟨fun v => hostWrite8_register h v s, hostRead8_register h s, fun h4 => ⟨fun v => ?_, ?_⟩,
    fun h4 => ⟨fun v => hostWrite32_misaligned h4 v s, hostRead32_misaligned h4 s⟩⟩
  · cases hb : busy s with
    | false => exact ⟨_, hostWrite32_register h h4 v hb⟩
    | true => exact ⟨_, hostWrite32_busy h4 v hb⟩
  · exact ⟨_, hostRead32_register h h4 s⟩

/-! ## Buffer bytes -/

/-- Settles O34: from the laws of `writeByte` and `memRead`. -/
theorem bufferReadsAfterWrites : Obligations.BufferReadsAfterWrites := by
  refine ⟨fun s sp sp' k k' v => ?_, fun s sp a n => ⟨length_memRead s sp a n, memRead_getElem? s sp a n⟩⟩
  split
  · next h =>
    obtain ⟨rfl, rfl⟩ := h
    exact bufByte_writeByte_self s sp' k' v
  · next h => exact bufByte_writeByte_other s sp sp' k k' v fun e => h (Prod.mk.inj e)

/-! ## One byte of the window -/

section
variable {s : State} {off k : Nat} {sp : Space}

theorem readWindowByte_buffer (idle : busy s = false) (h : locate s.params off = some (sp, k)) :
    readWindowByte s off = bufByte s sp k := by
  rw [readWindowByte, h]
  cases sp <;> simp [idle]

theorem readWindowByte_reserved (h : locate s.params off = none) : readWindowByte s off = 0 := by
  rw [readWindowByte, h]

theorem writeWindowByte_input (hsp : sp ≠ .dout) (h : locate s.params off = some (sp, k)) (v : Byte) :
    writeWindowByte s off v = writeByte s sp k v := by
  rw [writeWindowByte, h]
  cases sp with
  | dout => exact absurd rfl hsp
  | _ => rfl

theorem writeWindowByte_output (h : locate s.params off = some (.dout, k)) (v : Byte) : writeWindowByte s off v = s := by
  rw [writeWindowByte, h]

theorem writeWindowByte_reserved (h : locate s.params off = none) (v : Byte) : writeWindowByte s off v = s := by
  rw [writeWindowByte, h]

/-! ## An 8-bit access while idle, region by region -/

theorem hostRead8_idle (idle : busy s = false) (h : 0x100 ≤ off) : hostRead8 off s = .ok (readWindowByte s off, s) := by
  rw [hostRead8_eq h, afterRead_idle idle]

theorem hostWrite8_idle (idle : busy s = false) (h : 0x100 ≤ off) (v : Byte) :
    hostWrite8 off v s = .ok (writeWindowByte s off v) := by
  rw [hostWrite8_eq h, idle, if_neg Bool.false_ne_true]

theorem access8_input (idle : busy s = false) (h : 0x100 ≤ off) (hsp : sp ≠ .dout)
    (hl : locate s.params off = some (sp, k)) :
    hostRead8 off s = .ok (bufByte s sp k, s) ∧ ∀ v, hostWrite8 off v s = .ok (writeByte s sp k v) :=
  ⟨by rw [hostRead8_idle idle h, readWindowByte_buffer idle hl],
    fun v => by rw [hostWrite8_idle idle h, writeWindowByte_input hsp hl]⟩

theorem access8_output (idle : busy s = false) (h : 0x100 ≤ off) (hl : locate s.params off = some (.dout, k)) :
    hostRead8 off s = .ok (bufByte s .dout k, s) ∧ ∀ v, hostWrite8 off v s = .ok s :=
  ⟨by rw [hostRead8_idle idle h, readWindowByte_buffer idle hl],
    fun v => by rw [hostWrite8_idle idle h, writeWindowByte_output hl]⟩

theorem access8_reserved (idle : busy s = false) (h : 0x100 ≤ off) (hl : locate s.params off = none) :
    hostRead8 off s = .ok (0, s) ∧ ∀ v, hostWrite8 off v s = .ok s :=
  ⟨by rw [hostRead8_idle idle h, readWindowByte_reserved hl],
    fun v => by rw [hostWrite8_idle idle h, writeWindowByte_reserved hl]⟩

end

/-- Settles O33: `locate` names the buffer of each offset, and the access is the one of that region. -/
theorem windowRegions : Obligations.WindowRegions := by
  refine fun s hp idle => ⟨fun k hk => ?_, fun k hk => ?_, fun off hlo hhi => ?_, fun k hk => ?_, fun off hlo hhi => ?_,
    fun k hk => ?_, fun off hlo hhi => ?_⟩
  · exact access8_input idle (by omega) (by decide) (locate_keymem _ hk)
  · exact access8_input idle (by omega) (by decide) (locate_ivmem _ hk)
  · exact access8_reserved idle (by omega) (locate_reserved hp (.inl ⟨hlo, hhi⟩))
  · exact access8_input idle (by omega) (by decide) (locate_din _ hk)
  · exact access8_reserved idle (by omega) (locate_reserved hp (.inr (.inl ⟨hlo, hhi⟩)))
  · exact access8_output idle (by omega) (locate_dout hp hk)
  · have above : 0x02000000 ≤ off := (Nat.le_add_right _ _).trans hlo
    exact access8_reserved idle (le_trans (by decide) above) (locate_reserved hp (.inr (.inr hlo)))

/-! ## The four bytes of a word -/

/-- The four byte writes of a 32-bit write, lowest lane first (R65). -/
def writeWindowWord (s : State) (off : Nat) (v : Word32) : State :=
  writeWindowByte (writeWindowByte (writeWindowByte (writeWindowByte s off (lane v 0)) (off + 1) (lane v 1)) (off + 2) (lane v 2))
    (off + 3) (lane v 3)

@[simp] theorem busy_writeWindowWord (s : State) (off : Nat) (v : Word32) : busy (writeWindowWord s off v) = busy s := by
  simp only [writeWindowWord, busy_writeWindowByte]

@[simp] theorem writeWindowWord_params (s : State) (off : Nat) (v : Word32) : (writeWindowWord s off v).params = s.params := by
  simp only [writeWindowWord, writeWindowByte_params]

theorem hostWrite32_eq {off : Nat} (h : 0x100 ≤ off) (h4 : off % 4 = 0) (v : Word32) (s : State) :
    hostWrite32 off v s = .ok (if busy s then s else writeWindowWord s off v) := by
  cases hb : busy s with
  | false => exact hostWrite32_window h h4 v hb
  | true => exact hostWrite32_busy h4 v hb

/-- Four 8-bit writes in a row are the four byte writes of a word; none of them makes the engine busy. -/
theorem hostWrite8_four {off : Nat} (h : 0x100 ≤ off) (v : Word32) (s : State) :
    (do let t0 ← hostWrite8 off (lane v 0) s
        let t1 ← hostWrite8 (off + 1) (lane v 1) t0
        let t2 ← hostWrite8 (off + 2) (lane v 2) t1
        hostWrite8 (off + 3) (lane v 3) t2) = .ok (if busy s then s else writeWindowWord s off v) := by
  have write (n : Nat) (b : Byte) (t : State) :
      hostWrite8 (off + n) b t = .ok (if busy t then t else writeWindowByte t (off + n) b) :=
    hostWrite8_eq (by omega) b t
  rw [hostWrite8_eq h]
  cases hb : busy s <;> simp [write, hb, writeWindowWord, bind, Except.bind]

/-- Settles O36: both sides of each equation are the same four byte accesses, `writeWindowWord` and `ofLanes`. -/
theorem wordAccessesAreFourByteAccesses : Obligations.WordAccessesAreFourByteAccesses := by
  refine fun s off h => ⟨fun v => ⟨_, hostWrite8_eq h v s⟩, ⟨_, hostRead8_eq h s⟩,
    fun h4 => ⟨fun v => hostWrite32_misaligned h4 v s, hostRead32_misaligned h4 s⟩,
    fun h4 => ⟨fun v => ⟨_, hostWrite32_eq h h4 v s, hostWrite8_four h v s⟩, _, _, hostRead32_window h h4 s, ?_⟩⟩
  obtain ⟨lane0, lane1, lane2, lane3⟩ := lane_ofLanes (readWindowByte s off) (readWindowByte s (off + 1))
    (readWindowByte s (off + 2)) (readWindowByte s (off + 3))
  have read {n k : Nat} {v : Word32} (hk : lane v k = readWindowByte s (off + n)) :
      hostRead8 (off + n) s = .ok (lane v k, afterRead s) := by
    rw [hk, hostRead8_eq (by omega)]
  exact ⟨read (n := 0) lane0, read lane1, read lane2, read lane3⟩

/-! ## A written byte stays written -/

/-- A write of `v` at this offset would find it there already: the byte of the input buffer that the offset reaches has the
value `v`, or the offset reaches none. -/
def WindowHolds (s : State) (off : Nat) (v : Byte) : Prop :=
  ∀ sp k, sp ≠ .dout → locate s.params off = some (sp, k) → cellGet? (buf s sp) k = some v

/-- Giving a key the value it has changes nothing. -/
theorem cellSet_of_cellGet? {α : Type} {m : List (Nat × α)} {k : Nat} {v : α} (h : cellGet? m k = some v) :
    cellSet m k v = m := by
  induction m with
  | nil => cases h
  | cons c rest ih =>
    obtain ⟨a, u⟩ := c
    simp only [cellGet?] at h
    simp only [cellSet]
    split at h
    · next hak => rw [if_pos hak, hak, Option.some.inj h]
    · next hak =>
      split at h
      · cases h
      · next hka => rw [if_neg hak, if_neg hka, ih h]

theorem setBuf_buf (s : State) (sp : Space) : setBuf s sp (buf s sp) = s := by
  cases sp <;> rfl

/-- An offset is the start of its region and the index in it. -/
theorem locate_eq_regionStart_add {p : Config.Params} {off : Nat} {sp : Space} {k : Nat} (h : locate p off = some (sp, k)) :
    off = Config.regionStart sp + k := by
  simp only [locate] at h
  split at h
  · next hr => cases h; simp only [Config.regionStart]; omega
  split at h
  · next hr => cases h; simp only [Config.regionStart]; omega
  split at h
  · next hr => cases h; simp only [Config.regionStart]; omega
  split at h
  · next hr => cases h; simp only [Config.regionStart]; omega
  · cases h

theorem cellGet?_writeByte_other {s : State} {sp sp' : Space} {k k' : Nat} (v : Byte) (h : (sp', k') ≠ (sp, k)) :
    cellGet? (buf (writeByte s sp k v) sp') k' = cellGet? (buf s sp') k' := by
  by_cases hs : sp' = sp
  · subst hs
    rw [writeByte, buf_setBuf_self, cellGet?_cellSet_other _ _ _ _ fun hk => h (by rw [hk])]
  · rw [writeByte, buf_setBuf_other _ _ _ _ hs]

section
variable {s : State} {off : Nat} {v : Byte}

theorem WindowHolds.writeWindowByte_eq (h : WindowHolds s off v) : writeWindowByte s off v = s := by
  obtain e | ⟨sp, k, hsp, hl, e⟩ := writeWindowByte_cases s off v
  · exact e
  · rw [e, writeByte, cellSet_of_cellGet? (h sp k hsp hl), setBuf_buf]

theorem windowHolds_writeWindowByte_self (s : State) (off : Nat) (v : Byte) : WindowHolds (writeWindowByte s off v) off v := by
  intro sp k hsp hl
  rw [writeWindowByte_params] at hl
  rw [writeWindowByte_input hsp hl, writeByte, buf_setBuf_self, cellGet?_cellSet_self]

/-- Two offsets never reach the same byte, so a write at one leaves what the other holds. -/
theorem WindowHolds.writeWindowByte_other (h : WindowHolds s off v) {off' : Nat} (hoff : off ≠ off') (v' : Byte) :
    WindowHolds (writeWindowByte s off' v') off v := by
  intro sp k hsp hl
  rw [writeWindowByte_params] at hl
  obtain e | ⟨sp', k', _, hl', e⟩ := writeWindowByte_cases s off' v' <;> rw [e]
  · exact h sp k hsp hl
  · have hne : (sp, k) ≠ (sp', k') := by
      rintro ⟨⟩
      exact hoff ((locate_eq_regionStart_add hl).trans (locate_eq_regionStart_add hl').symm)
    rw [cellGet?_writeByte_other v' hne]
    exact h sp k hsp hl

/-- What an offset of an input buffer holds is what is read there. -/
theorem WindowHolds.readWindowByte_eq (h : WindowHolds s off v) {sp : Space} {k : Nat} (hsp : sp ≠ .dout)
    (hl : locate s.params off = some (sp, k)) (idle : busy s = false) : readWindowByte s off = v := by
  rw [readWindowByte_buffer idle hl, bufByte, h sp k hsp hl, Option.getD_some]

end

/-- After the four writes of a word each of its offsets holds its lane. -/
theorem windowHolds_writeWindowWord (s : State) (off : Nat) (v : Word32) {k : Nat} (hk : k < 4) :
    WindowHolds (writeWindowWord s off v) (off + k) (lane v k) := by
  have self := windowHolds_writeWindowByte_self
  match k, hk with
  | 0, _ =>
    exact (((self s off _).writeWindowByte_other (by omega) _).writeWindowByte_other (by omega) _).writeWindowByte_other
      (by omega) _
  | 1, _ => exact ((self _ (off + 1) _).writeWindowByte_other (by omega) _).writeWindowByte_other (by omega) _
  | 2, _ => exact (self _ (off + 2) _).writeWindowByte_other (by omega) _
  | 3, _ => exact self _ (off + 3) _

/-! ## Both widths see the same bytes -/

/-- While idle the lanes of a word written to DIN are read back, each at its offset. -/
theorem readWindowByte_writeWindowWord_din {s : State} {a : Nat} (idle : busy s = false) (ha : a + 4 ≤ s.params.inCap)
    (v : Word32) {k : Nat} (hk : k < 4) :
    readWindowByte (writeWindowWord s (0x01000000 + a) v) (0x01000000 + a + k) = lane v k := by
  have hl : locate s.params (0x01000000 + a + k) = some (.din, a + k) := by
    rw [Nat.add_assoc]
    exact locate_din _ (by omega)
  exact (windowHolds_writeWindowWord s _ v hk).readWindowByte_eq (sp := .din) (by decide) (by rwa [writeWindowWord_params])
    ((busy_writeWindowWord ..).trans idle)

/-- While idle a word written to DIN is read back as a word. -/
theorem hostRead32_writeWindowWord_din {s : State} {a : Nat} (idle : busy s = false) (h4 : a % 4 = 0)
    (ha : a + 4 ≤ s.params.inCap) (v : Word32) :
    hostRead32 (0x01000000 + a) (writeWindowWord s (0x01000000 + a) v) = .ok (v, writeWindowWord s (0x01000000 + a) v) := by
  have back {k : Nat} (hk : k < 4) := readWindowByte_writeWindowWord_din idle ha v hk
  have back0 : readWindowByte (writeWindowWord s (0x01000000 + a) v) (0x01000000 + a) = lane v 0 := back (k := 0) (by decide)
  have still : busy (writeWindowWord s (0x01000000 + a) v) = false := (busy_writeWindowWord ..).trans idle
  rw [hostRead32_window (by omega) (by omega), back0, back (by decide), back (by decide), back (by decide), ofLanes_lane,
    afterRead_idle still]

/-- Settles O37: writes of either width are `writeWindowWord`, which reads back at either width; four bytes are the lanes of
the word `ofLanes` makes of them. -/
theorem widthsSeeTheSameBytes : Obligations.WidthsSeeTheSameBytes := by
  intro s a idle _ h4 ha
  have hoff : 0x100 ≤ 0x01000000 + a := by omega
  refine ⟨fun v => ⟨writeWindowWord s (0x01000000 + a) v, hostWrite32_window hoff (by omega) v idle, fun k hk => ?_⟩,
    fun b0 b1 b2 b3 => ⟨writeWindowWord s (0x01000000 + a) (ofLanes b0 b1 b2 b3), ?_, ?_⟩⟩
  · have still : busy (writeWindowWord s (0x01000000 + a) v) = false := (busy_writeWindowWord ..).trans idle
    rw [hostRead8_idle still (by omega), readWindowByte_writeWindowWord_din idle ha v hk, lane]
  · have write := hostWrite8_four hoff (ofLanes b0 b1 b2 b3) s
    obtain ⟨lane0, lane1, lane2, lane3⟩ := lane_ofLanes b0 b1 b2 b3
    rwa [lane0, lane1, lane2, lane3, idle, if_neg Bool.false_ne_true] at write
  · exact hostRead32_writeWindowWord_din idle h4 ha (ofLanes b0 b1 b2 b3)

/-! ## Writing again changes nothing -/

theorem writeWindowByte_idempotent (s : State) (off : Nat) (v : Byte) :
    writeWindowByte (writeWindowByte s off v) off v = writeWindowByte s off v :=
  (windowHolds_writeWindowByte_self s off v).writeWindowByte_eq

theorem writeWindowWord_idempotent (s : State) (off : Nat) (v : Word32) :
    writeWindowWord (writeWindowWord s off v) off v = writeWindowWord s off v := by
  have again {k : Nat} (hk : k < 4) := (windowHolds_writeWindowWord s off v hk).writeWindowByte_eq
  generalize writeWindowWord s off v = t at again
  have again0 : writeWindowByte t off (lane v 0) = t := again (k := 0) (by decide)
  rw [writeWindowWord, again0, again (by decide), again (by decide), again (by decide)]

/-- A write to a register but CMD stores the word in a length register, or is ignored. -/
theorem writeRegister_cases {off : Nat} (h : off ≠ 0x000) (v : Word32) :
    (∀ s, writeRegister s off v = { s with keylen := v }) ∨ (∀ s, writeRegister s off v = { s with ivlen := v }) ∨
      (∀ s, writeRegister s off v = { s with dinlen := v }) ∨ ∀ s, writeRegister s off v = s := by
  by_cases keylen : off = 0x008
  · exact .inl fun s => by rw [keylen, writeRegister_keylen]
  by_cases ivlen : off = 0x00C
  · exact .inr (.inl fun s => by rw [ivlen, writeRegister_ivlen])
  by_cases dinlen : off = 0x010
  · exact .inr (.inr (.inl fun s => by rw [dinlen, writeRegister_dinlen]))
  · exact .inr (.inr (.inr fun s => by rw [writeRegister, if_neg h, if_neg keylen, if_neg ivlen, if_neg dinlen]))

theorem writeRegister_idempotent (s : State) {off : Nat} (h : off ≠ 0x000) (v : Word32) :
    writeRegister (writeRegister s off v) off v = writeRegister s off v := by
  rcases writeRegister_cases h v with e | e | e | e <;> simp only [e]

/-- A write to a register but CMD leaves STATUS, so it does not make the engine busy. -/
theorem busy_writeRegister (s : State) {off : Nat} (h : off ≠ 0x000) (v : Word32) : busy (writeRegister s off v) = busy s := by
  rcases writeRegister_cases h v with e | e | e | e <;> rw [e] <;> rfl

theorem hostWrite32_idempotent {s t : State} {off : Nat} {v : Word32} (h0 : off ≠ 0x000) (h : hostWrite32 off v s = .ok t) :
    hostWrite32 off v t = .ok t := by
  by_cases h4 : off % 4 = 0
  · cases hb : busy s with
    | true =>
      obtain rfl : s = t := Except.ok.inj ((hostWrite32_busy h4 v hb).symm.trans h)
      exact h
    | false =>
      by_cases hr : off < 0x100
      · obtain rfl : writeRegister s off v = t := Except.ok.inj ((hostWrite32_register hr h4 v hb).symm.trans h)
        rw [hostWrite32_register hr h4 v ((busy_writeRegister s h0 v).trans hb), writeRegister_idempotent s h0]
      · have hw : 0x100 ≤ off := by omega
        obtain rfl : writeWindowWord s off v = t := Except.ok.inj ((hostWrite32_window hw h4 v hb).symm.trans h)
        rw [hostWrite32_eq hw h4, writeWindowWord_idempotent, ite_self]
  · cases (hostWrite32_misaligned h4 v s).symm.trans h

theorem hostWrite8_idempotent {s t : State} {off : Nat} {v : Byte} (h : hostWrite8 off v s = .ok t) :
    hostWrite8 off v t = .ok t := by
  by_cases hr : off < 0x100
  · cases (hostWrite8_register hr v s).symm.trans h
  · have hw : 0x100 ≤ off := by omega
    cases hb : busy s with
    | true =>
      obtain rfl : s = t := by simpa [hostWrite8_eq hw, hb] using h
      exact h
    | false =>
      obtain rfl : writeWindowByte s off v = t := Except.ok.inj ((hostWrite8_idle hb hw v).symm.trans h)
      rw [hostWrite8_eq hw, writeWindowByte_idempotent, ite_self]

/-- Settles O42: a dropped write is dropped again; an accepted one finds its register or its bytes as it would leave them. -/
theorem otherWritesAreIdempotent : Obligations.OtherWritesAreIdempotent :=
  fun _ _ _ => ⟨fun _ h0 h => hostWrite32_idempotent h0 h, fun _ h => hostWrite8_idempotent h⟩

/-! ## Reads -/

/-- Settles O41: after an accepted read of either width the state is `afterRead`. -/
theorem readsHaveNoSideEffect : Obligations.ReadsHaveNoSideEffect := by
  intro s t off h
  obtain rfl : t = afterRead s := by
    obtain ⟨v, h⟩ | ⟨v, h⟩ := h
    · exact hostRead8_state h
    · exact hostRead32_state h
  refine ⟨afterRead_idle, ?_, sameEngine_afterRead s⟩
  cases hb : busy s with
  | false => rw [afterRead_idle hb]
  | true => rw [afterRead_busy hb, nextDraw]

theorem readRegister_doutlen {s : State} (idle : busy s = false) : readRegister s 0x014 = s.doutlen := by
  simp [readRegister, idle]

theorem Completed.busy_eq_false {out : Bytes} {s t : State} (h : Completed out s t) : busy t = false := by
  rw [Machine.busy, h.status]
  decide

theorem Completed.bufByte_eq {out : Bytes} {s t : State} (h : Completed out s t) {k : Nat} {b : Byte} (hb : out[k]? = some b) :
    bufByte t .dout k = b := by
  obtain ⟨hk, _⟩ := List.getElem?_eq_some_iff.mp hb
  have read := memRead_getElem? t .dout 0 out.length k hk
  rw [h.output, hb, Nat.zero_add] at read
  exact (Option.some.inj read).symm

/-- Settles O43: a completed engine is idle, so DOUTLEN and DOUT are read as the completion left them. -/
theorem hostReadsTheOutput : Obligations.HostReadsTheOutput := by
  intro out s t h hp hcap
  refine ⟨?_, fun k b hb => ?_⟩
  · rw [hostRead32_register (by decide) (by decide), readRegister_doutlen h.busy_eq_false, afterRead_idle h.busy_eq_false,
      ← h.doutlen, BitVec.ofNat_toNat, BitVec.setWidth_eq]
  · obtain ⟨hk, _⟩ := List.getElem?_eq_some_iff.mp hb
    have hl : locate t.params (0x02000000 + k) = some (.dout, k) := locate_dout hp (hk.trans_le hcap)
    obtain ⟨read, _⟩ := access8_output h.busy_eq_false (by omega) hl
    rw [read, h.bufByte_eq hb]

/-! ## Outside the window -/

theorem windowOffset_below {p : Config.Params} {address : Nat} (h : address < p.base) :
    windowOffset p address = .error (.outsideWindow address) := by
  rw [windowOffset, if_neg (by omega)]

theorem windowOffset_base_add (p : Config.Params) (off : Nat) :
    windowOffset p (p.base + off) = if off < 0x03000000 then .ok off else .error (.outsideWindow (p.base + off)) := by
  rw [windowOffset, Config.windowBytes, Nat.add_sub_cancel_left]
  simp only [Nat.le_add_right, true_and]

theorem windowOffset_outside (p : Config.Params) {off : Nat} (h : 0x03000000 ≤ off) :
    windowOffset p (p.base + off) = .error (.outsideWindow (p.base + off)) := by
  rw [windowOffset_base_add, if_neg (by omega)]

theorem varValue_hostAssign_self (i : Nat) (h : HostAgent) (x : Nat) (v : Word32) : varValue i (hostAssign h x v) x = v := by
  rw [varValue, hostAssign, cellGet?_cellSet_self, Option.getD_some]

theorem varValue_hostAssign_other (i : Nat) (h : HostAgent) {x y : Nat} (v : Word32) (hy : y ≠ x) :
    varValue i (hostAssign h x v) y = varValue i h y := by
  rw [varValue, hostAssign, cellGet?_cellSet_other _ _ _ _ hy, varValue]

section
variable {s : State} {i : Nat} {h : HostAgent}

/-- A host step is the next statement of the host's program. -/
theorem hostStep_eq_runStmt {stmt : HostStmt} (hh : s.hosts[i]? = some h) (hstmt : h.program[h.pc]? = some stmt) :
    hostStep i s = runStmt i h stmt s := by
  simp only [hostStep, hh, hstmt]

/-- A write outside the window only moves its host on (log entry 5). -/
theorem runStmt_w32_outside {off : Nat} (v : HostVal) (hoff : 0x03000000 ≤ off) :
    runStmt i h (.w32 off v) s = .next (setHost s i (hostAdvance h)) := by
  rw [runStmt, windowOffset_outside _ hoff, Except.bind, afterWrite]

theorem runStmt_w8_outside {off : Nat} (v : HostVal) (hoff : 0x03000000 ≤ off) :
    runStmt i h (.w8 off v) s = .next (setHost s i (hostAdvance h)) := by
  rw [runStmt, windowOffset_outside _ hoff, Except.bind, afterWrite]

/-- A 32-bit read outside the window gives its host a free word. -/
theorem runStmt_r32_outside {off : Nat} (x : Nat) (hoff : 0x03000000 ≤ off) :
    runStmt i h (.r32 off x) s = .next (setHost (nextDraw s) i (hostAssign h x (Config.freeWord s.draws))) := by
  rw [runStmt, windowOffset_outside _ hoff, Except.bind, afterReadInto, BitVec.setWidth_eq, BitVec.setWidth_eq]

/-- An 8-bit read outside the window gives its host a free byte. -/
theorem runStmt_r8_outside {off : Nat} (x : Nat) (hoff : 0x03000000 ≤ off) :
    runStmt i h (.r8 off x) s =
      .next (setHost (nextDraw s) i (hostAssign h x (((Config.freeWord s.draws).setWidth 8).setWidth 32))) := by
  rw [runStmt, windowOffset_outside _ hoff, Except.bind, afterReadInto]

theorem sameEngine_setHost_nextDraw (s : State) (i : Nat) (h : HostAgent) : SameEngine s (setHost (nextDraw s) i h) := by
  apply SameEngine.of_fields <;> rfl

end

/-- Settles O46: a statement beyond the window answers a state that `setHost` makes, with at most a draw used. -/
theorem addressesOutsideTheWindow : Obligations.AddressesOutsideTheWindow := by
  refine ⟨fun _ _ => windowOffset_below, windowOffset_base_add, fun s i h off v hh hoff hstmt => ?_,
    fun s i h off x hh hoff hstmt => ?_⟩
  · refine ⟨setHost s i (hostAdvance h), ?_, sameEngine_setHost s i _, rfl, rfl⟩
    obtain hstmt | hstmt := hstmt <;> rw [hostStep_eq_runStmt hh hstmt]
    · exact runStmt_w32_outside v hoff
    · exact runStmt_w8_outside v hoff
  · have assigned (v : Word32) := sameEngine_setHost_nextDraw s i (hostAssign h x v)
    obtain hstmt | hstmt := hstmt
    · refine ⟨_, hostAssign h x (Config.freeWord s.draws), (hostStep_eq_runStmt hh hstmt).trans (runStmt_r32_outside x hoff),
        assigned _, rfl, rfl, rfl, rfl, rfl, ?_, fun y => varValue_hostAssign_other i h _⟩
      rw [if_pos hstmt, varValue_hostAssign_self]
    · have not32 : h.program[h.pc]? ≠ some (.r32 off x) := by
        rw [hstmt]
        exact fun e => nomatch e
      refine ⟨_, hostAssign h x _, (hostStep_eq_runStmt hh hstmt).trans (runStmt_r8_outside x hoff), assigned _, rfl, rfl, rfl,
        rfl, rfl, ?_, fun y => varValue_hostAssign_other i h _⟩
      rw [if_neg not32, varValue_hostAssign_self]

end Sys2Proof.Machine
end

section
/-! PROOFS. The command word (spec/30_encoding.md R90 to R101). `decode_cases` says once what decode answers on every word: one
of its three codes, each with the condition R101 gives it, or the command that the word encodes. Its command case rests on the
four tables of decode, each entry of which is the command its fields encode, and on a word being made of its fields. -/

namespace Sys2Proof.Machine

/-! ## A word and its fields -/

/-- A word whose reserved bits are 0 is made of its fields (R91). -/
theorem cmdWord_bits {v : Word32} (h15 : bits v 15 13 = 0) (h31 : bits v 31 24 = 0) :
    cmdWord (bits v 3 0) (bits v 7 4) (bits v 10 8) (bits v 12 11) (bits v 23 16) = v := by
  apply BitVec.eq_of_toNat_eq
  have := v.isLt
  simp only [bits] at h15 h31
  simp only [cmdWord, bits, BitVec.toNat_ofNat]
  omega

theorem toNat_encode_padN (n : Byte) : (encode (.padN n)).toNat = 5 + n.toNat * 2 ^ 16 := by
  have := n.isLt
  simp only [encode, cmdWord, BitVec.toNat_ofNat]
  omega

theorem padWord_eq_encode (n : Byte) : padWord n = encode (.padN n) := by
  apply BitVec.eq_of_toNat_eq
  have := n.isLt
  have shifted : (n.setWidth 32 <<< 16).toNat = n.toNat <<< 16 := by
    rw [BitVec.toNat_shiftLeft, BitVec.toNat_setWidth, Nat.shiftLeft_eq]
    omega
  rw [toNat_encode_padN, padWord, BitVec.toNat_or, shifted, Nat.or_comm, BitVec.toNat_ofNat,
    ← Nat.shiftLeft_add_eq_or_of_lt (by decide), Nat.shiftLeft_eq]
  omega

/-! ## The tables of decode -/

/-- What a table of decode says of the word `v`: the command that `v` encodes, or none where a field is `reserved`. -/
inductive TableEntry (reserved : Prop) (v : Word32) : Option Instr → Prop where
  | unsupported (h : reserved) : TableEntry reserved v none
  | command (i : Instr) (h : ¬ reserved) (wf : i.wellFormed = true) (word : encode i = v) : TableEntry reserved v (some i)

theorem hashOfAlg_entry (alg : Nat) : TableEntry (6 ≤ alg) (cmdWord 1 alg 0 0 0) (hashOfAlg alg) :=
  match alg with
  | 0 | 1 | 2 | 3 | 4 | 5 => .command _ (by decide) rfl rfl
  | _ + 6 => .unsupported (Nat.le_add_left _ _)

theorem hmacOfAlg_entry (alg : Nat) : TableEntry (6 ≤ alg) (cmdWord 2 alg 0 0 0) (hmacOfAlg alg) :=
  match alg with
  | 0 | 1 | 2 | 3 | 4 | 5 => .command _ (by decide) rfl rfl
  | _ + 6 => .unsupported (Nat.le_add_left _ _)

theorem encOfModeFam_entry (mode fam : Nat) :
    TableEntry (5 ≤ mode ∨ 2 ≤ fam) (cmdWord 3 0 mode fam 0) (encOfModeFam mode fam) :=
  match mode, fam with
  | 0, 0 | 0, 1 | 1, 0 | 1, 1 | 2, 0 | 2, 1 | 3, 0 | 3, 1 | 4, 0 | 4, 1 => .command _ (by decide) rfl rfl
  | 0, _ + 2 | 1, _ + 2 | 2, _ + 2 | 3, _ + 2 | 4, _ + 2 => .unsupported (.inr (Nat.le_add_left _ _))
  | _ + 5, _ => .unsupported (.inl (Nat.le_add_left _ _))

theorem decOfModeFam_entry (mode fam : Nat) :
    TableEntry (5 ≤ mode ∨ 2 ≤ fam) (cmdWord 4 0 mode fam 0) (decOfModeFam mode fam) :=
  match mode, fam with
  | 0, 0 | 0, 1 | 1, 0 | 1, 1 | 2, 0 | 2, 1 | 3, 0 | 3, 1 | 4, 0 | 4, 1 => .command _ (by decide) rfl rfl
  | 0, _ + 2 | 1, _ + 2 | 2, _ + 2 | 3, _ + 2 | 4, _ + 2 => .unsupported (.inr (Nat.le_add_left _ _))
  | _ + 5, _ => .unsupported (.inl (Nat.le_add_left _ _))

/-! ## What decode answers -/

/-- The words R101 makes ILLEGAL_CMD: a nonzero reserved bit, a reserved OP, or a nonzero field the OP does not use. -/
def IllegalWord (v : Word32) : Prop :=
  bits v 15 13 ≠ 0 ∨ bits v 31 24 ≠ 0 ∨ bits v 3 0 = 0 ∨ 7 ≤ bits v 3 0 ∨
    ((bits v 3 0 = 1 ∨ bits v 3 0 = 2) ∧ (bits v 10 8 ≠ 0 ∨ bits v 12 11 ≠ 0 ∨ bits v 23 16 ≠ 0)) ∨
    ((bits v 3 0 = 3 ∨ bits v 3 0 = 4) ∧ (bits v 7 4 ≠ 0 ∨ bits v 23 16 ≠ 0)) ∨
    (bits v 3 0 = 5 ∧ (bits v 7 4 ≠ 0 ∨ bits v 10 8 ≠ 0 ∨ bits v 12 11 ≠ 0)) ∨
    (bits v 3 0 = 6 ∧ (bits v 7 4 ≠ 0 ∨ bits v 10 8 ≠ 0 ∨ bits v 12 11 ≠ 0 ∨ bits v 23 16 ≠ 0))

/-- A reserved value in ALG, MODE or FAM under an OP that uses the field (R101). -/
def ReservedSelector (v : Word32) : Prop :=
  ((bits v 3 0 = 1 ∨ bits v 3 0 = 2) ∧ 6 ≤ bits v 7 4) ∨
    ((bits v 3 0 = 3 ∨ bits v 3 0 = 4) ∧ (5 ≤ bits v 10 8 ∨ 2 ≤ bits v 12 11))

/-- PAD with BSIZE = 0 (R96). -/
def ZeroBlockSize (v : Word32) : Prop := bits v 3 0 = 5 ∧ bits v 23 16 = 0

/-- What decode can answer on the word `v`, with the condition under which it does. -/
inductive DecodeAnswer (v : Word32) : Except ErrCode Instr → Prop where
  | illegal (h : IllegalWord v) : DecodeAnswer v (.error .illegalCmd)
  | unsupported (legal : ¬ IllegalWord v) (h : ReservedSelector v) : DecodeAnswer v (.error .unsupportedCombination)
  | blockSize (legal : ¬ IllegalWord v) (h : ZeroBlockSize v) : DecodeAnswer v (.error .invalidBlockSize)
  | command (i : Instr) (legal : ¬ IllegalWord v) (selector : ¬ ReservedSelector v) (size : ¬ ZeroBlockSize v)
      (wf : i.wellFormed = true) (word : encode i = v) : DecodeAnswer v (.ok i)

section
variable {v w : Word32}

/-- A table's answer is decode's answer, on a word of the table's OP that is not illegal. -/
theorem TableEntry.decodeAnswer {reserved : Prop} {entry : Option Instr} (h : TableEntry reserved w entry)
    (legal : ¬ IllegalWord v) (size : ¬ ZeroBlockSize v) (hr : reserved ↔ ReservedSelector v) (hw : w = v) :
    DecodeAnswer v (orUnsupported entry) := by
  cases h with
  | unsupported h => exact .unsupported legal (hr.mp h)
  | command i h wf word => exact .command i legal (fun hs => h (hr.mpr hs)) size wf (word.trans hw)

variable (h15 : bits v 15 13 = 0) (h31 : bits v 31 24 = 0)
include h15 h31

/-- HASH and HMAC: the fields they do not use, then the table of ALG. -/
theorem decodeAnswer_alg {op : Nat} {entry : Option Instr} (hop : bits v 3 0 = op) (h : op = 1 ∨ op = 2)
    (table : TableEntry (6 ≤ bits v 7 4) (cmdWord op (bits v 7 4) 0 0 0) entry) :
    DecodeAnswer v (if bits v 10 8 ≠ 0 ∨ bits v 12 11 ≠ 0 ∨ bits v 23 16 ≠ 0 then .error .illegalCmd
      else orUnsupported entry) := by
  split
  · next used => exact .illegal (by unfold IllegalWord; omega)
  · next unused =>
    obtain ⟨mode, fam, bs⟩ : bits v 10 8 = 0 ∧ bits v 12 11 = 0 ∧ bits v 23 16 = 0 := by omega
    have word := cmdWord_bits h15 h31
    rw [hop, mode, fam, bs] at word
    exact table.decodeAnswer (by unfold IllegalWord; omega) (by unfold ZeroBlockSize; omega)
      (by unfold ReservedSelector; omega) word

/-- ENC and DEC: the fields they do not use, then the table of MODE and FAM. -/
theorem decodeAnswer_modeFam {op : Nat} {entry : Option Instr} (hop : bits v 3 0 = op) (h : op = 3 ∨ op = 4)
    (table : TableEntry (5 ≤ bits v 10 8 ∨ 2 ≤ bits v 12 11) (cmdWord op 0 (bits v 10 8) (bits v 12 11) 0) entry) :
    DecodeAnswer v (if bits v 7 4 ≠ 0 ∨ bits v 23 16 ≠ 0 then .error .illegalCmd else orUnsupported entry) := by
  split
  · next used => exact .illegal (by unfold IllegalWord; omega)
  · next unused =>
    obtain ⟨alg, bs⟩ : bits v 7 4 = 0 ∧ bits v 23 16 = 0 := by omega
    have word := cmdWord_bits h15 h31
    rw [hop, alg, bs] at word
    exact table.decodeAnswer (by unfold IllegalWord; omega) (by unfold ZeroBlockSize; omega)
      (by unfold ReservedSelector; omega) word

/-- PAD: the fields it does not use, then BSIZE. -/
theorem decodeAnswer_pad (hop : bits v 3 0 = 5) :
    DecodeAnswer v (if bits v 7 4 ≠ 0 ∨ bits v 10 8 ≠ 0 ∨ bits v 12 11 ≠ 0 then .error .illegalCmd
      else if bits v 23 16 = 0 then .error .invalidBlockSize else .ok (.padN (BitVec.ofNat 8 (bits v 23 16)))) := by
  split
  · next used => exact .illegal (by unfold IllegalWord; omega)
  next unused =>
    have legal : ¬ IllegalWord v := by unfold IllegalWord; omega
    split
    · next zero => exact .blockSize legal ⟨hop, zero⟩
    · next size =>
      have byte : (BitVec.ofNat 8 (bits v 23 16)).toNat = bits v 23 16 :=
        Nat.mod_eq_of_lt (Nat.mod_lt _ (by decide))
      obtain ⟨alg, mode, fam⟩ : bits v 7 4 = 0 ∧ bits v 10 8 = 0 ∧ bits v 12 11 = 0 := by omega
      have word := cmdWord_bits h15 h31
      rw [hop, alg, mode, fam] at word
      refine .command _ legal (by unfold ReservedSelector; omega) (fun h => size h.2) ?_ (by rw [encode, byte, word])
      exact bne_iff_ne.mpr fun h => size (byte.symm.trans (congrArg BitVec.toNat h))

/-- UNPAD: it uses no field. -/
theorem decodeAnswer_unpad (hop : bits v 3 0 = 6) :
    DecodeAnswer v (if bits v 7 4 ≠ 0 ∨ bits v 10 8 ≠ 0 ∨ bits v 12 11 ≠ 0 ∨ bits v 23 16 ≠ 0 then .error .illegalCmd
      else .ok .unpad) := by
  split
  · next used => exact .illegal (by unfold IllegalWord; omega)
  · next unused =>
    obtain ⟨alg, mode, fam, bs⟩ : bits v 7 4 = 0 ∧ bits v 10 8 = 0 ∧ bits v 12 11 = 0 ∧ bits v 23 16 = 0 := by omega
    have word := cmdWord_bits h15 h31
    rw [hop, alg, mode, fam, bs] at word
    exact .command _ (by unfold IllegalWord; omega) (by unfold ReservedSelector; omega) (by unfold ZeroBlockSize; omega) rfl
      word

end

/-- R100, once: what decode answers on every word, along its test of the reserved bits and its case over OP. -/
theorem decode_cases (v : Word32) : DecodeAnswer v (decode v) := by
  simp only [decode]
  split
  · next reserved => exact .illegal (by unfold IllegalWord; omega)
  next clear =>
    obtain ⟨h15, h31⟩ : bits v 15 13 = 0 ∧ bits v 31 24 = 0 := by omega
    split
    · next op => exact decodeAnswer_alg h15 h31 op (.inl rfl) (hashOfAlg_entry _)
    · next op => exact decodeAnswer_alg h15 h31 op (.inr rfl) (hmacOfAlg_entry _)
    · next op => exact decodeAnswer_modeFam h15 h31 op (.inl rfl) (encOfModeFam_entry _ _)
    · next op => exact decodeAnswer_modeFam h15 h31 op (.inr rfl) (decOfModeFam_entry _ _)
    · next op => exact decodeAnswer_pad h15 h31 op
    · next op => exact decodeAnswer_unpad h15 h31 op
    · next op1 op2 op3 op4 op5 op6 =>
      have op : bits v 3 0 = 0 ∨ 7 ≤ bits v 3 0 := by
        rw [imp_false] at op1 op2 op3 op4 op5 op6
        omega
      exact .illegal (by unfold IllegalWord; omega)

/-! ## Decode and encode -/

/-- Every command but PAD is a row of R99 with its word. -/
theorem mem_fixedCommandMap_or_padN (i : Instr) : (encode i, i) ∈ fixedCommandMap ∨ ∃ n, i = .padN n := by
  cases i with
  | padN n => exact .inr ⟨n, rfl⟩
  | _ => exact .inl (by decide)

/-- decode reads the rows of R99 as R99 gives them. -/
theorem decode_of_mem_fixedCommandMap : ∀ p ∈ fixedCommandMap, decode p.1 = .ok p.2 := by decide

theorem decode_encode_padN {n : Byte} (h : n ≠ 0) : decode (encode (.padN n)) = .ok (.padN n) := by
  have := n.isLt
  have size : n.toNat ≠ 0 := fun h0 => h (BitVec.eq_of_toNat_eq h0)
  have fields (hi lo : Nat) : bits (encode (.padN n)) hi lo = (5 + n.toNat * 2 ^ 16) / 2 ^ lo % 2 ^ (hi + 1 - lo) := by
    rw [bits, toNat_encode_padN]
  have op : bits (encode (.padN n)) 3 0 = 5 := by rw [fields]; omega
  have alg : bits (encode (.padN n)) 7 4 = 0 := by rw [fields]; omega
  have mode : bits (encode (.padN n)) 10 8 = 0 := by rw [fields]; omega
  have fam : bits (encode (.padN n)) 12 11 = 0 := by rw [fields]; omega
  have h15 : bits (encode (.padN n)) 15 13 = 0 := by rw [fields]; omega
  have bs : bits (encode (.padN n)) 23 16 = n.toNat := by rw [fields]; omega
  have h31 : bits (encode (.padN n)) 31 24 = 0 := by rw [fields]; omega
  simp [decode, op, alg, mode, fam, h15, bs, h31, size]

theorem decode_encode {i : Instr} (wf : i.wellFormed = true) : decode (encode i) = .ok i := by
  rcases mem_fixedCommandMap_or_padN i with row | ⟨n, rfl⟩
  · exact decode_of_mem_fixedCommandMap _ row
  · exact decode_encode_padN (bne_iff_ne.mp wf)

/-- Where decode answers a command, the word is that command's. -/
theorem encode_of_decode {v : Word32} {i : Instr} (h : decode v = .ok i) : i.wellFormed = true ∧ encode i = v := by
  have answer := decode_cases v
  rw [h] at answer
  cases answer with
  | command _ _ _ _ wf word => exact ⟨wf, word⟩

/-- Settles O1: `decode_cases` one way, `decode_encode` the other. -/
theorem decodeReadsExactlyTheEncodedWords : Obligations.DecodeReadsExactlyTheEncodedWords :=
  fun _ _ => ⟨encode_of_decode, fun ⟨wf, word⟩ => word ▸ decode_encode wf⟩

/-- Settles O2: a command is a row of the map or PAD, and decode reads no word but its own as it. -/
theorem legalWordsAreTheCommandMap : Obligations.LegalWordsAreTheCommandMap := by
  refine ⟨decode_of_mem_fixedCommandMap, fun n hn => padWord_eq_encode n ▸ decode_encode_padN hn, fun v i h => ?_⟩
  obtain ⟨wf, rfl⟩ := encode_of_decode h
  rcases mem_fixedCommandMap_or_padN i with row | ⟨n, rfl⟩
  · exact .inl row
  · exact .inr ⟨n, bne_iff_ne.mp wf, (padWord_eq_encode n).symm, rfl⟩

/-- Settles O4: each word is the encoding of its command. -/
theorem sampleWordsDecode : Obligations.SampleWordsDecode :=
  ⟨decode_encode (i := .hashSha256) rfl, decode_encode (i := .hmacSha512) rfl, decode_encode (i := .decCtrC64) rfl,
    decode_encode (i := .padN 20) rfl, decode_encode (i := .unpad) rfl⟩

/-! ## Refused words -/

theorem ReservedSelector.not_zeroBlockSize {v : Word32} (h : ReservedSelector v) : ¬ ZeroBlockSize v := by
  unfold ReservedSelector at h
  unfold ZeroBlockSize
  omega

/-- Each code of decode, with the condition R101 gives it: the answers of `decode_cases` exclude each other. -/
theorem decode_error_iff (v : Word32) :
    (decode v = .error .illegalCmd ↔ IllegalWord v) ∧
      (decode v = .error .unsupportedCombination ↔ ¬ IllegalWord v ∧ ReservedSelector v) ∧
      (decode v = .error .invalidBlockSize ↔ ¬ IllegalWord v ∧ ZeroBlockSize v) := by
  have answer := decode_cases v
  generalize decode v = r at answer
  cases answer with
  | illegal h => simp [h]
  | unsupported legal h => simp [legal, h, h.not_zeroBlockSize]
  | blockSize legal h => simp [legal, h, mt ReservedSelector.not_zeroBlockSize (not_not.mpr h)]
  | command i legal selector size _ _ => simp [legal, selector, size]

/-- The code of a refused word in STATUS (R400, R403). -/
theorem statusFailed_of_decode {v : Word32} {c : ErrCode} (h : decode v = .error c) :
    (c, statusFailed c) ∈ [(ErrCode.illegalCmd, 0x00000052#32), (.unsupportedCombination, 0x00000042#32),
      (.invalidBlockSize, 0x00000062#32)] := by
  have answer := decode_cases v
  rw [h] at answer
  cases answer <;> decide

/-- The engine step of a word that decode refuses (R106(b)). -/
theorem engineStep_of_error {v : Word32} {c : ErrCode} (h : decode v = .error c) (s : State) :
    engineStep v s = .next (raiseError c s) := by
  rw [engineStep, h]

/-- Settles O3: `IllegalWord`, `ReservedSelector` and `ZeroBlockSize` are the conditions it writes out. -/
theorem refusedWordsHaveTheirCode : Obligations.RefusedWordsHaveTheirCode := by
  intro v
  obtain ⟨illegal, unsupported, blockSize⟩ := decode_error_iff v
  exact ⟨illegal, unsupported, blockSize, fun c s h =>
    ⟨raiseError c s, engineStep_of_error h s, refused_raiseError c s, statusFailed_of_decode h⟩⟩

end Sys2Proof.Machine
end

section
/-! PROOFS. Steps (spec/30_encoding.md R104, R106, R108; spec/70_reset_and_hazards.md R455, R462): how a command ends, whose turn
it is, what issue leaves, and what each statement of a host program does. -/

namespace Sys2Proof.Machine

/-! ## How a command ends -/

/-- Settles O10: `exec_cases`, with what each of the three ends leaves; the output fits DOUTLEN because DOUT can hold it. -/
theorem commandsNeverPartlyComplete : Obligations.CommandsNeverPartlyComplete := by
  intro i s legal
  rcases exec_cases i s with ⟨c, run⟩ | ⟨consistent, fits, run⟩ | ⟨unpad, inconsistent, run⟩
  · exact ⟨raiseError c s, run, .inl ⟨c, refused_raiseError c s⟩⟩
  · exact ⟨_, run, .inr (.inl ⟨consistent, fits, completed_finish s (fits.trans_lt (outCap_lt legal))⟩)⟩
  · exact ⟨_, run, .inr (.inr ⟨unpad, inconsistent, unspecified_finishUnspecified s⟩)⟩

/-! ## Whose turn it is -/

section
variable {s u : State} {f : InFlight} {i : Nat}

theorem mem_readyHosts : i ∈ readyHosts s ↔ ∃ h, s.hosts[i]? = some h ∧ h.run = .running ∧ h.pc < h.program.length := by
  simp only [readyHosts, List.mem_filter, List.mem_range, Option.any_eq_true, hostReady, Bool.and_eq_true, beq_iff_eq,
    decide_eq_true_eq, and_iff_right_iff_imp]
  rintro ⟨h, host, _⟩
  exact (List.getElem?_eq_some_iff.mp host).1

theorem pickHost_of_readyHosts_nil (h : readyHosts s = []) : pickHost s = none := by
  rw [pickHost, h]

theorem exists_pickHost (h : readyHosts s ≠ []) : ∃ i u, pickHost s = some (i, u) := by
  unfold pickHost
  split
  · next noHost => exact absurd noHost h
  · exact ⟨_, _, rfl⟩
  · exact ⟨_, _, rfl⟩

theorem sameEngine_choose (s : State) : SameEngine s (choose s).2 := by
  apply SameEngine.of_fields <;> simp

/-- The engine moves once the host steps chosen at issue have passed, or no host has one to take. -/
theorem nextAgent_engine (flight : s.inflight = some f) (h : f.wait = 0 ∨ readyHosts s = []) :
    nextAgent s = .engine f.word s := by
  rcases h with wait | noHost
  · rw [nextAgent, flight]
    cases pickHost s with
    | none => rfl
    | some pick => simp only [wait]
  · rw [nextAgent, flight, pickHost_of_readyHosts_nil noHost]

theorem nextAgent_host_idle (flight : s.inflight = none) (pick : pickHost s = some (i, u)) : nextAgent s = .host i u := by
  rw [nextAgent, flight, pick]

theorem nextAgent_host_busy {n : Nat} (flight : s.inflight = some f) (wait : f.wait = n + 1)
    (pick : pickHost s = some (i, u)) : nextAgent s = .host i { u with inflight := some { f with wait := n } } := by
  simp only [nextAgent, flight, pick, wait]

section
variable (input : s.resetInput.head? ≠ some true)
include input

theorem nextTurn_deasserted : nextTurn s = nextAgent (nextInput s) := by
  rw [nextTurn, if_neg input]

theorem step_engine (flight : s.inflight = some f) (h : f.wait = 0 ∨ readyHosts s = []) :
    step s = engineStep f.word (nextInput s) := by
  rw [step, nextTurn_deasserted input, nextAgent_engine (s := nextInput s) flight h]

theorem step_host_idle (flight : s.inflight = none) (pick : pickHost (nextInput s) = some (i, u)) : step s = hostStep i u := by
  rw [step, nextTurn_deasserted input, nextAgent_host_idle (s := nextInput s) flight pick]

theorem step_host_busy {n : Nat} (flight : s.inflight = some f) (wait : f.wait = n + 1)
    (pick : pickHost (nextInput s) = some (i, u)) :
    step s = hostStep i { u with inflight := some { f with wait := n } } := by
  rw [step, nextTurn_deasserted input, nextAgent_host_busy (s := nextInput s) flight wait pick]

end

end

/-- The engine step of a word that decodes (R106(b)). -/
theorem engineStep_of_ok {v : Word32} {i : Instr} (h : decode v = .ok i) (s : State) : engineStep v s = exec i s := by
  rw [engineStep, h]

/-- Settles O5: `nextInput` drops a level of the reset input; whose step it is, is `nextAgent`'s; the host picked is ready. -/
theorem stepRunsTheDecodedCommand : Obligations.StepRunsTheDecodedCommand := by
  refine ⟨fun s f i flight decoded turn => ⟨fun input => ?_, fun rest input => ?_⟩, fun s u i input pick =>
    ⟨fun flight => step_host_idle input flight pick, fun f n flight wait => step_host_busy input flight wait pick⟩,
    fun s ready => ?_, fun _ _ => mem_readyHosts⟩
  · rw [step_engine (by simp [input]) flight turn, engineStep_of_ok decoded, nextInput_nil input]
  · rw [step_engine (by simp [input]) flight turn, engineStep_of_ok decoded, nextInput, input, List.tail_cons]
  · obtain ⟨i, u, pick⟩ := exists_pickHost ready
    obtain ⟨mem, rfl | rfl⟩ := pickHost_cases pick
    · exact ⟨i, u, pick, mem, .refl u, rfl, rfl, rfl⟩
    · exact ⟨i, _, pick, mem, sameEngine_choose s, choose_hosts s, choose_hostFault s, choose_resetInput s⟩

theorem decode_of_decodeTableWord {nbits w : Nat} {i : Instr} (h : decodeTableWord nbits w = some i) :
    decode (BitVec.ofNat 32 (w % 2 ^ nbits)) = .ok i := by
  unfold decodeTableWord at h
  generalize decode (BitVec.ofNat 32 (w % 2 ^ nbits)) = r at h
  cases r with
  | ok j => rw [Option.some.inj h]
  | error c => cases h

/-- Settles O6: the word is in flight with no host step to pass, and the reset input is deasserted. -/
theorem placedCommandRunsNext : Obligations.PlacedCommandRunsNext := by
  intro s nbits w i h
  rw [step_engine (by simp) (withFetchWord_inflight s nbits w) (.inl rfl),
    engineStep_of_ok (decode_of_decodeTableWord h), nextInput_nil (withFetchWord_resetInput s nbits w)]

/-! ## Issue -/

/-- Settles O9: the write is `issue`, whose fields are in Laws. -/
theorem issueFrame : Obligations.IssueFrame := by
  intro v s t idle write
  obtain rfl : issue v s = t := Except.ok.inj ((hostWrite32_register (by decide) (by decide) v idle).symm.trans write)
  obtain ⟨_, _, _, isBusy, notDone, noError, _⟩ := status_facts
  rw [issue_status]
  exact ⟨issue_cmd v s, isBusy, notDone, noError, ⟨_, issue_inflight v s, rfl⟩, issue_params v s, issue_keylen v s,
    issue_ivlen v s, issue_dinlen v s, issue_doutlen v s, bufByte_issue v s, issue_hosts v s, issue_hostFault v s,
    issue_resetInput v s⟩

/-! ## Host statements -/

section
variable {s t : State} {i : Nat} {h : HostAgent} {off : Nat} (inWindow : off < Config.windowBytes)
include inWindow

/-- An access at an offset of the window goes to that offset. -/
theorem windowOffset_inside {α : Type} (p : Config.Params) (access : Nat → Except HostReject α) :
    (windowOffset p (p.base + off)).bind access = access off := by
  rw [windowOffset_base_add, if_pos (show off < 0x03000000 from inWindow), Except.bind]

theorem runStmt_w32_accepted {v : HostVal} (write : hostWrite32 off (hostValue i h v) s = .ok t) :
    runStmt i h (.w32 off v) s = .next (setHost t i (hostAdvance h)) := by
  rw [runStmt, windowOffset_inside inWindow, write, afterWrite]

theorem runStmt_w8_accepted {v : HostVal} (write : hostWrite8 off ((hostValue i h v).setWidth 8) s = .ok t) :
    runStmt i h (.w8 off v) s = .next (setHost t i (hostAdvance h)) := by
  rw [runStmt, windowOffset_inside inWindow, write, afterWrite]

theorem runStmt_r32_accepted {x : Nat} {v : Word32} (read : hostRead32 off s = .ok (v, t)) :
    runStmt i h (.r32 off x) s = .next (setHost t i (hostAssign h x v)) := by
  rw [runStmt, windowOffset_inside inWindow, read, afterReadInto, BitVec.setWidth_eq]

theorem runStmt_r8_accepted {x : Nat} {v : Byte} (read : hostRead8 off s = .ok (v, t)) :
    runStmt i h (.r8 off x) s = .next (setHost t i (hostAssign h x (v.setWidth 32))) := by
  rw [runStmt, windowOffset_inside inWindow, read, afterReadInto]

end

/-- Settles O45: a host step is `runStmt` of the next statement; each clause is that statement's equation. -/
theorem hostStatements : Obligations.HostStatements := by
  intro s i h host
  refine ⟨fun off v t stmt inWindow write => ?_, fun off v t stmt inWindow write => ?_, fun off x v t stmt inWindow read => ?_,
    fun off x v t stmt inWindow read => ?_, fun x b l stmt bit => ?_, fun x b l stmt bit => ?_, fun stmt => ?_⟩
  · exact (hostStep_eq_runStmt host stmt).trans (runStmt_w32_accepted inWindow write)
  · exact (hostStep_eq_runStmt host stmt).trans (runStmt_w8_accepted inWindow write)
  · exact ⟨hostAssign h x v, (hostStep_eq_runStmt host stmt).trans (runStmt_r32_accepted inWindow read), rfl, rfl, rfl,
      varValue_hostAssign_self i h x v, fun _ => varValue_hostAssign_other i h v⟩
  · exact ⟨hostAssign h x (v.setWidth 32), (hostStep_eq_runStmt host stmt).trans (runStmt_r8_accepted inWindow read), rfl, rfl,
      rfl, varValue_hostAssign_self i h x _, fun _ => varValue_hostAssign_other i h _⟩
  · rw [hostStep_eq_runStmt host stmt, runStmt, if_pos bit]
  · rw [hostStep_eq_runStmt host stmt, runStmt, bit, if_neg Bool.false_ne_true]
  · rw [hostStep_eq_runStmt host stmt, runStmt]

end Sys2Proof.Machine
end

section
/-! PROOFS. Merkle–Damgård padding, digests and absorbing (spec/40_md_padding.md R121, R122, R126, R127, R129). The laws of
padding and of absorbing are for any `HashParams` and any compression; a variant's row of R6 comes in where an obligation is
settled. -/

namespace Sys2Proof.Machine

/-! ## The padded message -/

section
variable {p : HashParams} (hb : 0 < p.blockBytes)
include hb

/-- The modulus of R121 without negative numbers: as many zero bytes as complete the block that ℓ + Fb + 1 bytes begin. -/
theorem padZeros_eq (len : Nat) : padZeros p len = p.blockBytes - 1 - (len + p.lengthBytes) % p.blockBytes := by
  have hneg : (p.blockBytes : Int) - p.lengthBytes - 1 - len = Int.negSucc (len + p.lengthBytes) + p.blockBytes := by
    rw [Int.negSucc_eq]
    omega
  have hmod := Nat.mod_lt (len + p.lengthBytes) hb
  rw [padZeros, hneg, Int.add_emod_right, Int.negSucc_emod _ (by exact_mod_cast hb)]
  omega

theorem padZeros_lt (len : Nat) : padZeros p len < p.blockBytes := by
  rw [padZeros_eq hb]
  omega

/-- R122: the padding is N = ⌊(ℓ + Fb) / Bb⌋ + 1 blocks long. -/
theorem length_mdpad (m : Bytes) :
    (mdpad p m).length = ((m.length + p.lengthBytes) / p.blockBytes + 1) * p.blockBytes := by
  have hmod := Nat.mod_lt (m.length + p.lengthBytes) hb
  have hdiv := Nat.div_add_mod' (m.length + p.lengthBytes) p.blockBytes
  simp only [mdpad, List.length_append, length_zeros, length_pack, List.length_singleton, padZeros_eq hb, Nat.add_mul]
  omega

end

theorem pack_inj {e : Endian} {n v v' : Nat} (hv : v < 2 ^ (8 * n)) (hv' : v' < 2 ^ (8 * n))
    (h : pack e n v = pack e n v') : v = v' := by
  rw [← unpack_pack e n v hv, h, unpack_pack e n v' hv']

/-- The length field, at the end of the padding, gives the message's length, and the message is that much of the start. -/
theorem mdpad_inj {p : HashParams} {m m' : Bytes} (hm : 8 * m.length < 2 ^ (8 * p.lengthBytes))
    (hm' : 8 * m'.length < 2 ^ (8 * p.lengthBytes)) (h : mdpad p m = mdpad p m') : m = m' := by
  have field : pack p.endian p.lengthBytes (8 * m.length) = pack p.endian p.lengthBytes (8 * m'.length) :=
    List.append_inj_right' h (by rw [length_pack, length_pack])
  have length : m.length = m'.length := Nat.eq_of_mul_eq_mul_left (by decide) (pack_inj hm hm' field)
  simp only [mdpad, List.append_assoc] at h
  exact List.append_inj_left h length

theorem blockBytes_hashParams_pos (alg : Alg) : 0 < (hashParams alg).blockBytes := by cases alg <;> decide

/-- The length field has 8 or 16 bytes (R6), so the bit length of a message below 2^61 bytes fits it. -/
theorem bitLength_lt {n : Nat} (alg : Alg) (h : n < 2 ^ 61) : 8 * n < 2 ^ (8 * (hashParams alg).lengthBytes) := by
  have field : 2 ^ 64 ≤ 2 ^ (8 * (hashParams alg).lengthBytes) := by cases alg <;> decide
  omega

/-- MD5 alone writes its length field little-endian, in 8 bytes (R6, R121). -/
theorem pack_lengthField (alg : Alg) (v : Nat) : pack (hashParams alg).endian (hashParams alg).lengthBytes v =
    if alg = .md5 then toLE 8 v else toBE (hashParams alg).lengthBytes v := by
  cases alg <;> rfl

/-- Settles O47: k is R121's number of zero bytes. -/
theorem paddedMessageShape : Obligations.PaddedMessageShape := by
  intro alg m
  have hb := blockBytes_hashParams_pos alg
  refine ⟨padZeros (hashParams alg) m.length, padZeros_lt hb _, ?_, length_mdpad hb m⟩
  rw [mdpad, pack_lengthField, zeros]

/-- Settles O48: below 2^61 bytes the length field holds the bit length whole. -/
theorem paddingIsUnambiguous : Obligations.PaddingIsUnambiguous :=
  fun alg _ _ hm hm' => mdpad_inj (bitLength_lt alg hm) (bitLength_lt alg hm')

/-! ## Digests -/

/-- The digest's words are there to be taken: the state has no fewer, at the start and after every block (R127, R129). -/
theorem length_mdHash {w n : Nat} {p : HashParams} {compress : List (BitVec w) → Bytes → List (BitVec w)}
    (hc : ∀ h blk, h.length = n → (compress h blk).length = n) {iv : List (BitVec w)} (hiv : iv.length = n)
    (hp : p.digestWords ≤ n) (m : Bytes) : (mdHash p compress iv m).length = p.digestWords * (w / 8) := by
  rw [mdHash, length_finalize, length_absorbAll _ hc hiv, Nat.min_eq_left hp]

/-- Settles O49: each engine keeps the number of its state words. -/
theorem digestsHaveFixedWidth : Obligations.DigestsHaveFixedWidth := by
  intro alg m
  cases alg with
  | md5 => exact length_mdHash (fun _ => length_md5Compress) rfl (by decide) m
  | sha1 => exact length_mdHash (fun _ => length_sha1Compress) rfl (by decide) m
  | sha224 => exact length_mdHash (fun _ => length_sha256Compress) rfl (by decide) m
  | sha256 => exact length_mdHash (fun _ => length_sha256Compress) rfl (by decide) m
  | sha384 => exact length_mdHash (fun _ => length_sha512Compress) rfl (by decide) m
  | sha512 => exact length_mdHash (fun _ => length_sha512Compress) rfl (by decide) m

/-! ## Absorbing -/

section
variable {bb : Nat} {p q : Bytes}

theorem blockAt_eq (bb : Nat) (x : Bytes) (j : Nat) : blockAt bb x j = (x.drop (j * bb)).take bb := by
  rw [blockAt, slice, Nat.add_mul, Nat.one_mul, Nat.add_sub_cancel_left]

theorem blockAt_append_left {j : Nat} (hj : (j + 1) * bb ≤ p.length) : blockAt bb (p ++ q) j = blockAt bb p j := by
  rw [Nat.add_mul, Nat.one_mul] at hj
  rw [blockAt_eq, blockAt_eq, List.drop_append_of_le_length (by omega),
    List.take_append_of_le_length (by rw [List.length_drop]; omega)]

theorem blockAt_append_right {n : Nat} (hp : p.length = n * bb) (hq : q.length = bb) : blockAt bb (p ++ q) n = q := by
  rw [blockAt_eq, ← hp, List.drop_left, ← hq, List.take_length]

/-- The blocks of `p ++ q` are those of `p`, unchanged, and then `q`. -/
theorem absorbAll_append {w n : Nat} (compress : List (BitVec w) → Bytes → List (BitVec w)) (iv : List (BitVec w))
    (hb : 0 < bb) (hp : p.length = n * bb) (hq : q.length = bb) :
    absorbAll bb compress iv (p ++ q) = compress (absorbAll bb compress iv p) q := by
  have blocks : (p ++ q).length / bb = n + 1 := by
    rw [List.length_append, hp, hq, Nat.add_div_right _ hb, Nat.mul_div_cancel _ hb]
  have earlier (h : List (BitVec w)) (j : Nat) (hj : j ∈ List.range n) :
      compress h (blockAt bb (p ++ q) j) = compress h (blockAt bb p j) := by
    rw [blockAt_append_left (hp ▸ Nat.mul_le_mul_right bb (List.mem_range.mp hj))]
  rw [absorbAll, absorbAll, blocks, hp, Nat.mul_div_cancel _ hb, List.range_succ, List.foldl_concat,
    blockAt_append_right hp hq, List.foldl_ext _ _ _ earlier]

end

theorem absorbAll_nil {w bb : Nat} (compress : List (BitVec w) → Bytes → List (BitVec w)) (iv : List (BitVec w)) :
    absorbAll bb compress iv [] = iv := by
  rw [absorbAll, List.length_nil, Nat.zero_div, List.range_zero, List.foldl_nil]

/-- Settles O52: `p` is a whole number of blocks. -/
theorem absorbIsSequential : Obligations.AbsorbIsSequential := by
  intro w bb compress iv p q hb hp hq
  have whole : p.length = p.length / bb * bb := (Nat.div_mul_cancel (Nat.dvd_of_mod_eq_zero hp)).symm
  exact ⟨absorbAll_nil compress iv, absorbAll_append compress iv hb whole hq⟩

end Sys2Proof.Machine
end

section
/-! PROOFS. MD5's schedule (spec/41_md5.md R152) and the HASH commands (spec/41_md5.md R160, spec/42_sha1.md R190,
spec/43_sha256.md R220 and R221, spec/44_sha512.md R250 and R251). What a command leaves where its checks pass is said for any
output. -/

namespace Sys2Proof.Machine

/-! ## The words of a block -/

/-- R128, with the bounds of word t as R152, R181, R214 and R244 write them. -/
theorem blockWord_eq (w : Nat) (e : Endian) (blk : Bytes) (t : Nat) :
    blockWord w e blk t = BitVec.ofNat w (unpack e (slice blk (w / 8 * t) (w / 8 * t + w / 8))) := by
  rw [blockWord, Nat.add_mul, Nat.one_mul, Nat.mul_comm]

theorem length_md5Schedule (blk : Bytes) : (md5Schedule blk).length = 64 := by
  rw [md5Schedule, List.length_map, List.length_range]

theorem md5Schedule_getD (blk : Bytes) {i : Nat} (h : i < 64) :
    (md5Schedule blk).getD i 0 = blockWord 32 .little blk (md5G i) := by
  rw [List.getD_eq_getElem _ _ (h.trans_eq (length_md5Schedule blk).symm)]
  simp only [md5Schedule, List.getElem_map, List.getElem_range]

/-- Settles O51: word i of the schedule is word g(i) of the block, and i < 16 is i ≤ 15. -/
theorem md5ScheduleReordersTheBlock : Obligations.Md5ScheduleReordersTheBlock := by
  intro blk i h
  refine ⟨length_md5Schedule blk, (md5Schedule_getD blk h).trans (blockWord_eq ..), ?_⟩
  exact if_congr Nat.lt_succ_iff rfl (if_congr Nat.lt_succ_iff rfl (if_congr Nat.lt_succ_iff rfl rfl))

/-! ## The HASH commands -/

section
variable {s : State}

/-- R402's first check, where DINLEN is in range. -/
theorem rangeError_eq_none (h : s.dinlen.toNat ≤ s.params.inCap) : rangeError s = none := by
  rw [rangeError, errorIf_decide, if_neg (Nat.not_lt.mpr h)]

/-- R107: a command whose checks pass completes with its output, which need only fit DOUTLEN. -/
theorem completes_of_noError {failed : Option ErrCode} {out : Bytes} {n : Nat} (pass : failed = none) (hn : out.length = n)
    (fits : n < 2 ^ 32) : ∃ t, complete failed out s = .next t ∧ Completed out s t ∧ t.doutlen.toNat = n := by
  subst pass
  have done := completed_finish s (hn.trans_lt fits)
  exact ⟨finish out s, rfl, done, done.doutlen.trans hn⟩

theorem digestBytes_lt (alg : Alg) : digestBytes alg < 2 ^ 32 := by cases alg <;> decide

/-- The template's only check is DINLEN's, and the digest has its variant's size. -/
theorem hashCommand_completes (alg : Alg) (range : s.dinlen.toNat ≤ s.params.inCap) :
    ∃ t, hashCommand alg s = .next t ∧ Completed (hash alg (msgOf s)) s t ∧ t.doutlen.toNat = digestBytes alg :=
  completes_of_noError (rangeError_eq_none range) (digestsHaveFixedWidth alg _) (digestBytes_lt alg)

end

/-- Settles O12: each of the six is the template with its variant. -/
theorem hashCommandsComplete : Obligations.HashCommandsComplete := by
  intro s range
  simp only [List.forall_mem_cons]
  exact ⟨hashCommand_completes .md5 range, hashCommand_completes .sha1 range, hashCommand_completes .sha224 range,
    hashCommand_completes .sha256 range, hashCommand_completes .sha384 range, hashCommand_completes .sha512 range,
    List.forall_mem_nil _⟩

end Sys2Proof.Machine
end

section
/-! PROOFS. The schedules of SHA-1 and SHA-2 (spec/42_sha1.md R181, spec/43_sha256.md R214, spec/44_sha512.md R244). All three
append words to the block's sixteen, and only their next word differs; of it the proof needs that it reads no word but those
before its own, so the words appended later leave the recurrence as it stands. -/

namespace Sys2Proof.Machine

section
variable {w n : Nat} {next : List (BitVec w) → Nat → BitVec w} {blk : Bytes} {ws : List (BitVec w)}

/-- The word the recurrence gives for t depends on no words but those before t. -/
def LooksBack (next : List (BitVec w) → Nat → BitVec w) : Prop :=
  ∀ (t : Nat) (ws ws' : List (BitVec w)), (∀ i, 0 < i → ws.getD (t - i) 0 = ws'.getD (t - i) 0) → next ws t = next ws' t

/-- `ws` is the block's 16 big-endian words and n more, each of which the recurrence gives. -/
structure Follows (next : List (BitVec w) → Nat → BitVec w) (blk : Bytes) (n : Nat) (ws : List (BitVec w)) : Prop where
  length : ws.length = 16 + n
  block : ∀ t, t < 16 → ws.getD t 0 = BitVec.ofNat w (ofBE (slice blk (w / 8 * t) (w / 8 * t + w / 8)))
  later : ∀ t, 16 ≤ t → t < 16 + n → ws.getD t 0 = next ws t

theorem follows_block (next : List (BitVec w) → Nat → BitVec w) (blk : Bytes) :
    Follows next blk 0 ((List.range 16).map (blockWord w .big blk)) where
  length := by rw [List.length_map, List.length_range]
  block t ht := by
    rw [List.getD_eq_getElem _ _ (by rwa [List.length_map, List.length_range]), List.getElem_map, List.getElem_range,
      blockWord_eq, unpack]
  later t h16 ht := absurd ht (Nat.not_lt.mpr h16)

theorem Follows.concat (back : LooksBack next) (h : Follows next blk n ws) :
    Follows next blk (n + 1) (ws ++ [next ws (16 + n)]) where
  length := by rw [List.length_append, h.length, List.length_singleton, Nat.add_assoc]
  block t ht := by rw [List.getD_append _ _ _ _ (by rw [h.length]; omega), h.block t ht]
  later t h16 ht := by
    have hl := h.length
    rw [back t _ ws fun i hi => List.getD_append _ _ _ _ (by omega)]
    obtain earlier | rfl : t < 16 + n ∨ t = 16 + n := by omega
    · rw [List.getD_append _ _ _ _ (hl ▸ earlier), h.later t h16 earlier]
    · rw [List.getD_append_right _ _ _ _ hl.le, hl, Nat.sub_self, List.getD_cons_zero]

/-- The expanders' shared loop, for any number of appended words. -/
theorem follows_expand (back : LooksBack next) (blk : Bytes) (n : Nat) :
    Follows next blk n ((List.range' 16 n).foldl (fun ws t => ws ++ [next ws t]) ((List.range 16).map (blockWord w .big blk))) := by
  induction n with
  | zero => exact follows_block next blk
  | succ n ih =>
    rw [List.range'_1_concat, List.foldl_concat]
    exact ih.concat back

end

theorem looksBack_sha1Next : LooksBack sha1Next := by
  intro t ws ws' same
  simp only [sha1Next, Nat.ofNat_pos, same]

theorem looksBack_next256 : LooksBack next256 := by
  intro t ws ws' same
  simp only [next256, Nat.ofNat_pos, same]

theorem looksBack_next512 : LooksBack next512 := by
  intro t ws ws' same
  simp only [next512, Nat.ofNat_pos, same]

theorem follows_sha1Schedule (blk : Bytes) : Follows sha1Next blk 64 (sha1Schedule blk) :=
  follows_expand looksBack_sha1Next blk 64

theorem follows_expand256 (blk : Bytes) : Follows next256 blk 48 (expand256 blk) :=
  follows_expand looksBack_next256 blk 48

theorem follows_expand512 (blk : Bytes) : Follows next512 blk 64 (expand512 blk) :=
  follows_expand looksBack_next512 blk 64

/-- Settles O50: the three recurrences are `sha1Next`, `next256` and `next512` by definition. -/
theorem schedulesObeyTheirRecurrence : Obligations.SchedulesObeyTheirRecurrence := by
  intro blk
  have sha1 := follows_sha1Schedule blk
  have sha256 := follows_expand256 blk
  have sha512 := follows_expand512 blk
  exact ⟨⟨sha1.length, sha1.block, sha1.later⟩, ⟨sha256.length, sha256.block, sha256.later⟩,
    ⟨sha512.length, sha512.block, sha512.later⟩⟩

end Sys2Proof.Machine
end

section
/-! PROOFS. HMAC (spec/45_hmac.md): the derived key (R271), the nested hash (R273, R274), and the HMAC commands (R280 to
R285), which differ from the HASH commands in one check more and in their output. -/

namespace Sys2Proof.Machine

/-! ## The derived key -/

section
variable {alg : Alg} {key : Bytes}

theorem digestBytes_le_hmacBlock (alg : Alg) : digestBytes alg ≤ hmacBlock alg := by cases alg <;> decide

/-- A digest fits a block, so the key material always does. -/
theorem length_keyMaterial_le (alg : Alg) (key : Bytes) : (keyMaterial alg key).length ≤ hmacBlock alg := by
  unfold keyMaterial
  split
  · next fits => exact fits
  · exact (digestsHaveFixedWidth alg key).trans_le (digestBytes_le_hmacBlock alg)

theorem length_deriveK0 (alg : Alg) (key : Bytes) : (deriveK0 alg key).length = hmacBlock alg := by
  rw [deriveK0, List.length_append, length_zeros, Nat.add_sub_cancel' (length_keyMaterial_le alg key)]

theorem deriveK0_of_le (fits : key.length ≤ hmacBlock alg) :
    deriveK0 alg key = key ++ zeros (hmacBlock alg - key.length) := by
  rw [deriveK0, keyMaterial, if_pos fits]

theorem deriveK0_of_lt (long : hmacBlock alg < key.length) :
    deriveK0 alg key = hash alg key ++ zeros (hmacBlock alg - digestBytes alg) := by
  rw [deriveK0, keyMaterial, if_neg (Nat.not_le.mpr long), digestsHaveFixedWidth]

/-- The zero bytes appended to a key are zero bytes that the filling need not add. -/
theorem deriveK0_append_zeros {n : Nat} (fits : key.length + n ≤ hmacBlock alg) :
    deriveK0 alg (key ++ zeros n) = deriveK0 alg key := by
  have length : (key ++ zeros n).length = key.length + n := by rw [List.length_append, length_zeros]
  have filling : zeros n ++ zeros (hmacBlock alg - (key.length + n)) = zeros (hmacBlock alg - key.length) := by
    simp only [zeros, List.replicate_append_replicate]
    congr 1
    omega
  rw [deriveK0_of_le (length.trans_le fits), deriveK0_of_le (Nat.le_of_add_right_le fits), length, List.append_assoc, filling]

/-- The digest of a long key is itself a key that fits, filled with the same zero bytes. -/
theorem deriveK0_hash (long : hmacBlock alg < key.length) : deriveK0 alg (hash alg key) = deriveK0 alg key := by
  have length := digestsHaveFixedWidth alg key
  rw [deriveK0_of_le (length.trans_le (digestBytes_le_hmacBlock alg)), deriveK0_of_lt long, length]

/-- HMAC reads its key through the derived key alone. -/
theorem hmac_congr {key' : Bytes} (same : deriveK0 alg key = deriveK0 alg key') (m : Bytes) :
    hmac alg key m = hmac alg key' m := by
  rw [hmac, same, hmac]

end

/-- Settles O53: the two cases of `keyMaterial`, each filled to the block size. -/
theorem derivedHmacKey : Obligations.DerivedHmacKey :=
  fun alg key => ⟨length_deriveK0 alg key, deriveK0_of_le, deriveK0_of_lt, fun _ => deriveK0_append_zeros⟩

/-! ## The nested hash -/

/-- Settles O54: the nesting is `hmac`'s definition; a long key and its digest have the same derived key. -/
theorem hmacIsTheNestedHash : Obligations.HmacIsTheNestedHash :=
  fun _ _ m => ⟨rfl, fun long => hmac_congr (deriveK0_hash long).symm m⟩

/-! ## The HMAC commands -/

theorem length_hmac (alg : Alg) (key m : Bytes) : (hmac alg key m).length = digestBytes alg :=
  digestsHaveFixedWidth alg _

section
variable {s : State}

/-- R402's checks, where DINLEN and KEYLEN are in range. -/
theorem hmacError_eq_none (range : s.dinlen.toNat ≤ s.params.inCap) (keyRange : s.keylen.toNat ≤ 256) :
    hmacError s = none := by
  rw [hmacError_eq, if_neg (Nat.not_lt.mpr range), if_neg (Nat.not_lt.mpr keyRange)]

/-- The template checks the two lengths, and the tag has the size of its variant's digest. -/
theorem hmacCommand_completes (alg : Alg) (range : s.dinlen.toNat ≤ s.params.inCap) (keyRange : s.keylen.toNat ≤ 256) :
    ∃ t, hmacCommand alg s = .next t ∧ Completed (hmac alg (keyOf s) (msgOf s)) s t ∧ t.doutlen.toNat = digestBytes alg :=
  completes_of_noError (hmacError_eq_none range keyRange) (length_hmac alg _ _) (digestBytes_lt alg)

end

/-- Settles O13: each of the six is the template with its variant. -/
theorem hmacCommandsComplete : Obligations.HmacCommandsComplete := by
  intro s range keyRange
  have completes (alg : Alg) := hmacCommand_completes alg range keyRange
  simp only [List.forall_mem_cons]
  exact ⟨completes .md5, completes .sha1, completes .sha224, completes .sha256, completes .sha384, completes .sha512,
    List.forall_mem_nil _⟩

end Sys2Proof.Machine
end

section
/-! PROOFS. PKCS#7 padding (spec/46_pkcs7.md R300 to R305). R304's check, said once as an `↔`: a message is consistent exactly
where it is some bytes and then a run of n bytes of value n. The padding of R300 is such a message, and UNPAD drops the run. -/

namespace Sys2Proof.Machine

/-! ## Consistent runs -/

section
variable {b : Bytes} {n : Byte} (pos : 1 ≤ n.toNat)
include pos

theorem finalByte_append_rep : finalByte (b ++ rep n n.toNat) = n.toNat := by
  have last : (b ++ rep n n.toNat).length - 1 = b.length + (n.toNat - 1) := by
    rw [List.length_append, length_rep, Nat.add_sub_assoc pos]
  rw [finalByte, last, List.getD_append_right _ _ _ _ (Nat.le_add_right ..), Nat.add_sub_cancel_left, rep,
    List.getD_replicate _ (Nat.sub_lt pos Nat.one_pos)]

/-- What stands before the run of R302's n bytes. -/
theorem length_sub_finalByte_append_rep :
    (b ++ rep n n.toNat).length - finalByte (b ++ rep n n.toNat) = b.length := by
  rw [finalByte_append_rep pos, List.length_append, length_rep, Nat.add_sub_cancel]

theorem consistent_append_rep : consistent (b ++ rep n n.toNat) = true := by
  have length : (b ++ rep n n.toNat).length = b.length + n.toNat := by rw [List.length_append, length_rep]
  rw [consistent, length_sub_finalByte_append_rep pos, List.drop_left, finalByte_append_rep pos, length]
  simp only [Bool.and_eq_true, decide_eq_true_eq, List.all_eq_true, beq_iff_eq]
  exact ⟨⟨⟨pos.trans (Nat.le_add_left ..), pos⟩, Nat.le_add_left ..⟩,
    fun v hv => congrArg BitVec.toNat (List.eq_of_mem_replicate hv)⟩

theorem unpadded_append_rep : unpadded (b ++ rep n n.toNat) = b := by
  rw [unpadded, length_sub_finalByte_append_rep pos, List.take_left]

end

/-- R304 as R302 reads it: the run is the last n bytes, and `unpadded` is what stands before it. -/
theorem consistent_iff (m : Bytes) :
    consistent m = true ↔ ∃ (b : Bytes) (n : Byte), 1 ≤ n.toNat ∧ m = b ++ rep n n.toNat := by
  constructor
  · intro h
    simp only [consistent, Bool.and_eq_true, decide_eq_true_eq, List.all_eq_true, beq_iff_eq] at h
    obtain ⟨⟨⟨_, pos⟩, fits⟩, run⟩ := h
    refine ⟨unpadded m, m.getD (m.length - 1) 0, pos, ?_⟩
    have tail : m.drop (m.length - finalByte m) = rep (m.getD (m.length - 1) 0) (finalByte m) :=
      List.eq_replicate_iff.mpr ⟨by rw [List.length_drop, Nat.sub_sub_self fits], fun v hv => BitVec.eq_of_toNat_eq (run v hv)⟩
    calc m = m.take (m.length - finalByte m) ++ m.drop (m.length - finalByte m) := (List.take_append_drop ..).symm
      _ = unpadded m ++ rep (m.getD (m.length - 1) 0) (finalByte m) := by rw [tail, unpadded]
  · rintro ⟨b, n, pos, rfl⟩
    exact consistent_append_rep pos

/-! ## The padding -/

section
variable {len n : Nat}

theorem padLength_pos (hn : 1 ≤ n) : 1 ≤ padLength len n := Nat.sub_pos_of_lt (Nat.mod_lt len hn)

theorem padLength_le : padLength len n ≤ n := Nat.sub_le ..

/-- R300's p completes the last block of n bytes. -/
theorem add_padLength_mod (hn : 1 ≤ n) : (len + padLength len n) % n = 0 := by
  have whole : len + padLength len n = n * (len / n + 1) := by
    have := Nat.div_add_mod len n
    have := Nat.mod_lt len hn
    rw [padLength, Nat.mul_add_one]
    omega
  rw [whole, Nat.mul_mod_right]

/-- A padding of at most 255 bytes has a length that one byte holds. -/
theorem toNat_padLength (hn : n ≤ 255) : (BitVec.ofNat 8 (padLength len n)).toNat = padLength len n := by
  have := padLength_le (len := len) (n := n)
  rw [BitVec.toNat_ofNat, Nat.mod_eq_of_lt (by omega)]

/-- The padding of R300 is a consistent run. -/
theorem pkcs7Pad_eq (b : Bytes) (hn : n ≤ 255) :
    pkcs7Pad b n = b ++ rep (BitVec.ofNat 8 (padLength b.length n)) (BitVec.ofNat 8 (padLength b.length n)).toNat := by
  rw [toNat_padLength hn, pkcs7Pad]

theorem length_pkcs7Pad (b : Bytes) (n : Nat) : (pkcs7Pad b n).length = b.length + padLength b.length n := by
  rw [pkcs7Pad, List.length_append, length_rep]

end

/-! ## The commands -/

theorem length_msgOf (s : State) : (msgOf s).length = s.dinlen.toNat := length_memRead ..

/-- Settles O19: p is R300's padding length, and DOUT, so DOUTLEN, can hold the padded message. -/
theorem padCommandCompletes : Obligations.PadCommandCompletes := by
  intro s n nonzero legal range
  have hn : 1 ≤ n.toNat := Nat.pos_of_ne_zero fun h => nonzero (BitVec.eq_of_toNat_eq h)
  have length : (pkcs7Pad (msgOf s) n.toNat).length = s.dinlen.toNat + padLength s.dinlen.toNat n.toNat := by
    rw [length_pkcs7Pad, length_msgOf]
  have fits : s.dinlen.toNat + padLength s.dinlen.toNat n.toNat < 2 ^ 32 := by
    have := padLength_le (len := s.dinlen.toNat) (n := n.toNat)
    have := n.isLt
    refine lt_of_le_of_lt ?_ (outCap_lt legal)
    rw [Config.Params.outCap, Config.outSlack]
    omega
  obtain ⟨t, run, done, doutlen⟩ := completes_of_noError (rangeError_eq_none range) length fits
  rw [pkcs7Pad, length_msgOf] at done
  exact ⟨t, _, run, padLength_pos hn, padLength_le, add_padLength_mod hn, done, doutlen⟩

section
variable {s : State} (range : s.dinlen.toNat ≤ s.params.inCap)
include range

/-- UNPAD where R402's only check for it passes. -/
theorem exec_unpad_eq : exec .unpad s =
    if consistent (msgOf s) then .next (finish (unpadded (msgOf s)) s) else .next (finishUnspecified s) := by
  rw [exec, execUnpad, rangeError_eq_none range]

/-- R302, once: what UNPAD of a consistent run leaves. -/
theorem unpad_completes {b : Bytes} {n : Byte} (pos : 1 ≤ n.toNat) (msg : msgOf s = b ++ rep n n.toNat) :
    ∃ t, exec .unpad s = .next t ∧ Completed b s t := by
  have fits : b.length < 2 ^ 32 := by
    have length := length_msgOf s
    rw [msg, List.length_append] at length
    have := s.dinlen.isLt
    omega
  rw [exec_unpad_eq range, msg, if_pos (consistent_append_rep pos), unpadded_append_rep pos]
  exact ⟨_, rfl, completed_finish s fits⟩

end

/-- Settles O20: the message is a consistent run, and `unpadded` drops it. -/
theorem unpadStripsAConsistentRun : Obligations.UnpadStripsAConsistentRun :=
  fun _ _ _ pos range msg => unpad_completes range pos msg

/-- Settles O21: by `consistent_iff` the check fails; the free DOUTLEN is a remainder modulo OUT_CAP + 1. -/
theorem unpadOfAnInconsistentInputIsUnspecified : Obligations.UnpadOfAnInconsistentInputIsUnspecified := by
  intro s _ range noRun
  have inconsistent : ¬ consistent (msgOf s) = true := by
    rw [consistent_iff]
    rintro ⟨b, n, pos, msg⟩
    exact noRun b n pos msg
  refine ⟨finishUnspecified s, (exec_unpad_eq range).trans (if_neg inconsistent), unspecified_finishUnspecified s, ?_⟩
  rw [finishUnspecified_doutlen, BitVec.toNat_ofNat]
  exact (Nat.mod_le ..).trans (Nat.le_of_lt_succ (Nat.mod_lt _ (Nat.succ_pos _)))

/-- Settles O55: the padding is a run of p bytes of value p, and all three clauses are those of a consistent run. -/
theorem unpadUndoesPad : Obligations.UnpadUndoesPad := by
  intro b n hn hn255
  have pos : 1 ≤ (BitVec.ofNat 8 (padLength b.length n)).toNat := (padLength_pos hn).trans_eq (toNat_padLength hn255).symm
  rw [pkcs7Pad_eq b hn255]
  exact ⟨consistent_append_rep pos, unpadded_append_rep pos, fun s range msg => unpad_completes range pos msg⟩

end Sys2Proof.Machine
end

section
/-! PROOFS. What each mode puts out, segment by segment (spec/47_modes.md R320 to R328). A mode walks the segments of its input
with a register, as in the round trips above. `SegmentWalk.segmentwise` finds each segment of the output, given the registers
the walk is at; each mode then says what its registers are. -/

namespace Sys2Proof.Machine

/-! ## Segments of an output -/

theorem segAt_zero (sb : Nat) (x : Bytes) : segAt sb x 0 = x.take sb := by simp [segAt, slice]

theorem segAt_succ (sb : Nat) (x : Bytes) (j : Nat) : segAt sb x (j + 1) = segAt sb (x.drop sb) j := by
  rw [segAt, segAt, slice_drop, ← Nat.succ_mul, ← Nat.succ_mul]

/-- Every segment but the last is whole. -/
theorem length_segAt {sb j : Nat} {x : Bytes} (h : (j + 1) * sb ≤ x.length) : (segAt sb x j).length = sb := by
  rw [Nat.succ_mul] at h
  rw [segAt, length_slice, Nat.succ_mul]
  omega

section
variable {sb : Nat} {x y z : Bytes} (hy : y.length = (x.take sb).length) (hz : z.length = (x.drop sb).length)
include hy hz

/-- An output cut like its input: a first part shorter than a block is the whole of it. -/
theorem first_full_or_last : y.length = sb ∨ y.length ≤ sb ∧ z = [] := by
  rw [List.length_take] at hy
  rw [List.length_drop] at hz
  rcases le_or_gt sb x.length with full | last
  · exact .inl (by omega)
  · exact .inr ⟨by omega, List.eq_nil_of_length_eq_zero (by omega)⟩

theorem take_append_of_cut (n : Nat) : (y ++ z).take n = y.take n ++ z.take (n - sb) := by
  rcases first_full_or_last hy hz with full | ⟨_, rfl⟩
  · rw [List.take_append, full]
  · simp

theorem segAt_zero_append : segAt sb (y ++ z) 0 = y := by
  rw [segAt_zero, take_append_of_cut hy hz, Nat.sub_self, List.take_zero, List.append_nil]
  exact List.take_of_length_le (hy.trans_le (List.length_take_le ..))

theorem segAt_succ_append (j : Nat) : segAt sb (y ++ z) (j + 1) = segAt sb z j := by
  rw [segAt_succ]
  rcases first_full_or_last hy hz with full | ⟨short, rfl⟩
  · rw [List.drop_left' full]
  · rw [List.append_nil, List.drop_eq_nil_of_le short]

end

/-! ## Walks -/

/-- `walk` goes over segments that are `ok`, from registers that are `reg`: it puts out `out r seg` for the segment `seg` and
goes on with the register `next r seg`, and its output is as long as its input. -/
structure SegmentWalk {ρ : Type} (reg : ρ → Prop) (ok : Bytes → Prop) (walk : ρ → List Bytes → Bytes) (out : ρ → Bytes → Bytes)
    (next : ρ → Bytes → ρ) : Prop where
  nil : ∀ r, walk r [] = []
  cons : ∀ r seg rest, walk r (seg :: rest) = out r seg ++ walk (next r seg) rest
  length : ∀ r segs, reg r → (∀ seg ∈ segs, ok seg) → (walk r segs).length = segs.flatten.length
  reg_next : ∀ r seg, reg r → ok seg → reg (next r seg)

/-- The register at segment j of `x`. -/
def regAt {ρ : Type} (next : ρ → Bytes → ρ) (sb : Nat) : ρ → Bytes → Nat → ρ
  | r, _, 0 => r
  | r, x, j + 1 => regAt next sb (next r (x.take sb)) (x.drop sb) j

theorem regAt_succ {ρ : Type} (next : ρ → Bytes → ρ) (sb : Nat) (r : ρ) (x : Bytes) (j : Nat) :
    regAt next sb r x (j + 1) = next (regAt next sb r x j) (segAt sb x j) := by
  induction j generalizing r x with
  | zero => rw [regAt, regAt, regAt, segAt_zero]
  | succ j ih => rw [regAt, ih, regAt, segAt_succ]

namespace SegmentWalk

section
variable {ρ : Type} {reg : ρ → Prop} {ok : Bytes → Prop} {walk : ρ → List Bytes → Bytes} {out : ρ → Bytes → Bytes}
  {next : ρ → Bytes → ρ} (w : SegmentWalk reg ok walk out next) {sb : Nat} (h : 0 < sb)
include w

theorem length_out {r : ρ} {seg : Bytes} (hr : reg r) (hseg : ok seg) : (out r seg).length = seg.length := by
  simpa [w.cons, w.nil] using w.length r [seg] hr (by simpa using hseg)

include h

theorem length_segments {r : ρ} {x : Bytes} (hr : reg r) (hs : ∀ seg ∈ segments sb x, ok seg) :
    (walk r (segments sb x)).length = x.length := by
  rw [w.length r _ hr hs, segments_flatten h]

/-- The walk over an input that is not empty: the output of its first block, then the walk over what follows; cut like the
input. -/
theorem walk_segments {r : ρ} {x : Bytes} (hx : x ≠ []) (hr : reg r) (hs : ∀ seg ∈ segments sb x, ok seg) :
    walk r (segments sb x) = out r (x.take sb) ++ walk (next r (x.take sb)) (segments sb (x.drop sb)) ∧
      (out r (x.take sb)).length = (x.take sb).length ∧
      (walk (next r (x.take sb)) (segments sb (x.drop sb))).length = (x.drop sb).length ∧
      reg (next r (x.take sb)) ∧ ∀ seg ∈ segments sb (x.drop sb), ok seg := by
  rw [segments_cons h hx] at hs ⊢
  obtain ⟨hseg, hrest⟩ := List.forall_mem_cons.mp hs
  have hr' := w.reg_next r _ hr hseg
  exact ⟨w.cons .., w.length_out hr hseg, w.length_segments h hr' hrest, hr', hrest⟩

theorem segAt_walk_regAt {r : ρ} {x : Bytes} {j : Nat} (hr : reg r) (hs : ∀ seg ∈ segments sb x, ok seg)
    (hj : j * sb < x.length) :
    segAt sb (walk r (segments sb x)) j = out (regAt next sb r x j) (segAt sb x j) := by
  induction j generalizing r x with
  | zero =>
    obtain ⟨split, head, tail, _, _⟩ := w.walk_segments h (List.ne_nil_of_length_pos (Nat.zero_lt_of_lt hj)) hr hs
    rw [split, segAt_zero_append head tail, segAt_zero, regAt]
  | succ j ih =>
    obtain ⟨split, head, tail, hr', hs'⟩ := w.walk_segments h (List.ne_nil_of_length_pos (Nat.zero_lt_of_lt hj)) hr hs
    have hj' : j * sb < (x.drop sb).length := by
      rw [Nat.succ_mul] at hj
      rw [List.length_drop]
      omega
    rw [split, segAt_succ_append head tail, ih hr' hs' hj', segAt_succ, regAt]

/-- Every segment of the output, given the registers of the walk: `regs 0` is the first, and `regs (j + 1)` is what the walk
goes on with after segment j. -/
theorem segmentwise {x : Bytes} {regs : Nat → ρ} (hr : reg (regs 0)) (hs : ∀ seg ∈ segments sb x, ok seg)
    (go : ∀ j, (j + 1) * sb < x.length →
      segAt sb (walk (regs 0) (segments sb x)) j = out (regs j) (segAt sb x j) →
      regs (j + 1) = next (regs j) (segAt sb x j)) :
    Segmentwise sb x (walk (regs 0) (segments sb x)) fun j =>
      segAt sb (walk (regs 0) (segments sb x)) j = out (regs j) (segAt sb x j) := by
  have atReg (j : Nat) (hj : j * sb < x.length) := w.segAt_walk_regAt h hr hs hj
  have regs_eq (j : Nat) (hj : j * sb < x.length) : regAt next sb (regs 0) x j = regs j := by
    induction j with
    | zero => rfl
    | succ j ih =>
      have before : j * sb < x.length := lt_of_le_of_lt (Nat.mul_le_mul_right _ (Nat.le_succ _)) hj
      rw [regAt_succ, ih before, ← go j hj (by rw [atReg j before, ih before])]
  exact ⟨w.length_segments h hr hs, fun j hj => by
    have put := atReg j hj
    rwa [regs_eq j hj] at put⟩

/-- The walk over the first n bytes puts out the first n bytes, where each segment's output, cut, is the output of the segment
cut. -/
theorem walk_take (cut : ∀ r seg n, out r (seg.take n) = (out r seg).take n) {r : ρ} {x : Bytes} (hr : reg r)
    (hs : ∀ seg ∈ segments sb x, ok seg) (n : Nat) :
    walk r (segments sb (x.take n)) = (walk r (segments sb x)).take n := by
  have all := segments_induct h
    (P := fun x _ => (∀ seg ∈ segments sb x, ok seg) → ∀ r n, reg r →
      walk r (segments sb (x.take n)) = (walk r (segments sb x)).take n)
    (fun _ r n _ => by rw [List.take_nil, segments_nil sb h, w.nil, List.take_nil])
    (fun x hx ih hs r n hr => by
      obtain ⟨split, head, tail, hr', hs'⟩ := w.walk_segments h hx hr hs
      rcases Nat.eq_zero_or_pos n with rfl | pos
      · rw [List.take_zero, List.take_zero, segments_nil sb h, w.nil]
      · have hne : x.take n ≠ [] := by simpa using ⟨pos.ne', hx⟩
        have first : (x.take n).take sb = (x.take sb).take n := by rw [List.take_take, List.take_take, Nat.min_comm]
        rw [split, take_append_of_cut head tail, ← cut, ← ih hs' _ _ hr', segments_cons h hne, w.cons, first, List.drop_take]
        rcases Nat.le_total n sb with short | long
        · rw [Nat.sub_eq_zero_of_le short, List.take_zero, segments_nil sb h, w.nil, w.nil]
        · rw [List.take_of_length_le (i := n) ((List.length_take_le ..).trans long)])
    x
  exact all hs r n hr

end

end SegmentWalk

/-! ## The modes -/

/-- A walk that another undoes. -/
theorem SegmentInverse.segmentWalk {ρ : Type} {reg : ρ → Prop} {ok : Bytes → Prop} {enc dec : ρ → List Bytes → Bytes}
    {out : ρ → Bytes → Bytes} {next : ρ → Bytes → ρ} (w : SegmentInverse reg ok enc dec out next) :
    SegmentWalk reg ok enc out next where
  nil := w.enc_nil
  cons := w.enc_cons
  length _ _ hr hs := w.length_enc hs hr
  reg_next := w.reg_next

section
variable {enc : Bytes → Bytes} {sb : Nat} (he : ∀ y, (enc y).length = sb)
include he

theorem ecb_segmentWalk :
    SegmentWalk (fun _ : Unit => True) (·.length = sb) (fun _ => ecbSegs enc) (fun _ seg => enc seg) (fun _ _ => ()) where
  nil _ := rfl
  cons _ _ _ := rfl
  length _ _ _ hs := length_ecbSegs he hs
  reg_next _ _ _ _ := trivial

theorem cbcEnc_segmentWalk :
    SegmentWalk (fun _ => True) (·.length = sb) (cbcEncSegs enc) (fun fb seg => enc (xorBytes seg fb))
      (fun fb seg => enc (xorBytes seg fb)) where
  nil _ := rfl
  cons _ _ _ := rfl
  length fb _ _ hs := length_cbcEncSegs he fb hs
  reg_next _ _ _ _ := trivial

theorem cbcDec_segmentWalk :
    SegmentWalk (·.length = sb) (·.length = sb) (cbcDecSegs enc) (fun fb seg => xorBytes (enc seg) fb) (fun _ seg => seg) where
  nil _ := rfl
  cons _ _ _ := rfl
  length _ _ hfb hs := length_cbcDecSegs he hfb hs
  reg_next _ _ _ hseg := hseg

theorem cfbDec_segmentWalk :
    SegmentWalk (fun _ => True) (·.length ≤ sb) (cfbDecSegs enc sb) (fun fb seg => xorBytes seg (trunc (enc fb) seg.length))
      (fun fb seg => if seg.length = sb then seg else fb) where
  nil _ := rfl
  cons _ _ _ := rfl
  length fb _ _ hs := length_cfbDecSegs he fb hs
  reg_next _ _ _ _ := trivial

/-! ## The equations of the modes -/

section
variable (h : 0 < sb) (iv x : Bytes)
include h

theorem isEcb_ecbSegs (hx : x.length % sb = 0) : IsEcb enc sb x (ecbSegs enc (segments sb x)) :=
  (ecb_segmentWalk he).segmentwise h (regs := fun _ => ()) trivial (segments_full h x hx) fun _ _ _ => rfl

/-- The register at segment j > 0 is the output segment before it, which is what the walk went on with. -/
theorem isCbcEnc_cbcEncSegs (hx : x.length % sb = 0) : IsCbcEnc enc sb iv x (cbcEncSegs enc iv (segments sb x)) :=
  (cbcEnc_segmentWalk he).segmentwise h
    (regs := fun j => if j = 0 then iv else segAt sb (cbcEncSegs enc iv (segments sb x)) (j - 1))
    trivial (segments_full h x hx) fun _ _ put => put

/-- The register at segment j > 0 is the input segment before it. -/
theorem isCbcDec_cbcDecSegs (hiv : iv.length = sb) (hx : x.length % sb = 0) :
    IsCbcDec enc sb iv x (cbcDecSegs enc iv (segments sb x)) :=
  (cbcDec_segmentWalk he).segmentwise h (regs := fun j => if j = 0 then iv else segAt sb x (j - 1))
    hiv (segments_full h x hx) fun _ _ _ => rfl

/-- A segment with another after it is whole, so its output is the next feedback. -/
theorem isCfbEnc_cfbEncSegs : IsCfbEnc enc sb iv x (cfbEncSegs enc sb iv (segments sb x)) :=
  (cfb_segmentInverse he).segmentWalk.segmentwise h
    (regs := fun j => if j = 0 then iv else segAt sb (cfbEncSegs enc sb iv (segments sb x)) (j - 1))
    trivial (segments_le h x) fun _ hj put => put.trans (if_pos (length_segAt hj.le)).symm

theorem isCfbDec_cfbDecSegs : IsCfbDec enc sb iv x (cfbDecSegs enc sb iv (segments sb x)) :=
  (cfbDec_segmentWalk he).segmentwise h (regs := fun j => if j = 0 then iv else segAt sb x (j - 1))
    trivial (segments_le h x) fun _ hj _ => (if_pos (length_segAt hj.le)).symm

theorem isOfb_ofbSegs : IsOfb enc sb iv x (ofbSegs enc iv (segments sb x)) :=
  (ofb_segmentInverse he).segmentWalk.segmentwise h (regs := fun j => Nat.repeat enc j iv) trivial (segments_le h x)
    fun _ _ _ => rfl

theorem isCtr_ctrSegs : IsCtr enc sb iv x (ctrSegs enc sb iv 0 (segments sb x)) :=
  (ctr_segmentInverse he iv).segmentWalk.segmentwise h (regs := fun j => j) trivial (segments_le h x) fun _ _ _ => rfl

end

end

/-! ## Cut inputs -/

/-- The first n bytes of a segment against its keystream. -/
theorem xor_keystream_take (o seg : Bytes) (n : Nat) :
    xorBytes (seg.take n) (trunc o (seg.take n).length) = (xorBytes seg (trunc o seg.length)).take n := by
  rw [xorBytes, xorBytes, trunc, trunc, List.take_zipWith, List.take_take, List.length_take]

/-- Settles O58: a stream mode's segment output is the segment against a keystream that does not depend on where it is cut. -/
theorem streamOutputOfAPrefix : Obligations.StreamOutputOfAPrefix := by
  intro enc dec sb d m iv x n h he not_ecb not_cbc
  have le := segments_le h x
  have cut (fb : Bytes) := xor_keystream_take (enc fb)
  cases m with
  | ecb => exact absurd rfl not_ecb
  | cbc => exact absurd rfl not_cbc
  | cfb =>
    cases d with
    | enc => exact (cfb_segmentInverse he).segmentWalk.walk_take h cut trivial le n
    | dec => exact (cfbDec_segmentWalk he).walk_take h cut trivial le n
  | ofb =>
    have same := (ofb_segmentInverse he).segmentWalk.walk_take h cut (r := iv) trivial le n
    cases d <;> exact same
  | ctr =>
    have same := (ctr_segmentInverse he iv).segmentWalk.walk_take h (fun j => cut (counterBlock sb iv j)) (r := 0) trivial le n
    cases d <;> exact same

/-! ## Changes -/

/-- Settles O59: by R324 output block i is a function of the input blocks i and i − 1. -/
theorem cbcDecryptionConfinesAnError : Obligations.CbcDecryptionConfinesAnError := by
  intro dec sb iv x x' out out' j length same hout hout' h hx hiv hd i hi hij hij'
  subst hout hout'
  obtain ⟨_, before⟩ := isCbcDec_cbcDecSegs hd h iv x hiv hx
  obtain ⟨_, after⟩ := isCbcDec_cbcDecSegs hd h iv x' hiv (length ▸ hx)
  rw [before i hi, after i (length ▸ hi), same i hi hij]
  cases i with
  | zero => rfl
  | succ i =>
    have hi' : i * sb < x.length := lt_of_le_of_lt (Nat.mul_le_mul_right _ (Nat.le_succ _)) hi
    have previous := same i hi' fun e => hij' (congrArg (· + 1) e)
    simp [previous]

end Sys2Proof.Machine
end

section
/-! PROOFS. How a command runs (spec/60_exceptions.md R402): every command is its checks and its output in the template
`complete`. `templateError` names the checks a command's template makes; they are R402's. The snapshot of R457 fixes both. -/

namespace Sys2Proof.Machine

/-! ## The checks -/

/-- The check that the template of a command makes. -/
def templateError : CmdClass → State → Option ErrCode
  | .hash _, s | .pad _, s | .unpad, s => rangeError s
  | .hmac _, s => hmacError s
  | .cipher _ m f, s => cipherError m f s

theorem errorIf_or (bad : Bool) (c : ErrCode) (rest : Option ErrCode) :
    (errorIf bad c).or rest = if bad then some c else rest := by
  cases bad <;> rfl

/-- The checks of ENC and DEC as R402 orders them. -/
theorem cipherError_eq (m : Mode) (f : Family) (s : State) : cipherError m f s =
    if s.params.inCap < s.dinlen.toNat then some .lengthRange
    else if s.keylen.toNat ∉ Config.keyLengths f then some .invalidKeySize
    else if m ≠ .ecb ∧ s.ivlen.toNat ≠ Config.blockBytes f then some .invalidIvSize
    else if (m = .ecb ∨ m = .cbc) ∧ (s.dinlen.toNat = 0 ∨ s.dinlen.toNat % Config.blockBytes f ≠ 0) then
      some .invalidBlockAlignment
    else none := by
  simp only [cipherError, rangeError, keyError, ivError, errorIf_or]
  simp [alignmentError, errorIf]

theorem firstFailing_eq_templateError (c : CmdClass) (s : State) : firstFailing c s = templateError c s := by
  cases c with
  | cipher d m f =>
    rw [templateError, cipherError_eq]
    cases f <;> simp [firstFailing, Config.keyLengths, Config.blockBytes] <;> rfl
  | hmac _ => exact (hmacError_eq s).symm
  | hash _ | pad _ | unpad => exact (errorIf_decide _ _).symm

/-- R106(b), R402, once: a command is refused with the first check that fails, else it completes with its output. -/
theorem exec_eq_complete {i : Instr} {s : State} (h : i = .unpad → consistent (msgOf s) = true) :
    exec i s = complete (firstFailing (commandClass i) s) (commandOutput (commandClass i) s) s := by
  rw [firstFailing_eq_templateError]
  cases i with
  | unpad =>
    rcases complete_cases (rangeError s) (unpadded (msgOf s)) s with ⟨c, bad, run⟩ | ⟨pass, run⟩
    · refine Eq.trans ?_ run.symm
      rw [exec, execUnpad, bad]
    · rw [exec_unpad_eq (rangeError_none pass), if_pos (h rfl)]; exact run.symm
  | _ => rfl

/-! ## The snapshot -/

theorem SameInputs.snapshot {s t : State} (h : SameInputs s t) : SameSnapshot s t :=
  ⟨congrArg Config.Params.inCap h.params, h.keylen, h.ivlen, h.dinlen, h.bytes⟩

/-- R402's checks read IN_CAP and the length registers alone. -/
theorem firstFailing_congr {s t : State} (inCap : t.params.inCap = s.params.inCap) (keylen : t.keylen = s.keylen)
    (ivlen : t.ivlen = s.ivlen) (dinlen : t.dinlen = s.dinlen) (c : CmdClass) : firstFailing c t = firstFailing c s := by
  simp only [firstFailing, inCap, keylen, ivlen, dinlen]

namespace SameSnapshot

variable {s t : State} (h : SameSnapshot s t)
include h

theorem keyOf_eq : keyOf t = keyOf s := by
  rw [keyOf, keyOf, h.keylen]
  exact memRead_congr fun k _ => h.bytes _ _ (by decide)

theorem ivOf_eq : ivOf t = ivOf s := by
  rw [ivOf, ivOf, h.ivlen]
  exact memRead_congr fun k _ => h.bytes _ _ (by decide)

theorem msgOf_eq : msgOf t = msgOf s := by
  rw [msgOf, msgOf, h.dinlen]
  exact memRead_congr fun k _ => h.bytes _ _ (by decide)

theorem firstFailing_eq (c : CmdClass) : firstFailing c t = firstFailing c s :=
  firstFailing_congr h.inCap h.keylen h.ivlen h.dinlen c

theorem commandOutput_eq (c : CmdClass) : commandOutput c t = commandOutput c s := by
  simp only [commandOutput, h.keyOf_eq, h.ivOf_eq, h.msgOf_eq]

end SameSnapshot

/-! ## The same command again -/

theorem bufByte_finish {out : Bytes} {k : Nat} (hk : k < out.length) (s : State) : bufByte (finish out s) .dout k = out[k] := by
  have byte := memRead_getElem? (finish out s) .dout 0 out.length k hk
  rw [memRead_finish, List.getElem?_eq_getElem hk, Nat.zero_add] at byte
  exact (Option.some.inj byte).symm

theorem sameInputs_complete {failed : Option ErrCode} {out : Bytes} {s t : State} (run : complete failed out s = .next t) :
    SameInputs s t := by
  rcases complete_cases failed out s with ⟨c, _, run'⟩ | ⟨_, run'⟩
  · cases run.symm.trans run'
    exact sameInputs_raiseError c s
  · cases run.symm.trans run'
    exact sameInputs_finish out s

/-- Settles O28: the inputs stay, so the second command finds the same checks and the same output. -/
theorem repeatedCommandRepeatsItsOutput : Obligations.RepeatedCommandRepeatsItsOutput := by
  intro i s t u notUnspecified first second
  have consistent_s : i = .unpad → consistent (msgOf s) = true := fun hi => by simpa [hi] using notUnspecified
  rw [exec_eq_complete consistent_s] at first
  have inputs := sameInputs_complete first
  have same := inputs.snapshot
  rw [exec_eq_complete (same.msgOf_eq ▸ consistent_s), same.firstFailing_eq, same.commandOutput_eq] at second
  cases hfailed : firstFailing (commandClass i) s with
  | some c =>
    rw [hfailed] at first second
    cases first
    cases second
    exact ⟨inputs, rfl, rfl, fun _ => rfl⟩
  | none =>
    rw [hfailed] at first second
    cases first
    cases second
    refine ⟨inputs, rfl, rfl, fun _ => memRead_congr fun k hk => ?_⟩
    have written : k < (commandOutput (commandClass i) s).length := by
      rw [finish_doutlen, BitVec.toNat_ofNat] at hk
      exact hk.trans_le (Nat.mod_le ..)
    rw [Nat.zero_add, bufByte_finish written, bufByte_finish written]

end Sys2Proof.Machine
end

section
/-! PROOFS. The ENC and DEC commands (spec/47_modes.md R322 to R359): each completes with the output of its mode, and DEC undoes
ENC. The equations of the modes' outputs are above. -/

namespace Sys2Proof.Machine

/-! ## The commands of each mode -/

section
variable {f : Family} {s : State}

/-- R402's checks of a cipher command, where they pass. -/
theorem cipherError_eq_none {m : Mode} (ready : CipherReady f s)
    (iv : m ≠ .ecb → s.ivlen.toNat = Config.blockBytes f)
    (aligned : m = .ecb ∨ m = .cbc → 0 < s.dinlen.toNat ∧ s.dinlen.toNat % Config.blockBytes f = 0) :
    cipherError m f s = none := by
  obtain ⟨range, key⟩ := ready
  rw [cipherError_eq, if_neg range.not_gt, if_neg (not_not.mpr key), if_neg fun h => h.2 (iv h.1), if_neg]
  rintro ⟨block, h⟩
  obtain ⟨pos, whole⟩ := aligned block
  exact h.elim pos.ne' (· whole)

/-- The template, where its checks pass. -/
theorem cipherCommand_completes (d : Dir) {m : Mode} (pass : cipherError m f s = none) :
    ∃ t, cipherCommand d m f s = .next t ∧ Completed (cipher d m f (keyOf s) (ivOf s) (msgOf s)) s t := by
  obtain ⟨t, run, done, _⟩ := completes_of_noError pass (length_cipher pass) s.dinlen.isLt
  exact ⟨t, run, done⟩

theorem ecbCommand_completes (d : Dir) (ready : CipherReady f s) (pos : 0 < s.dinlen.toNat)
    (whole : s.dinlen.toNat % Config.blockBytes f = 0) :
    ∃ t out, cipherCommand d .ecb f s = .next t ∧ Completed out s t ∧
      IsEcb (if d = .enc then Config.encrypt f (keyOf s) else Config.decrypt f (keyOf s)) (Config.blockBytes f) (msgOf s) out := by
  obtain ⟨t, run, done⟩ := cipherCommand_completes (m := .ecb) d
    (cipherError_eq_none ready (fun h => absurd rfl h) fun _ => ⟨pos, whole⟩)
  rw [← length_msgOf] at whole
  refine ⟨t, _, run, done, ?_⟩
  cases d with
  | enc => exact isEcb_ecbSegs (length_encrypt f _) (blockBytes_pos f) _ whole
  | dec => exact isEcb_ecbSegs (length_decrypt f _) (blockBytes_pos f) _ whole

variable (ready : CipherReady f s) (iv : s.ivlen.toNat = Config.blockBytes f)
include ready iv

theorem cbcCommand_completes (d : Dir) (pos : 0 < s.dinlen.toNat) (whole : s.dinlen.toNat % Config.blockBytes f = 0) :
    ∃ t out, cipherCommand d .cbc f s = .next t ∧ Completed out s t ∧
      (d = .enc → IsCbcEnc (Config.encrypt f (keyOf s)) (Config.blockBytes f) (ivOf s) (msgOf s) out) ∧
      (d = .dec → IsCbcDec (Config.decrypt f (keyOf s)) (Config.blockBytes f) (ivOf s) (msgOf s) out) := by
  obtain ⟨t, run, done⟩ := cipherCommand_completes (m := .cbc) d
    (cipherError_eq_none ready (fun _ => iv) fun _ => ⟨pos, whole⟩)
  rw [← length_msgOf] at whole
  refine ⟨t, _, run, done, ?_, ?_⟩
  · rintro rfl
    exact isCbcEnc_cbcEncSegs (length_encrypt f _) (blockBytes_pos f) _ _ whole
  · rintro rfl
    exact isCbcDec_cbcDecSegs (length_decrypt f _) (blockBytes_pos f) _ _ ((length_memRead ..).trans iv) whole

/-- A stream mode has no alignment check. -/
theorem streamCommand_completes (d : Dir) {m : Mode} (stream : ¬ (m = .ecb ∨ m = .cbc)) :
    ∃ t, cipherCommand d m f s = .next t ∧ Completed (cipher d m f (keyOf s) (ivOf s) (msgOf s)) s t :=
  cipherCommand_completes d (cipherError_eq_none ready (fun _ => iv) fun block => absurd block stream)

theorem cfbCommand_completes (d : Dir) :
    ∃ t out, cipherCommand d .cfb f s = .next t ∧ Completed out s t ∧
      (d = .enc → IsCfbEnc (Config.encrypt f (keyOf s)) (Config.blockBytes f) (ivOf s) (msgOf s) out) ∧
      (d = .dec → IsCfbDec (Config.encrypt f (keyOf s)) (Config.blockBytes f) (ivOf s) (msgOf s) out) := by
  obtain ⟨t, run, done⟩ := streamCommand_completes ready iv (m := .cfb) d (by decide)
  refine ⟨t, _, run, done, ?_, ?_⟩
  · rintro rfl
    exact isCfbEnc_cfbEncSegs (length_encrypt f _) (blockBytes_pos f) _ _
  · rintro rfl
    exact isCfbDec_cfbDecSegs (length_encrypt f _) (blockBytes_pos f) _ _

theorem ofbCommand_completes :
    ∃ t out, cipherCommand .enc .ofb f s = .next t ∧ Completed out s t ∧
      IsOfb (Config.encrypt f (keyOf s)) (Config.blockBytes f) (ivOf s) (msgOf s) out := by
  obtain ⟨t, run, done⟩ := streamCommand_completes ready iv (m := .ofb) .enc (by decide)
  exact ⟨t, _, run, done, isOfb_ofbSegs (length_encrypt f _) (blockBytes_pos f) _ _⟩

theorem ctrCommand_completes :
    ∃ t out, cipherCommand .enc .ctr f s = .next t ∧ Completed out s t ∧
      IsCtr (Config.encrypt f (keyOf s)) (Config.blockBytes f) (ivOf s) (msgOf s) out := by
  obtain ⟨t, run, done⟩ := streamCommand_completes ready iv (m := .ctr) .enc (by decide)
  exact ⟨t, _, run, done, isCtr_ctrSegs (length_encrypt f _) (blockBytes_pos f) _ _⟩

end

/-- R327, R328: the keystreams of OFB and CTR depend on neither the data nor the direction. -/
theorem cipherCommand_dec_eq_enc {m : Mode} (h : m = .ofb ∨ m = .ctr) (f : Family) (s : State) :
    cipherCommand .dec m f s = cipherCommand .enc m f s := by
  obtain rfl | rfl := h <;> rfl

/-- Settles O60: the four pairs are the template in the two directions. -/
theorem ofbAndCtrAreTheSameBothWays : Obligations.OfbAndCtrAreTheSameBothWays := fun s =>
  ⟨cipherCommand_dec_eq_enc (.inl rfl) .c128 s, cipherCommand_dec_eq_enc (.inl rfl) .c64 s,
    cipherCommand_dec_eq_enc (.inr rfl) .c128 s, cipherCommand_dec_eq_enc (.inr rfl) .c64 s⟩

/-- Settles O14: each of the four is the template with its direction and family. -/
theorem ecbCommandsComplete : Obligations.EcbCommandsComplete := by
  intro s
  simp only [List.forall_mem_cons]
  exact ⟨ecbCommand_completes .enc, ecbCommand_completes .enc, ecbCommand_completes .dec, ecbCommand_completes .dec,
    List.forall_mem_nil _⟩

/-- Settles O15: each of the four is the template with its direction and family. -/
theorem cbcCommandsComplete : Obligations.CbcCommandsComplete := by
  intro s
  iterate 4 rw [List.forall_mem_cons]
  exact ⟨(cbcCommand_completes · · .enc), (cbcCommand_completes · · .enc), (cbcCommand_completes · · .dec),
    (cbcCommand_completes · · .dec), List.forall_mem_nil _⟩

/-- Settles O16: each of the four is the template with its direction and family. -/
theorem cfbCommandsComplete : Obligations.CfbCommandsComplete := by
  intro s
  iterate 4 rw [List.forall_mem_cons]
  exact ⟨(cfbCommand_completes · · .enc), (cfbCommand_completes · · .enc), (cfbCommand_completes · · .dec),
    (cfbCommand_completes · · .dec), List.forall_mem_nil _⟩

/-- Settles O17: each of the four is the template with its family; DEC.OFB is ENC.OFB. -/
theorem ofbCommandsComplete : Obligations.OfbCommandsComplete := by
  intro s
  obtain ⟨c128, c64, _, _⟩ := ofbAndCtrAreTheSameBothWays s
  simp only [List.forall_mem_cons, c128, c64]
  exact ⟨ofbCommand_completes, ofbCommand_completes, ofbCommand_completes, ofbCommand_completes, List.forall_mem_nil _⟩

/-- Settles O18: each of the four is the template with its family; DEC.CTR is ENC.CTR. -/
theorem ctrCommandsComplete : Obligations.CtrCommandsComplete := by
  intro s
  obtain ⟨_, _, c128, c64⟩ := ofbAndCtrAreTheSameBothWays s
  simp only [List.forall_mem_cons, c128, c64]
  exact ⟨ctrCommand_completes, ctrCommand_completes, ctrCommand_completes, ctrCommand_completes, List.forall_mem_nil _⟩

/-! ## DEC undoes ENC -/

/-- R333 for a mode and a family, over the templates: the checks read only the lengths, so DEC passes where ENC did. -/
theorem cipherCommand_dec_undoes_enc (m : Mode) (f : Family) (inverse : m = .ecb ∨ m = .cbc → Config.CipherRoundtrip f)
    (s t s' : State) (pass : firstFailing (.cipher .enc m f) s = none) (run : cipherCommand .enc m f s = .next t)
    (params : s'.params = s.params) (keylen : s'.keylen = s.keylen) (ivlen : s'.ivlen = s.ivlen)
    (dinlen : s'.dinlen = s.dinlen) (key : keyOf s' = keyOf s) (iv : ivOf s' = ivOf s)
    (msg : msgOf s' = memRead t .dout 0 t.doutlen.toNat) :
    ∃ t', cipherCommand .dec m f s' = .next t' ∧ Completed (msgOf s) s' t' := by
  have pass' : cipherError m f s' = none := by
    rw [← firstFailing_congr (congrArg Config.Params.inCap params) keylen ivlen dinlen] at pass
    exact (firstFailing_eq_templateError _ _).symm.trans pass
  rw [firstFailing_eq_templateError] at pass
  obtain ⟨_, hkey, hiv, hblock⟩ := cipherError_none pass
  obtain ⟨t₁, run₁, done⟩ := cipherCommand_completes .enc pass
  cases run₁.symm.trans run
  rw [done.doutlen, done.output] at msg
  have back : cipher .dec m f (keyOf s') (ivOf s') (msgOf s') = msgOf s := by
    rw [key, iv, msg]
    refine everyModeRoundTripsForEveryCipher _ _ _ m _ _ (blockBytes_pos f) (length_encrypt f _) (length_decrypt f _)
      (fun hm => (length_memRead ..).trans (hiv hm)) fun hm => ⟨?_, fun b hb => ?_⟩
    · rw [length_msgOf]
      exact (hblock hm).2
    · exact inverse hm _ b (by rwa [keyOf, length_memRead]) hb
  exact back ▸ cipherCommand_completes .dec pass'

/-- Settles O56: each of the ten pairs is the template in its two directions. -/
theorem decryptionUndoesEncryption : Obligations.DecryptionUndoesEncryption := by
  have undoes := cipherCommand_dec_undoes_enc
  rw [Obligations.DecryptionUndoesEncryption]
  iterate 10 rw [List.forall_mem_cons]
  exact ⟨undoes .ecb .c128, undoes .ecb .c64, undoes .cbc .c128, undoes .cbc .c64, undoes .cfb .c128, undoes .cfb .c64,
    undoes .ofb .c128, undoes .ofb .c64, undoes .ctr .c128, undoes .ctr .c64, List.forall_mem_nil _⟩

end Sys2Proof.Machine
end

section
/-! PROOFS. Errors and host bus errors (spec/60_exceptions.md R401 to R414): which check of a command is reported, that every
step of the machine has a next state, and what an access that the engine does not accept leaves. -/

namespace Sys2Proof.Machine

/-! ## The first check that fails -/

section
variable {i : Instr} {s : State}

/-- R402, for every command: UNPAD reads its message only once its check has passed. -/
theorem exec_of_firstFailing {c : ErrCode} (bad : firstFailing (commandClass i) s = some c) :
    exec i s = .next (raiseError c s) := by
  by_cases unpad : i = .unpad
  · subst unpad
    have range : rangeError s = some c := (firstFailing_eq_templateError .unpad s).symm.trans bad
    rw [exec, execUnpad, range]
  · rw [exec_eq_complete fun h => absurd h unpad, bad, complete]

/-- Past its checks a command completes: with its output, or with UNPAD's unspecified completion (R303). -/
theorem exec_of_checks_pass (pass : firstFailing (commandClass i) s = none) :
    exec i s = .next (finish (commandOutput (commandClass i) s) s) ∨ exec i s = .next (finishUnspecified s) := by
  by_cases consistent_s : i = .unpad → consistent (msgOf s) = true
  · exact .inl (by rw [exec_eq_complete consistent_s, pass, complete])
  · obtain ⟨rfl, inconsistent⟩ := Classical.not_imp.mp consistent_s
    have range : rangeError s = none := (firstFailing_eq_templateError .unpad s).symm.trans pass
    exact .inr (by rw [exec_unpad_eq (rangeError_none range), if_neg inconsistent])

end

/-- The code of a check that fails in STATUS (R400, R403). -/
theorem statusFailed_of_firstFailing {cls : CmdClass} {s : State} {c : ErrCode} (bad : firstFailing cls s = some c) :
    (c, statusFailed c) ∈ [(ErrCode.lengthRange, 0x00000072#32), (.invalidKeySize, 0x00000012#32),
      (.invalidIvSize, 0x00000022#32), (.invalidBlockAlignment, 0x00000032#32)] := by
  rw [firstFailing_eq_templateError] at bad
  cases cls with
  | cipher d m f =>
    rw [templateError, cipherError_eq] at bad
    split_ifs at bad <;> cases bad <;> decide
  | hmac _ =>
    rw [templateError, hmacError_eq] at bad
    split_ifs at bad <;> cases bad <;> decide
  | hash _ | pad _ | unpad =>
    rw [templateError, rangeError, errorIf_decide] at bad
    split_ifs at bad
    cases bad
    decide

/-- Settles O11: a word that decode refuses and a check that fails both end in `raiseError`; past the checks, both completions
leave success in STATUS. -/
theorem validationOrder : Obligations.ValidationOrder := by
  refine fun s v => ⟨fun c refused => ?_, fun i c decoded bad => ?_, fun i decoded pass => ?_⟩
  · exact ⟨_, engineStep_of_error refused s, refused_raiseError c s, statusFailed_of_decode refused⟩
  · exact ⟨_, (engineStep_of_ok decoded s).trans (exec_of_firstFailing bad), refused_raiseError c s,
      statusFailed_of_firstFailing bad⟩
  · rw [engineStep_of_ok decoded]
    obtain run | run := exec_of_checks_pass pass
    · exact ⟨_, run, rfl, rfl, sameInputs_finish _ s⟩
    · exact ⟨_, run, rfl, rfl, sameInputs_finishUnspecified s⟩

/-! ## Every step has a next state -/

theorem engineStep_next (word : Word32) (s : State) : ∃ t, engineStep word s = .next t := by
  obtain ⟨_, run⟩ | ⟨_, _, run⟩ | ⟨_, run⟩ := engineStep_cases word s <;> exact ⟨_, run⟩

/-- Settles O29: whoever's turn it is, the reset event, the engine step, the host step and the idle step each answer a state. -/
theorem everyStepAnswersANextState : Obligations.EveryStepAnswersANextState := by
  intro s
  rw [step]
  cases nextTurn s with
  | reset t => exact ⟨_, rfl⟩
  | engine word t => exact engineStep_next word t
  | host i t =>
    obtain ⟨u, run, _⟩ := hostStep_next i t
    exact ⟨u, run⟩
  | idle t => exact ⟨t, rfl⟩

/-! ## The idle machine -/

theorem nextAgent_idle {s : State} (flight : s.inflight = none) (noHost : readyHosts s = []) : nextAgent s = .idle s := by
  rw [nextAgent, flight, pickHost_of_readyHosts_nil noHost]

/-- A machine with nothing to do only takes the next level of its reset input (R426; log entries 8 and 16). -/
theorem step_idle {s : State} (input : s.resetInput.head? ≠ some true) (flight : s.inflight = none)
    (noHost : readyHosts s = []) : step s = .next (nextInput s) := by
  rw [step, nextTurn_deasserted input, nextAgent_idle (s := nextInput s) flight noHost]

/-- Settles O7: with no level of the reset input given, `nextInput` leaves the state. -/
theorem idleMachineStays : Obligations.IdleMachineStays := by
  intro s flight noHost input
  rw [step_idle (by simp [input]) flight noHost, nextInput_nil input]

/-! ## Host bus errors -/

section
variable {s : State} {i : Nat} {h : HostAgent} (host : s.hosts[i]? = some h)
include host

/-- R410, R414: a byte access to the register block, and a word access at a misaligned offset of the window, stop their host. -/
theorem hostStep_of_not_accepted {off x : Nat} {v : HostVal} (inWindow : off < Config.windowBytes)
    (access : (off < 0x100 ∧ (h.program[h.pc]? = some (.w8 off v) ∨ h.program[h.pc]? = some (.r8 off x))) ∨
      (off % 4 ≠ 0 ∧ (h.program[h.pc]? = some (.w32 off v) ∨ h.program[h.pc]? = some (.r32 off x)))) :
    ∃ e, hostStep i s = .next (stopHost i h s e) := by
  obtain ⟨register, stmt | stmt⟩ | ⟨misaligned, stmt | stmt⟩ := access <;>
    rw [hostStep_eq_runStmt host stmt, runStmt, windowOffset_inside inWindow]
  · exact ⟨_, by rw [hostWrite8_register register, afterWrite]⟩
  · exact ⟨_, by rw [hostRead8_register register, afterReadInto]⟩
  · exact ⟨_, by rw [hostWrite32_misaligned misaligned, afterWrite]⟩
  · exact ⟨_, by rw [hostRead32_misaligned misaligned, afterReadInto]⟩

theorem stopHost_host (e : BusError) : (stopHost i h s e).hosts[i]? = some { h with run := .faulted } := by
  rw [stopHost_hosts, List.getElem?_set_self (List.getElem?_eq_some_iff.mp host).1]

/-- The stopped host takes no further step (log entry 6). -/
theorem notMem_readyHosts_stopHost (e : BusError) : i ∉ readyHosts (stopHost i h s e) := by
  rw [mem_readyHosts, stopHost_host host]
  rintro ⟨_, ⟨⟩, running, _⟩
  cases running

end

theorem stopHost_other_host {i j : Nat} (other : j ≠ i) (h : HostAgent) (s : State) (e : BusError) :
    (stopHost i h s e).hosts[j]? = s.hosts[j]? := by
  rw [stopHost_hosts, List.getElem?_set_ne other.symm]

theorem stopHost_hostFault_isSome (i : Nat) (h : HostAgent) (s : State) (e : BusError) :
    (stopHost i h s e).hostFault.isSome = true := by
  rw [stopHost_hostFault, Option.isSome_or, Option.isSome_some, Bool.or_true]

/-- Settles O44: the host step is `stopHost`, whose frame and whose keeping of the first record are proved above. -/
theorem busErrorStopsOnlyItsHost : Obligations.BusErrorStopsOnlyItsHost := by
  intro s i h off v x host inWindow access
  obtain ⟨e, run⟩ := hostStep_of_not_accepted host inWindow access
  exact ⟨_, run, sameEngine_stopHost i h s e, stopHost_draws i h s e, stopHost_hostFault_isSome i h s e,
    (keepsRecord_stopHost i h s e).hostFault, stopHost_host host e, fun _ other => stopHost_other_host other h s e,
    notMem_readyHosts_stopHost host e⟩

end Sys2Proof.Machine
end

section
/-! PROOFS. Reset and hazards (spec/70_reset_and_hazards.md R450 to R462): what the reset event leaves, what a host sees of a busy
engine, and the life of a command in flight. While the engine is busy a host step leaves the engine as it is; so a step either
ends the command or leaves everything of it but the count of host steps. The engine step is a function of the snapshot. -/

namespace Sys2Proof.Machine

/-! ## The reset event -/

theorem step_reset {s : State} (input : s.resetInput.head? = some true) : step s = .next (resetEvent (nextInput s)) := by
  rw [step, nextTurn, if_pos input]

/-- No byte is listed after the reset event, so every byte reads as the draw it took. -/
theorem bufByte_resetEvent (s : State) (sp : Space) (k : Nat) : bufByte (resetEvent s) sp k = Config.freeByte s.draws sp k := by
  cases sp <;> rfl

/-- Settles O31: the step is `resetEvent`, which clears what R38 lists and leaves the rest. -/
theorem resetEventAbandonsAndClears : Obligations.ResetEventAbandonsAndClears := by
  intro s rest input
  refine ⟨_, step_reset (by rw [input, List.head?_cons]), rfl, rfl, rfl, rfl, rfl, rfl, rfl,
    bufByte_resetEvent (nextInput s), rfl, rfl, ?_, rfl⟩
  rw [resetEvent_resetInput, nextInput_resetInput, input, List.tail_cons]

/-! ## Accesses while busy -/

section
variable {s : State} {off k : Nat} {sp : Space}

theorem readRegister_doutlen_busy (working : busy s = true) : readRegister s 0x014 = Config.freeWord s.draws := by
  simp [readRegister, working]

/-- The input buffers read alike, idle or busy. -/
theorem readWindowByte_input (hsp : sp ≠ .dout) (hl : locate s.params off = some (sp, k)) :
    readWindowByte s off = bufByte s sp k := by
  rw [readWindowByte, hl]
  cases sp with
  | dout => exact absurd rfl hsp
  | _ => rfl

theorem readWindowByte_output_busy (working : busy s = true) (hl : locate s.params off = some (.dout, k)) :
    readWindowByte s off = Config.freeByte s.draws .dout k := by
  simp only [readWindowByte, hl, working, if_true]

theorem hostRead8_input (h : 0x100 ≤ off) (hsp : sp ≠ .dout) (hl : locate s.params off = some (sp, k)) :
    hostRead8 off s = .ok (bufByte s sp k, afterRead s) := by
  rw [hostRead8_eq h, readWindowByte_input hsp hl]

theorem hostRead8_output_busy (working : busy s = true) (h : 0x100 ≤ off) (hl : locate s.params off = some (.dout, k)) :
    hostRead8 off s = .ok (Config.freeByte s.draws .dout k, nextDraw s) := by
  rw [hostRead8_eq h, readWindowByte_output_busy working hl, afterRead_busy working]

theorem hostRead32_doutlen_busy (working : busy s = true) : hostRead32 0x014 s = .ok (Config.freeWord s.draws, nextDraw s) := by
  rw [hostRead32_register (by decide) (by decide), readRegister_doutlen_busy working, afterRead_busy working]

theorem hostWrite8_busy (working : busy s = true) (h : 0x100 ≤ off) (v : Byte) : hostWrite8 off v s = .ok s := by
  rw [hostWrite8_eq h, if_pos working]

end

/-- Settles O39: the writes are dropped, and no read of an input asks whether the engine is busy. -/
theorem writesWhileBusyAreDropped : Obligations.WritesWhileBusyAreDropped := by
  intro s working _
  refine ⟨fun off v h4 => hostWrite32_busy h4 v working, fun off v h => hostWrite8_busy working h v, ?_,
    fun k hk => ⟨_, hostRead8_input (by omega) (by decide) (locate_keymem _ hk)⟩,
    fun k hk => ⟨_, hostRead8_input (by omega) (by decide) (locate_ivmem _ hk)⟩,
    fun k hk => ⟨_, hostRead8_input (by omega) (by decide) (locate_din _ hk)⟩⟩
  have read {off : Nat} (h : off < 0x100) (h4 : off % 4 = 0) : ∃ t, hostRead32 off s = .ok (readRegister s off, t) :=
    ⟨_, hostRead32_register h h4 s⟩
  simp only [List.forall_mem_cons]
  exact ⟨read (by decide) (by decide), read (by decide) (by decide), read (by decide) (by decide), read (by decide) (by decide),
    read (by decide) (by decide), List.forall_mem_nil _⟩

/-- Settles O40: DOUTLEN and DOUT are read from the next draw, which the read takes. -/
theorem resultsReadWhileBusyAreFree : Obligations.ResultsReadWhileBusyAreFree := fun s working legal =>
  ⟨⟨_, hostRead32_doutlen_busy working, rfl, sameEngine_nextDraw s⟩,
    fun _ hk => ⟨_, hostRead8_output_busy working (by omega) (locate_dout legal hk), rfl, sameEngine_nextDraw s⟩⟩

/-! ## Host steps while busy -/

section
variable {s t : State}

theorem SameEngine.trans {u : State} (h : SameEngine s t) (h' : SameEngine t u) : SameEngine s u where
  params := h'.params.trans h.params
  cmd := h'.cmd.trans h.cmd
  status := h'.status.trans h.status
  keylen := h'.keylen.trans h.keylen
  ivlen := h'.ivlen.trans h.ivlen
  dinlen := h'.dinlen.trans h.dinlen
  doutlen := h'.doutlen.trans h.doutlen
  bytes sp k := (h'.bytes sp k).trans (h.bytes sp k)
  keymem := h'.keymem.trans h.keymem
  ivmem := h'.ivmem.trans h.ivmem
  din := h'.din.trans h.din
  dout := h'.dout.trans h.dout
  inflight := h'.inflight.trans h.inflight

theorem SameEngine.snapshot (h : SameEngine s t) : SameSnapshot s t :=
  ⟨congrArg Config.Params.inCap h.params, h.keylen, h.ivlen, h.dinlen, fun sp k _ => h.bytes sp k⟩

theorem bufByte_withInflight (s : State) (f : Option InFlight) (sp : Space) (k : Nat) :
    bufByte { s with inflight := f } sp k = bufByte s sp k := by
  cases sp <;> rfl

/-- The same marker set in both keeps the frame. -/
theorem SameEngine.withInflight (h : SameEngine s t) (f : Option InFlight) :
    SameEngine { s with inflight := f } { t with inflight := f } :=
  { h with
    bytes := fun sp k =>
      (bufByte_withInflight t f sp k).trans ((h.bytes sp k).trans (bufByte_withInflight s f sp k).symm)
    inflight := rfl }

/-- R460: a host changes nothing of a busy engine. -/
theorem HostStepEffect.sameEngine {i : Nat} (h : HostStepEffect i s t) (working : busy s = true) : SameEngine s t := by
  cases h with
  | none => exact .refl s
  | write a u effect _ =>
    obtain rfl := effect.busy working
    exact sameEngine_setHost u i _
  | read a x v _ => exact (sameEngine_afterRead s).trans (sameEngine_setHost _ i _)
  | jump a pc _ => exact sameEngine_setHost s i _
  | halt a _ => exact sameEngine_setHost s i _
  | busError a e _ => exact sameEngine_stopHost i a s e
  | outsideRead a x v _ => exact sameEngine_setHost_nextDraw s i _

theorem HostStepEffect.resetInput {i : Nat} (h : HostStepEffect i s t) : t.resetInput = s.resetInput := by
  cases h with
  | write a u effect _ =>
    obtain ⟨_, _, _, _, _, input, _⟩ := effect.frame
    exact input
  | read a x v _ => exact afterRead_resetInput s
  | _ => rfl

/-! ## A command in flight -/

/-- With a command in flight and the reset input deasserted, a step is its engine step, or one of the host steps that still
pass, which leaves the engine but for the count (R455, R460, R462; log entry 4). -/
theorem step_inFlight_cases {f : InFlight} (hs : Invariant s) (flight : s.inflight = some f)
    (input : s.resetInput.head? ≠ some true) (run : step s = .next t) :
    engineStep f.word (nextInput s) = .next t ∨
      ∃ n, f.wait = n + 1 ∧ SameEngine { s with inflight := some { f with wait := n } } t ∧
        t.resetInput = s.resetInput.tail := by
  cases step_cases run with
  | idle _ noFlight => cases noFlight.symm.trans flight
  | reset asserted => exact absurd asserted input
  | engine g _ _ flight' run =>
    cases flight'.symm.trans flight
    exact .inl run
  | hostIdle _ _ _ _ noFlight => cases noFlight.symm.trans flight
  | hostBusy i g n u _ _ flight' wait pick run =>
    cases flight'.symm.trans flight
    obtain ⟨working, _⟩ := (pick.invariant hs).flight f (pick.sameEngine.inflight.trans flight)
    obtain ⟨_, _, _, input', _⟩ := pick.frame
    exact .inr ⟨n, wait, (pick.sameEngine.withInflight _).trans (run.sameEngine working), run.resetInput.trans input'⟩

end

/-- Settles O26: the engine step ends the command, so the step was one of the host steps that still pass. -/
theorem snapshotStaysWhileInFlight : Obligations.SnapshotStaysWhileInFlight := by
  intro s t f hs flight input run stays
  rcases step_inFlight_cases ((inv_iff s).mp hs) flight input run with ends | ⟨n, wait, same, _⟩
  · obtain ⟨noFlight, _⟩ := engineStep_completes ends
    exact absurd noFlight stays
  · have snapshot : SameSnapshot s t :=
      { same.snapshot with bytes := fun sp k _ => (same.bytes sp k).trans (bufByte_withInflight s _ sp k) }
    exact ⟨⟨_, same.inflight, rfl, wait ▸ Nat.lt_succ_self n⟩, snapshot, same.cmd, same.status, same.keymem, same.ivmem, same.din⟩

/-- Settles O30, by induction on the count: each step is the engine step, or lowers it and keeps the premises. -/
theorem inFlightCommandCompletes : Obligations.InFlightCommandCompletes := by
  intro s f hs flight input
  induction hwait : f.wait using Nat.strong_induction_on generalizing s f with
  | _ wait ih =>
    subst hwait
    obtain ⟨t, run⟩ := everyStepAnswersANextState s
    rcases step_inFlight_cases ((inv_iff s).mp hs) flight (by simp [input]) run with ends | ⟨n, wait, same, input'⟩
    · obtain ⟨noFlight, done, notBusy⟩ := engineStep_completes ends
      exact ⟨1, t, Nat.le_refl 1, Nat.le_add_left 1 _, run_succ_of_next (M := core) run, noFlight, notBusy, done⟩
    · obtain ⟨k, u, _, bound, runs, result⟩ := ih n (wait ▸ Nat.lt_succ_self n) t _ (stepKeepsTheInvariant s t hs run)
        same.inflight (by rw [input', input, List.tail_nil]) rfl
      exact ⟨k + 1, u, Nat.le_add_left 1 k, wait ▸ Nat.succ_le_succ bound, (run_succ_of_next (M := core) run).trans runs, result⟩

/-! ## The engine step and the snapshot -/

/-- What R456 compares of two results: STATUS, DOUTLEN, and on success the bytes of DOUT before DOUTLEN. -/
structure SameOutcome (t t' : State) : Prop where
  status : t'.status = t.status
  doutlen : t'.doutlen = t.doutlen
  output : t.status = 0x00000002#32 → ∀ k, k < t.doutlen.toNat → bufByte t' .dout k = bufByte t .dout k

/-- An error writes no output, and its STATUS is no success. -/
theorem sameOutcome_raiseError (c : ErrCode) (s s' : State) : SameOutcome (raiseError c s) (raiseError c s') where
  status := rfl
  doutlen := rfl
  output success := by
    obtain ⟨_, _, _, _, failure⟩ := statusFailed_facts c
    exact absurd success failure

theorem sameOutcome_finish (out : Bytes) (s s' : State) : SameOutcome (finish out s) (finish out s') where
  status := rfl
  doutlen := rfl
  output _ k hk := by
    rw [finish_doutlen, BitVec.toNat_ofNat] at hk
    have written : k < out.length := hk.trans_le (Nat.mod_le ..)
    rw [bufByte_finish written, bufByte_finish written]

/-- The template's result depends on its checks and its output alone. -/
theorem sameOutcome_complete {failed : Option ErrCode} {out : Bytes} {s s' t t' : State}
    (run : complete failed out s = .next t) (run' : complete failed out s' = .next t') : SameOutcome t t' := by
  cases failed with
  | some c =>
    cases run
    cases run'
    exact sameOutcome_raiseError c s s'
  | none =>
    cases run
    cases run'
    exact sameOutcome_finish out s s'

section
variable {s s' t t' : State} (same : SameSnapshot s s')
include same

/-- Every command but UNPAD of an inconsistent input is `complete` of what the snapshot fixes. -/
theorem SameSnapshot.exec_sameOutcome {i : Instr} (specified : i = .unpad → consistent (msgOf s) = true)
    (run : exec i s = .next t) (run' : exec i s' = .next t') : SameOutcome t t' := by
  rw [exec_eq_complete specified] at run
  rw [exec_eq_complete (same.msgOf_eq ▸ specified), same.firstFailing_eq, same.commandOutput_eq] at run'
  exact sameOutcome_complete run run'

/-- UNPAD of an inconsistent input is refused alike, or both times in range and unspecified (R303). -/
theorem SameSnapshot.exec_unpad_inconsistent (inconsistent : ¬ consistent (msgOf s) = true)
    (run : exec .unpad s = .next t) (run' : exec .unpad s' = .next t') :
    SameOutcome t t' ∨ (s.dinlen.toNat ≤ s.params.inCap ∧ t'.status = t.status) := by
  by_cases range : s.dinlen.toNat ≤ s.params.inCap
  · rw [exec_unpad_eq range, if_neg inconsistent] at run
    rw [exec_unpad_eq (by rw [same.dinlen, same.inCap]; exact range), same.msgOf_eq, if_neg inconsistent] at run'
    cases run
    cases run'
    exact .inr ⟨range, rfl⟩
  · have bad : firstFailing (commandClass .unpad) s = some .lengthRange := if_pos (Nat.lt_of_not_le range)
    cases (exec_of_firstFailing bad).symm.trans run
    cases (exec_of_firstFailing ((same.firstFailing_eq _).trans bad)).symm.trans run'
    exact .inl (sameOutcome_raiseError _ s s')

/-- R456 with its exception: a word is refused alike, or is the same command. -/
theorem SameSnapshot.engineStep_sameOutcome {w : Word32} (run : engineStep w s = .next t) (run' : engineStep w s' = .next t') :
    SameOutcome t t' ∨
      (decode w = .ok .unpad ∧ s.dinlen.toNat ≤ s.params.inCap ∧ consistent (msgOf s) = false) ∧ t'.status = t.status := by
  cases decoded : decode w with
  | error c =>
    cases (engineStep_of_error decoded s).symm.trans run
    cases (engineStep_of_error decoded s').symm.trans run'
    exact .inl (sameOutcome_raiseError c s s')
  | ok i =>
    rw [engineStep_of_ok decoded] at run run'
    by_cases specified : i = .unpad → consistent (msgOf s) = true
    · exact .inl (same.exec_sameOutcome specified run run')
    · obtain ⟨rfl, inconsistent⟩ := Classical.not_imp.mp specified
      obtain outcome | ⟨range, status⟩ := same.exec_unpad_inconsistent inconsistent run run'
      · exact .inl outcome
      · exact .inr ⟨⟨rfl, range, Bool.eq_false_iff.mpr inconsistent⟩, status⟩

end

/-- Settles O27: only R303's completion, which has success in STATUS both times, draws its output. -/
theorem engineStepIsAFunctionOfTheSnapshot : Obligations.EngineStepIsAFunctionOfTheSnapshot := by
  intro w s s' t t' same run run'
  obtain outcome | ⟨unspecified, status⟩ := same.engineStep_sameOutcome run run'
  · exact ⟨outcome.status, fun _ => ⟨outcome.doutlen, outcome.output⟩⟩
  · exact ⟨status, fun specified => absurd unspecified specified⟩

end Sys2Proof.Machine
end
